-- ==== Sys2Proof/Word.lean ====
section
/-! DEFINITION. The words of the block: 32-bit registers and tensor elements (spec R5 `XLEN`), bytes, and a
group of four of a kind (the four taps of an axis: indices, weights, values). -/

namespace Sys2Proof

/-- A 32-bit register value, tensor element or command word (R5 `XLEN`). -/
abbrev Word := BitVec 32

/-- A byte of the host's byte view of tensor memory (R44). -/
abbrev Byte := BitVec 8

/-- Four of a kind, one for each tap `k = 0 .. 3` of an axis (R9 "Tap"). -/
structure Quad (α : Type) where
  q0 : α
  q1 : α
  q2 : α
  q3 : α
  deriving DecidableEq, Repr

/-- Apply `f` to each of the four. -/
def Quad.map {α β : Type} (f : α → β) (q : Quad α) : Quad β :=
  ⟨f q.q0, f q.q1, f q.q2, f q.q3⟩

/-- Combine two groups of four tap by tap. -/
def Quad.zipWith {α β γ : Type} (f : α → β → γ) (p : Quad α) (q : Quad β) : Quad γ :=
  ⟨f p.q0 q.q0, f p.q1 q.q1, f p.q2 q.q2, f p.q3 q.q3⟩

/-- The four as a list, tap 0 first. -/
def Quad.toList {α : Type} (q : Quad α) : List α := [q.q0, q.q1, q.q2, q.q3]

end Sys2Proof
end

