-- ==== Sys2Proof/Config.lean ====
section
/-! DEFINITION. What an implementation fixes: the parameters of R5 and the free values of the spec. A parameter
that R5 marks OPEN is a field of `Params` (a claim about every state is a claim about every value of it); a value
the spec leaves unspecified is an opaque constant, of which nothing can be proved. -/

namespace Sys2Proof

/-- The tie rule of the `offset` rounding (R5 `TIE`, R93, U2). -/
inductive TieRule where
  /-- an exact half goes to the even integer (R5's default) -/
  | even
  /-- an exact half goes away from zero (R5's OPEN alternative) -/
  | away
  deriving DecidableEq, Repr

/-- The OPEN parameters of R5, with the bounds R5 puts on them. -/
structure Params where
  /-- `K`, the table resolution: a table has `2*(K+1)` entries. -/
  K : Nat
  /-- `TIE`, the tie rule of `offset`. -/
  tie : TieRule
  /-- `NW`, the size of the worker pool. -/
  nw : Nat
  /-- `MemValid`, as the ranges `[lo, hi)` of element addresses the platform does not back. -/
  holes : List (Nat × Nat)
  K_even : K % 2 = 0
  K_min : 2 ≤ K
  K_max : K ≤ 2 ^ 24
  nw_pos : 1 ≤ nw
  deriving DecidableEq, Repr

/-- R5's defaults: `K = 1024`, ties to even, every address backed. `NW` has no default there: 1 is a
DESIGN CHOICE (log 8). -/
def Params.default : Params where
  K := 1024
  tie := .even
  nw := 1
  holes := []
  K_even := by decide
  K_min := by decide
  K_max := by decide
  nw_pos := by decide

/-- Free value (R7, U5): the bits of a NaN that a rule's result is, for the command numbered by the first
argument and the result numbered by the second. Log 4. -/
opaque Config.nanBits : Nat → Nat → BitVec 32

/-- Free value (R163, U6): what a byte of tensor memory that nothing has written reads as, by byte address.
Log 5. -/
opaque Config.powerUpByte : Nat → BitVec 8

/-- Free value (R167, U14): whether the numbered read of a result register during the command returns the value
the command will leave (true) or the one before it (false); the second argument is the register index. Log 6. -/
opaque Config.busyReadsNew : Nat → Nat → Bool

/-- `A0 = -0.75`, the shape parameter of `TAB[0]` (R5). -/
def Config.A0 : Word := 0xBF400000

/-- `A1 = -0.5`, the shape parameter of `TAB[1]` (R5). -/
def Config.A1 : Word := 0xBF000000

/-- `THRESH = 1000 * 2^-126`, the bound of the renormalisation (R5, R97). -/
def Config.THRESH : Word := 0x057A0000

end Sys2Proof
end

