-- ==== Sys2Proof/Syntax.lean ====
section
/-! DEFINITION. The commands of the block, one constructor for each row of spec/opcode_table.json, and the raw
form of a command word. A command carries no operand (R61, R64): its operands are registers. -/

namespace Sys2Proof

/-- The five commands (R62). -/
inductive Instr where
  /-- `GETTAB`, R85: read one coefficient-table entry. -/
  | gettab
  /-- `LOCATE`, R99: indices and weights of one output coordinate. -/
  | locate
  /-- `INTERP`, R106: one four-term dot product. -/
  | interp
  /-- `RESIZE`, R114: the 2D resize driver. -/
  | resize
  /-- `RUN`, R133: the whole operator. -/
  | run
  deriving DecidableEq, Repr

/-- The one command format `CMDW` (R61): `OP` in bits 7:0, `ZERO` in bits 31:8. -/
structure CmdWord where
  /-- bits `[7:0]`, the opcode -/
  op : BitVec 8
  /-- bits `[31:8]`, must be 0 -/
  zero : BitVec 24
  deriving DecidableEq, Repr

end Sys2Proof
end

