-- ==== Sys2Proof/WellFormed.lean ====
section
/-! DEFINITION. When a command is well formed. A term of `Instr` has no field (R64 "A command has no immediate"),
so every one is; what can be ill formed is a raw command word (R61, R62). -/

namespace Sys2Proof

/-- Every `Instr` is well formed: there is no operand to check (R64). -/
def Instr.wellFormed : Instr → Bool
  | .gettab => true
  | .locate => true
  | .interp => true
  | .resize => true
  | .run => true

/-- R61: the field `ZERO` must be 0. -/
def CmdWord.zeroOk (c : CmdWord) : Bool := c.zero == 0

/-- R62: the opcode is one of `0x01 .. 0x05`. -/
def CmdWord.opOk (c : CmdWord) : Bool := 1 ≤ c.op.toNat && c.op.toNat ≤ 5

/-- R62: a command word selects a command exactly when both checks hold. -/
def CmdWord.wellFormed (c : CmdWord) : Bool := c.zeroOk && c.opOk

end Sys2Proof
end

