-- ==== Sys2Proof/Decode.lean ====
section
/-! DEFINITION. Reading a command word (R61, R62, R63) and writing one. Decoding is total: a word that selects no
command is rejected by name. A command word is one 32-bit datum of a register write: it is never taken apart into
bytes (R60), so there is no byte order to lay it out in. -/

namespace Sys2Proof

/-- The reasons for which a command word selects no command (R63). -/
inductive DecodeError where
  /-- bits `[31:8]` are not 0 -/
  | reservedField
  /-- bits `[31:8]` are 0 and the opcode is `0x00` or `0x06 .. 0xFF` -/
  | reservedOpcode (op : BitVec 8)
  deriving DecidableEq, Repr

/-- The fields of a word (R61). -/
def CmdWord.ofWord (w : Word) : CmdWord := ⟨w.extractLsb' 0 8, w.extractLsb' 8 24⟩

/-- The word of two fields (R61). -/
def CmdWord.toWord (c : CmdWord) : Word := c.zero ++ c.op

/-- The command an opcode selects (R62). -/
def decodeOp (op : BitVec 8) : Except DecodeError Instr :=
  match op.toNat with
  | 1 => .ok .gettab
  | 2 => .ok .locate
  | 3 => .ok .interp
  | 4 => .ok .resize
  | 5 => .ok .run
  | _ => .error (.reservedOpcode op)

/-- The command a word selects (R62, R63). -/
def decode (w : Word) : Except DecodeError Instr :=
  let c := CmdWord.ofWord w
  if c.zero = 0 then decodeOp c.op else .error .reservedField

/-- The opcode of a command (R62). -/
def Instr.opcode : Instr → BitVec 8
  | .gettab => 0x01
  | .locate => 0x02
  | .interp => 0x03
  | .resize => 0x04
  | .run => 0x05

/-- The word of a command (R61, R62). -/
def encode (i : Instr) : Word := CmdWord.toWord ⟨i.opcode, 0⟩

/-- The command word of a table row's bits: `nbits` bits of `w`, every bit above them 0. -/
def fetchedWord (nbits w : Nat) : Word := BitVec.ofNat 32 (w % 2 ^ nbits)

/-- The decoder as the host asks it about the opcode table. A number that does not fit a command word is none. -/
def decodeTableWord (nbits w : Nat) : Option Instr :=
  if w % 2 ^ nbits < 2 ^ 32 then (decode (fetchedWord nbits w)).toOption else none

end Sys2Proof
end

