-- ==== Sys2Proof/Machine/State.lean ====
section
/-! DEFINITION. The state of the block as plain data: the register file (R11), the status fields (R14), tensor memory
(R40), the hidden state of a command in progress (R26, R27), the parameters (R5), and the model's own record of the
host's transactions (R60). -/

namespace Sys2Proof.Machine

/-- The 37 registers of the register file (R11), named as the spec names them. -/
inductive Reg where
  /-- `CMD`, index 0x00, WO -/
  | cmd
  /-- `STATUS`, index 0x01, RO -/
  | status
  /-- `IN_ADDR`, index 0x02, RW -/
  | inAddr
  /-- `OUT_ADDR`, index 0x03, RW -/
  | outAddr
  /-- `SIZE_ADDR`, index 0x04, RW -/
  | sizeAddr
  /-- `CFG`, index 0x05, RW -/
  | cfg
  /-- `MODE`, index 0x06, RW -/
  | mode
  /-- `IN_RANK`, index 0x07, RW -/
  | inRank
  /-- `IN_DIM0`, index 0x08, RW -/
  | inDim0
  /-- `IN_DIM1`, index 0x09, RW -/
  | inDim1
  /-- `IN_DIM2`, index 0x0A, RW -/
  | inDim2
  /-- `IN_DIM3`, index 0x0B, RW -/
  | inDim3
  /-- `SIZE_H`, index 0x0C, RW -/
  | sizeH
  /-- `SIZE_W`, index 0x0D, RW -/
  | sizeW
  /-- `OUT_H`, index 0x0E, RW -/
  | outH
  /-- `OUT_W`, index 0x0F, RW -/
  | outW
  /-- `H_SCALE`, index 0x10, RW -/
  | hScale
  /-- `W_SCALE`, index 0x11, RW -/
  | wScale
  /-- `L_SCALE`, index 0x12, RW -/
  | lScale
  /-- `L_COORD`, index 0x13, RW -/
  | lCoord
  /-- `L_OUTSIZE`, index 0x14, RW -/
  | lOutSize
  /-- `L_LIMIT`, index 0x15, RW -/
  | lLimit
  /-- `IDX0`, index 0x16, RO -/
  | idx0
  /-- `IDX1`, index 0x17, RO -/
  | idx1
  /-- `IDX2`, index 0x18, RO -/
  | idx2
  /-- `IDX3`, index 0x19, RO -/
  | idx3
  /-- `WGT0`, index 0x1A, RW -/
  | wgt0
  /-- `WGT1`, index 0x1B, RW -/
  | wgt1
  /-- `WGT2`, index 0x1C, RW -/
  | wgt2
  /-- `WGT3`, index 0x1D, RW -/
  | wgt3
  /-- `VAL0`, index 0x1E, RW -/
  | val0
  /-- `VAL1`, index 0x1F, RW -/
  | val1
  /-- `VAL2`, index 0x20, RW -/
  | val2
  /-- `VAL3`, index 0x21, RW -/
  | val3
  /-- `RESULT`, index 0x22, RO -/
  | result
  /-- `TAB_IDX`, index 0x23, RW -/
  | tabIdx
  /-- `TAB_SEL`, index 0x24, RO -/
  | tabSel
  deriving DecidableEq, Repr

/-- The access kinds of R11. -/
inductive Access where
  /-- the host may read and write -/
  | rw
  /-- the host may read; a host write is ignored -/
  | ro
  /-- the host may write; a read returns 0 -/
  | wo
  deriving DecidableEq, Repr

/-- The stored registers (R11). `CMD` is not stored (R13); `STATUS` is `Status`. Each holds 32 bits but `CFG`, of
which only bits 1:0 exist (R16). -/
structure Regs where
  /-- `IN_ADDR` -/
  inAddr : BitVec 32
  /-- `OUT_ADDR` -/
  outAddr : BitVec 32
  /-- `SIZE_ADDR` -/
  sizeAddr : BitVec 32
  /-- `CFG` -/
  cfg : BitVec 2
  /-- `MODE` -/
  mode : BitVec 32
  /-- `IN_RANK` -/
  inRank : BitVec 32
  /-- `IN_DIM0` -/
  inDim0 : BitVec 32
  /-- `IN_DIM1` -/
  inDim1 : BitVec 32
  /-- `IN_DIM2` -/
  inDim2 : BitVec 32
  /-- `IN_DIM3` -/
  inDim3 : BitVec 32
  /-- `SIZE_H` -/
  sizeH : BitVec 32
  /-- `SIZE_W` -/
  sizeW : BitVec 32
  /-- `OUT_H` -/
  outH : BitVec 32
  /-- `OUT_W` -/
  outW : BitVec 32
  /-- `H_SCALE` -/
  hScale : BitVec 32
  /-- `W_SCALE` -/
  wScale : BitVec 32
  /-- `L_SCALE` -/
  lScale : BitVec 32
  /-- `L_COORD` -/
  lCoord : BitVec 32
  /-- `L_OUTSIZE` -/
  lOutSize : BitVec 32
  /-- `L_LIMIT` -/
  lLimit : BitVec 32
  /-- `IDX0` -/
  idx0 : BitVec 32
  /-- `IDX1` -/
  idx1 : BitVec 32
  /-- `IDX2` -/
  idx2 : BitVec 32
  /-- `IDX3` -/
  idx3 : BitVec 32
  /-- `WGT0` -/
  wgt0 : BitVec 32
  /-- `WGT1` -/
  wgt1 : BitVec 32
  /-- `WGT2` -/
  wgt2 : BitVec 32
  /-- `WGT3` -/
  wgt3 : BitVec 32
  /-- `VAL0` -/
  val0 : BitVec 32
  /-- `VAL1` -/
  val1 : BitVec 32
  /-- `VAL2` -/
  val2 : BitVec 32
  /-- `VAL3` -/
  val3 : BitVec 32
  /-- `RESULT` -/
  result : BitVec 32
  /-- `TAB_IDX` -/
  tabIdx : BitVec 32
  /-- `TAB_SEL` -/
  tabSel : BitVec 32
  deriving DecidableEq, Repr

/-- The register file after reset (R11 reset column, R29): all 0 but `SIZE_H = SIZE_W = 0xFFFFFFFF`. -/
def Regs.reset : Regs where
  inAddr := 0
  outAddr := 0
  sizeAddr := 0
  cfg := 0
  mode := 0
  inRank := 0
  inDim0 := 0
  inDim1 := 0
  inDim2 := 0
  inDim3 := 0
  sizeH := 0xFFFFFFFF
  sizeW := 0xFFFFFFFF
  outH := 0
  outW := 0
  hScale := 0
  wScale := 0
  lScale := 0
  lCoord := 0
  lOutSize := 0
  lLimit := 0
  idx0 := 0
  idx1 := 0
  idx2 := 0
  idx3 := 0
  wgt0 := 0
  wgt1 := 0
  wgt2 := 0
  wgt3 := 0
  val0 := 0
  val1 := 0
  val2 := 0
  val3 := 0
  result := 0
  tabIdx := 0
  tabSel := 0

/-- The field `STATUS.STATE` (R14, R67). -/
inductive CmdState where
  /-- no command since reset -/
  | ready
  /-- a command is executing -/
  | busy
  /-- the last command completed without error -/
  | done
  /-- the last command raised an error -/
  | error
  deriving DecidableEq, Repr

/-- The fields of `STATUS` (R14); its reserved bits read as 0 and have no storage (R66). -/
structure Status where
  /-- `STATE` -/
  state : CmdState
  /-- `TAB_VALID0`: `TAB[0]` has been built since reset -/
  tabValid0 : Bool
  /-- `TAB_VALID1`: `TAB[1]` has been built since reset -/
  tabValid1 : Bool
  /-- `ERRCODE` -/
  errCode : BitVec 8
  deriving DecidableEq, Repr

/-- `STATUS` after reset (R29, R161): READY, no table valid, no error. -/
def Status.reset : Status := ⟨.ready, false, false, 0⟩

/-- The causes of an error (R141). -/
inductive ErrCode where
  /-- `ERR_RANK`, 0x01 -/
  | rank
  /-- `ERR_NO_SIZE`, 0x02 -/
  | noSize
  /-- `ERR_OUT_SIZE`, 0x03 -/
  | outSize
  /-- `ERR_BAD_MODE`, 0x04 -/
  | badMode
  /-- `ERR_BAD_DIM`, 0x05 -/
  | badDim
  /-- `ERR_ADDR_RANGE`, 0x06 -/
  | addrRange
  /-- `ERR_OVERLAP`, 0x07 -/
  | overlap
  /-- `ERR_NONFINITE`, 0x08 -/
  | nonFinite
  /-- `ERR_BAD_INDEX`, 0x09 -/
  | badIndex
  /-- `ERR_ILLEGAL_CMD`, 0x0A -/
  | illegalCmd
  deriving DecidableEq, Repr

/-- The coordinate transformation modes (R65). -/
inductive Mode where
  /-- `NONE`, 0 -/
  | none
  /-- `HALF_PIXEL`, 1 -/
  | halfPixel
  /-- `PYTORCH_HALF_PIXEL`, 2 -/
  | pytorchHalfPixel
  deriving DecidableEq, Repr

/-- The two coefficient tables (R23). -/
inductive Table where
  /-- `TAB[0]`, `A = -0.75` -/
  | tab0
  /-- `TAB[1]`, `A = -0.5` -/
  | tab1
  deriving DecidableEq, Repr

/-- What a `RESIZE` or `RUN` has resolved once its checks have passed: the arguments of `ResizeBody` (R116) or of
`IdentityCopy` (R130). -/
structure Job where
  /-- element address of input element 0 -/
  inBase : Nat
  /-- element address of output element 0 -/
  outBase : Nat
  /-- batch -/
  B : Nat
  /-- channels -/
  C : Nat
  /-- input height -/
  ih : Nat
  /-- input width -/
  iw : Nat
  /-- output height -/
  oh : Nat
  /-- output width -/
  ow : Nat
  /-- height scale, F32 bits -/
  hs : Word
  /-- width scale, F32 bits -/
  ws : Word
  mode : Mode
  /-- the identity copy of R130 instead of the driver -/
  copy : Bool
  deriving DecidableEq, Repr

/-- One output element still to be written: an element of the driver (R117), by its coordinates, or of the identity
copy (R130), by its number. -/
inductive Item where
  | pixel (b y x c : Nat)
  | copied (k : Nat)
  deriving DecidableEq, Repr

/-- An axis sample (R9, R26): four clamped source indices and four weights. -/
structure AxisSample where
  idx : Quad Int
  wgt : Quad Word
  deriving DecidableEq, Repr

/-- What a worker holds between fork and join (R10, R26). -/
inductive Worker where
  /-- no element -/
  | idle
  /-- its cursor and the two axis samples of that element (R26 (b)) -/
  | located (b y x c : Nat) (row col : AxisSample)
  /-- and the four x-pass results (R26 (c)) -/
  | passed (b y x c : Nat) (row col : AxisSample) (coeff : Quad Word)
  deriving DecidableEq, Repr

/-- The state of a command after the fork (R116): its job, the output elements not yet written (R26 (d), element by
element), and its workers (R26 (b), (c)). -/
structure Work where
  job : Job
  todo : List Item
  workers : List Worker
  deriving DecidableEq, Repr

/-- The hidden state of a command in progress (R26). -/
structure InFlight where
  /-- the word written to `CMD` -/
  word : Word
  /-- the descriptor copy (R27) -/
  desc : Regs
  /-- the number under which this command's free values are drawn (the model's own, log 4) -/
  tick : Nat
  /-- what is left of a forked `RESIZE` or `RUN` -/
  work : Option Work
  deriving DecidableEq, Repr

/-- One move of one agent: the host's transactions (R60, R71), the reset event (R160), and the block's own
progress on the command in progress (R118, R168). -/
inductive Move where
  /-- `RegWrite(idx, data)` -/
  | regWrite (idx : BitVec 8) (data : Word)
  /-- `RegRead(idx)`; the data goes to `reads` -/
  | regRead (idx : BitVec 8)
  /-- the host stores an element (R71 `MW`) -/
  | memWrite (addr : Word) (value : Word)
  /-- the host loads an element (R71 `MR`); the data goes to `reads` -/
  | memRead (addr : Word)
  /-- the reset event -/
  | reset
  /-- the sequencer validates a `RESIZE` or `RUN`, builds its table and forks (R116 steps 1 to 3) -/
  | fork
  /-- the sequencer copies the `k`-th outstanding element of an identity copy (R130) -/
  | copyElement (k : Nat)
  /-- worker `w` takes the `k`-th outstanding element and computes its axis samples (R117) -/
  | workerTake (w k : Nat)
  /-- worker `w` computes the four x-passes of its element (R107) -/
  | workerPass (w : Nat)
  /-- worker `w` computes the y-pass of its element and writes it (R107, R117) -/
  | workerWrite (w : Nat)
  /-- the block runs the command in progress to its end -/
  | complete
  deriving DecidableEq, Repr

/-- The tensors the host must leave alone until it has read the end of the command (R166), as ranges `[lo, hi)` of element
addresses (log 20). -/
structure Guard where
  /-- the host must not write here: input, size and output tensor -/
  noStore : List (Nat × Nat)
  /-- the host must not read here: output tensor -/
  noLoad : List (Nat × Nat)
  deriving DecidableEq, Repr

/-- No tensor is the block's. -/
def Guard.none : Guard := ⟨[], []⟩

/-- Tensor memory as the bytes something has written (R40, R44): element `a` is bytes `4a .. 4a+3`. -/
abbrev Memory := List Host.Cell

/-- The canonical form: byte addresses strictly rising, all inside the `2^32` elements. A byte that is not listed has
no value of its own (it reads as the free value `Config.powerUpByte`), so no listed byte equals what an unlisted one
holds. -/
abbrev Memory.wf (m : Memory) : Prop :=
  m.Pairwise (fun p q => p.1 < q.1) ∧ ∀ p ∈ m, p.1 < 4 * 2 ^ 32

/-- The whole state. -/
structure State where
  /-- the register file (R11) -/
  regs : Regs
  /-- `STATUS` (R14) -/
  status : Status
  /-- tensor memory (R40) -/
  mem : Memory
  /-- the hidden state of the command in progress (R26); none between commands -/
  inflight : Option InFlight
  /-- the tensors of the commands whose end the host has not read yet (R166, log 20) -/
  guard : Guard
  /-- the parameters (R5), the same in every state of a run -/
  params : Params
  /-- the model's own: the number of the next free value (log 4) -/
  free : Nat
  /-- the model's own: the moves still to come, in order (R60 "transactions are totally ordered"; log 1) -/
  moves : List Move
  /-- the model's own: the data the host's reads returned, newest first (log 1) -/
  reads : List Word
  deriving DecidableEq, Repr

/-- The state right after reset (R29, R161), with the default parameters (R5), nothing written to memory (R163), and
no transaction pending (log 1). -/
def State.reset : State where
  regs := Regs.reset
  status := Status.reset
  mem := []
  inflight := none
  guard := Guard.none
  params := Params.default
  free := 0
  moves := []
  reads := []

/-- Why the machine stops. -/
inductive Fault where
  /-- An access to an element address the platform does not back, or none at all (R41 "has no defined result and a
  model gives it no step", U8 "stuck"). Raised by every command that reads or writes tensor memory and by the host's
  own loads and stores. SAFE: the model stops where the spec gives no step. -/
  | unbacked
  deriving DecidableEq, Repr

/-- Why the machine has no meaning for a move. -/
inductive Refusal where
  /-- An instruction of the table without a meaning. Raised by no arm: every instruction has its meaning. SAFE. -/
  | notModelled (mnemonic : String)
  /-- A host load or store of tensor memory while a command is in progress (R71 "legal only while `STATE != BUSY`",
  R166 "A model gives the host no such move", U7 "refuse"). Raised by the host's memory moves. UNSAFE: D32 says this
  reading errs toward proving if a real host does it (log 14). -/
  | hostMemoryWhileBusy
  /-- A host store to a tensor of a command, or a host load of its output tensor, after the command has ended and before
  the host has read `STATE = DONE` or `ERROR` (R166 "until it reads `STATE = DONE` or `ERROR`", "A model gives the host no
  such move"). Raised by the host's memory moves. UNSAFE, as above (logs 14, 20). -/
  | hostMemoryBeforeRead
  deriving DecidableEq, Repr

end Sys2Proof.Machine
end

