-- ==== Sys2Proof/Machine/Float.lean ====
section
/-! DEFINITION. IEEE 754 binary32 as R7 fixes it: sign at bit 31, exponent at `[30:23]`, fraction at `[22:0]`; every
operation computes the exact value and rounds it once to nearest, ties to even, with gradual underflow and overflow to
infinity; no exception flag. Inside a chain of operations a NaN is one token, `quietNaN`; where a rule's RESULT is a NaN
the pattern is a free value (`resolveNaN`; R7, U5, log 4). -/

namespace Sys2Proof.Machine

/-- The sign bit. -/
def signBit (a : Word) : Bool := a.getLsbD 31

/-- The exponent field `[30:23]`. -/
def expField (a : Word) : Nat := a.toNat / 2 ^ 23 % 256

/-- The fraction field `[22:0]`. -/
def fracField (a : Word) : Nat := a.toNat % 2 ^ 23

/-- A NaN pattern. -/
def isNaN (a : Word) : Bool := expField a == 255 && fracField a != 0

/-- An infinity pattern. -/
def isInf (a : Word) : Bool := expField a == 255 && fracField a == 0

/-- `isFinite(a)` (R7): false for infinities and NaNs. -/
def isFinite (a : Word) : Bool := expField a != 255

/-- The token that stands for a NaN inside a chain of operations. -/
def quietNaN : Word := 0x7FC00000

/-- The real number `(-1)^neg * man * 2^exp`. -/
structure Exact where
  neg : Bool
  man : Nat
  exp : Int
  deriving DecidableEq, Repr

/-- `real(a)` for a finite `a` (R7), keeping the sign of a zero: a subnormal is `frac * 2^-149`, a normal
`(2^23 + frac) * 2^(e - 150)`. -/
def exactOf (a : Word) : Exact :=
  if expField a = 0 then ⟨signBit a, fracField a, -149⟩
  else ⟨signBit a, fracField a + 2 ^ 23, (expField a : Int) - 150⟩

/-- The signed mantissa. -/
def Exact.signedMan (x : Exact) : Int := if x.neg then -(x.man : Int) else x.man

/-- `m / 2^n` to the nearest integer, ties to even. -/
def shiftRightEven (m n : Nat) : Nat :=
  let q := m / 2 ^ n
  let r := 2 * (m % 2 ^ n)
  if 2 ^ n < r ∨ (r = 2 ^ n ∧ q % 2 = 1) then q + 1 else q

/-- The exponent of the last place of the binary32 numbers around `m * 2^e`: 24 significant bits, but never below
`2^-149` (gradual underflow). -/
def quantum (m : Nat) (e : Int) : Int := max ((m.log2 : Int) + e - 23) (-149)

/-- The magnitude bits `[30:0]` of `rnd(m * 2^e)` (R7): the significand in units of the last place, added to the
exponent field (a carry out of the significand moves the exponent up), capped at infinity. -/
def roundMag (m : Nat) (e : Int) : Nat :=
  if m = 0 then 0
  else
    let q := quantum m e
    let sig := if q ≤ e then m * 2 ^ (e - q).toNat else shiftRightEven m (q - e).toNat
    min ((q + 149).toNat * 2 ^ 23 + sig) 0x7F800000

/-- The pattern with the given sign and magnitude bits. -/
def withSign (neg : Bool) (mag : Nat) : Word := BitVec.ofNat 32 ((if neg then 2 ^ 31 else 0) + mag)

/-- `rnd((-1)^neg * m * 2^e)` (R7), a zero result taking the sign `neg`. -/
def roundF (neg : Bool) (m : Nat) (e : Int) : Word := withSign neg (roundMag m e)

/-- Flip the sign bit. -/
def fneg (a : Word) : Word := a ^^^ 0x80000000

/-- `fabs(a)` clears the sign bit (R7). -/
def fabs (a : Word) : Word := a &&& 0x7FFFFFFF

/-- `fadd(a, b)` (R7): an exact zero sum is `-0` only when both addends are negative zeros. -/
def fadd (a b : Word) : Word :=
  if isNaN a || isNaN b then quietNaN
  else if isInf a then (if isInf b && signBit a != signBit b then quietNaN else a)
  else if isInf b then b
  else
    let x := exactOf a
    let y := exactOf b
    let e := min x.exp y.exp
    let n := x.signedMan * 2 ^ (x.exp - e).toNat + y.signedMan * 2 ^ (y.exp - e).toNat
    if n = 0 then withSign (x.neg && y.neg) 0 else roundF (decide (n < 0)) n.natAbs e

/-- `fsub(a, b)` (R7). -/
def fsub (a b : Word) : Word := fadd a (fneg b)

/-- `fmul(a, b)` (R7). -/
def fmul (a b : Word) : Word :=
  let neg := signBit a != signBit b
  if isNaN a || isNaN b then quietNaN
  else if isInf a || isInf b then
    (if fabs a == 0 || fabs b == 0 then quietNaN else withSign neg 0x7F800000)
  else
    let x := exactOf a
    let y := exactOf b
    roundF neg (x.man * y.man) (x.exp + y.exp)

/-- `fdiv(a, b)` (R7). The quotient of the mantissas is taken to 50 more bits and one sticky bit (set when the division
leaves a remainder), which is enough for the one rounding. -/
def fdiv (a b : Word) : Word :=
  let neg := signBit a != signBit b
  if isNaN a || isNaN b then quietNaN
  else if isInf a then (if isInf b then quietNaN else withSign neg 0x7F800000)
  else if isInf b then withSign neg 0
  else
    let x := exactOf a
    let y := exactOf b
    if y.man = 0 then (if x.man = 0 then quietNaN else withSign neg 0x7F800000)
    else
      let n := x.man * 2 ^ 50
      let sticky := if n % y.man = 0 then 0 else 1
      roundF neg (2 * (n / y.man) + sticky) (x.exp - y.exp - 51)

/-- `i2f(n) = rnd(n)` (R7). -/
def i2f (n : Int) : Word := roundF (decide (n < 0)) n.natAbs 0

/-- `floor(real(a))` of a finite `a` (R6, R93). -/
def floorF (a : Word) : Int :=
  let x := exactOf a
  if 0 ≤ x.exp then x.signedMan * 2 ^ x.exp.toNat else x.signedMan / 2 ^ (-x.exp).toNat

/-- `roundInt(a)` of a finite `a` (R93): the nearest integer, an exact half as the tie rule says. -/
def roundInt (tie : TieRule) (a : Word) : Int :=
  let x := exactOf a
  if 0 ≤ x.exp then x.signedMan * 2 ^ x.exp.toNat
  else
    let d : Int := 2 ^ (-x.exp).toNat
    let f := x.signedMan / d
    let r := 2 * (x.signedMan % d)
    if r < d then f
    else if d < r then f + 1
    else
      match tie with
      | .even => if f % 2 = 0 then f else f + 1
      | .away => if 0 ≤ f then f + 1 else f

/-- `fabs(a) > b` for a non-negative finite `b` (R97): magnitudes compare as their bits; false for a NaN. -/
def absAbove (a b : Word) : Bool := !isNaN a && decide (b.toNat < (fabs a).toNat)

/-- Some NaN pattern, any of them: the exponent all ones, the rest from free bits, the fraction not 0 (R7, U5). -/
def someNaN (tick site : Nat) : Word :=
  let b := Config.nanBits tick site ||| 0x7F800000
  if fracField b = 0 then b ||| 0x00400000 else b

/-- `bitsF(v)` of a rule's result (R7): the pattern itself, or some NaN pattern where `v` is a NaN (U5, log 4). -/
def resolveNaN (tick site : Nat) (v : Word) : Word := if isNaN v then someNaN tick site else v

end Sys2Proof.Machine
end

