-- ==== Sys2Proof/Machine/Flags.lean ====
section
/-! DEFINITION. The status word (R14, R67, R141) and its valid bits (R84): the only flags the block has. Floating-point
conditions keep no flag (R7, R142). -/

namespace Sys2Proof.Machine

/-- The value of `STATUS.STATE` (R67). -/
def CmdState.code : CmdState → BitVec 2
  | .ready => 0
  | .busy => 1
  | .done => 2
  | .error => 3

/-- The value of `STATUS.ERRCODE` for a cause (R141). -/
def ErrCode.code : ErrCode → BitVec 8
  | .rank => 0x01
  | .noSize => 0x02
  | .outSize => 0x03
  | .badMode => 0x04
  | .badDim => 0x05
  | .addrRange => 0x06
  | .overlap => 0x07
  | .nonFinite => 0x08
  | .badIndex => 0x09
  | .illegalCmd => 0x0A

/-- The 32 bits a read of `STATUS` returns (R14): `[1:0]` STATE, `[2]`, `[3]` the valid bits, `[7:4]` 0, `[15:8]`
ERRCODE, `[31:16]` 0. -/
def Status.word (st : Status) : Word :=
  (0 : BitVec 16) ++ st.errCode ++ (0 : BitVec 4) ++ BitVec.ofBool st.tabValid1 ++ BitVec.ofBool st.tabValid0 ++
    st.state.code

/-- The valid bit of a table (R23). -/
def Status.valid (st : Status) : Table → Bool
  | .tab0 => st.tabValid0
  | .tab1 => st.tabValid1

/-- Set the valid bit of a table and no other (R84). -/
def Status.setValid (st : Status) : Table → Status
  | .tab0 => { st with tabValid0 := true }
  | .tab1 => { st with tabValid1 := true }

/-- Error entry, the part that `STATUS` takes (R143): `STATE <- ERROR`, `ERRCODE <- code`. -/
def Status.raised (st : Status) (e : ErrCode) : Status := { st with state := .error, errCode := e.code }

/-- Completion, the part that `STATUS` takes (R168): `STATE <- DONE`. -/
def Status.completed (st : Status) : Status := { st with state := .done, errCode := 0 }

/-- Acceptance, the part that `STATUS` takes (R168): `STATE <- BUSY`, `ERRCODE <- 0`. -/
def Status.accepted (st : Status) : Status := { st with state := .busy, errCode := 0 }

end Sys2Proof.Machine
end

