-- ==== Sys2Proof/Machine/Operands.lean ====
section
/-! DEFINITION. Operands (R64): every operand of a command is a register, read through the descriptor copy (R27), as
an unsigned integer, a signed integer, F32 bits, a field of `CFG` (R16) or a mode (R65). -/

namespace Sys2Proof.Machine

/-- `u32(r)` (R6). -/
def u32 (w : Word) : Nat := w.toNat

/-- `s32(r)` (R6). -/
def s32 (w : Word) : Int := w.toInt

/-- `MODE` as a mode (R65); the values above 2 are reserved. -/
def Mode.ofWord (w : Word) : Option Mode :=
  match w.toNat with
  | 0 => some .none
  | 1 => some .halfPixel
  | 2 => some .pytorchHalfPixel
  | _ => Option.none

/-- `CFG.ALIGN_CORNERS` (R16). -/
def Regs.alignCorners (d : Regs) : Bool := d.cfg.getLsbD 0

/-- `CFG.HAS_SIZE_INPUT` (R16). -/
def Regs.hasSizeInput (d : Regs) : Bool := d.cfg.getLsbD 1

/-- The registers a command reads (R27): the descriptor copy; where no command is in progress, the registers
themselves, as if one were accepted now (log 11). -/
def State.operands (s : State) : Regs :=
  match s.inflight with
  | some f => f.desc
  | none => s.regs

/-- The number under which the command's free values are drawn (log 4). -/
def State.tick (s : State) : Nat :=
  match s.inflight with
  | some f => f.tick
  | none => s.free

/-- What is left of a forked command (R26 (d)); none before the fork. -/
def State.work (s : State) : Option Work :=
  match s.inflight with
  | some f => f.work
  | none => none

end Sys2Proof.Machine
end

