-- ==== Sys2Proof/Machine/Ops.lean ====
section
/-! DEFINITION. The named operations over registers, memory and status: the register file (R11, R13, R24, R25), tensor
memory (R40, R41, R44), table construction (R84), acceptance, completion and error entry (R143, R168), reset (R160,
R161). -/

namespace Sys2Proof.Machine

/-- The index of a register (R11). -/
def Reg.index : Reg → BitVec 8
  | .cmd => 0x00
  | .status => 0x01
  | .inAddr => 0x02
  | .outAddr => 0x03
  | .sizeAddr => 0x04
  | .cfg => 0x05
  | .mode => 0x06
  | .inRank => 0x07
  | .inDim0 => 0x08
  | .inDim1 => 0x09
  | .inDim2 => 0x0A
  | .inDim3 => 0x0B
  | .sizeH => 0x0C
  | .sizeW => 0x0D
  | .outH => 0x0E
  | .outW => 0x0F
  | .hScale => 0x10
  | .wScale => 0x11
  | .lScale => 0x12
  | .lCoord => 0x13
  | .lOutSize => 0x14
  | .lLimit => 0x15
  | .idx0 => 0x16
  | .idx1 => 0x17
  | .idx2 => 0x18
  | .idx3 => 0x19
  | .wgt0 => 0x1A
  | .wgt1 => 0x1B
  | .wgt2 => 0x1C
  | .wgt3 => 0x1D
  | .val0 => 0x1E
  | .val1 => 0x1F
  | .val2 => 0x20
  | .val3 => 0x21
  | .result => 0x22
  | .tabIdx => 0x23
  | .tabSel => 0x24

/-- The register an index selects (R11); an index above `0x24` selects none (R24). -/
def Reg.ofIndex (idx : BitVec 8) : Option Reg :=
  match idx.toNat with
  | 0x00 => some .cmd
  | 0x01 => some .status
  | 0x02 => some .inAddr
  | 0x03 => some .outAddr
  | 0x04 => some .sizeAddr
  | 0x05 => some .cfg
  | 0x06 => some .mode
  | 0x07 => some .inRank
  | 0x08 => some .inDim0
  | 0x09 => some .inDim1
  | 0x0A => some .inDim2
  | 0x0B => some .inDim3
  | 0x0C => some .sizeH
  | 0x0D => some .sizeW
  | 0x0E => some .outH
  | 0x0F => some .outW
  | 0x10 => some .hScale
  | 0x11 => some .wScale
  | 0x12 => some .lScale
  | 0x13 => some .lCoord
  | 0x14 => some .lOutSize
  | 0x15 => some .lLimit
  | 0x16 => some .idx0
  | 0x17 => some .idx1
  | 0x18 => some .idx2
  | 0x19 => some .idx3
  | 0x1A => some .wgt0
  | 0x1B => some .wgt1
  | 0x1C => some .wgt2
  | 0x1D => some .wgt3
  | 0x1E => some .val0
  | 0x1F => some .val1
  | 0x20 => some .val2
  | 0x21 => some .val3
  | 0x22 => some .result
  | 0x23 => some .tabIdx
  | 0x24 => some .tabSel
  | _ => none

/-- The access kind of a register (R11). -/
def Reg.access : Reg → Access
  | .cmd => .wo
  | .status => .ro
  | .inAddr => .rw
  | .outAddr => .rw
  | .sizeAddr => .rw
  | .cfg => .rw
  | .mode => .rw
  | .inRank => .rw
  | .inDim0 => .rw
  | .inDim1 => .rw
  | .inDim2 => .rw
  | .inDim3 => .rw
  | .sizeH => .rw
  | .sizeW => .rw
  | .outH => .rw
  | .outW => .rw
  | .hScale => .rw
  | .wScale => .rw
  | .lScale => .rw
  | .lCoord => .rw
  | .lOutSize => .rw
  | .lLimit => .rw
  | .idx0 => .ro
  | .idx1 => .ro
  | .idx2 => .ro
  | .idx3 => .ro
  | .wgt0 => .rw
  | .wgt1 => .rw
  | .wgt2 => .rw
  | .wgt3 => .rw
  | .val0 => .rw
  | .val1 => .rw
  | .val2 => .rw
  | .val3 => .rw
  | .result => .ro
  | .tabIdx => .rw
  | .tabSel => .ro

/-- The 32-bit value of a stored register; reserved bits read as 0 (R16). `CMD` reads 0 (R13); `STATUS` is not stored
here. -/
def Regs.get (r : Regs) : Reg → Word
  | .cmd => 0
  | .status => 0
  | .inAddr => r.inAddr
  | .outAddr => r.outAddr
  | .sizeAddr => r.sizeAddr
  | .cfg => r.cfg.setWidth 32
  | .mode => r.mode
  | .inRank => r.inRank
  | .inDim0 => r.inDim0
  | .inDim1 => r.inDim1
  | .inDim2 => r.inDim2
  | .inDim3 => r.inDim3
  | .sizeH => r.sizeH
  | .sizeW => r.sizeW
  | .outH => r.outH
  | .outW => r.outW
  | .hScale => r.hScale
  | .wScale => r.wScale
  | .lScale => r.lScale
  | .lCoord => r.lCoord
  | .lOutSize => r.lOutSize
  | .lLimit => r.lLimit
  | .idx0 => r.idx0
  | .idx1 => r.idx1
  | .idx2 => r.idx2
  | .idx3 => r.idx3
  | .wgt0 => r.wgt0
  | .wgt1 => r.wgt1
  | .wgt2 => r.wgt2
  | .wgt3 => r.wgt3
  | .val0 => r.val0
  | .val1 => r.val1
  | .val2 => r.val2
  | .val3 => r.val3
  | .result => r.result
  | .tabIdx => r.tabIdx
  | .tabSel => r.tabSel

/-- Store a 32-bit value in a register; reserved bits are dropped (R16). Nothing is stored for `CMD` (R13) and
`STATUS`. -/
def Regs.set (r : Regs) (n : Reg) (v : Word) : Regs :=
  match n with
  | .cmd => r
  | .status => r
  | .inAddr => { r with inAddr := v }
  | .outAddr => { r with outAddr := v }
  | .sizeAddr => { r with sizeAddr := v }
  | .cfg => { r with cfg := v.setWidth 2 }
  | .mode => { r with mode := v }
  | .inRank => { r with inRank := v }
  | .inDim0 => { r with inDim0 := v }
  | .inDim1 => { r with inDim1 := v }
  | .inDim2 => { r with inDim2 := v }
  | .inDim3 => { r with inDim3 := v }
  | .sizeH => { r with sizeH := v }
  | .sizeW => { r with sizeW := v }
  | .outH => { r with outH := v }
  | .outW => { r with outW := v }
  | .hScale => { r with hScale := v }
  | .wScale => { r with wScale := v }
  | .lScale => { r with lScale := v }
  | .lCoord => { r with lCoord := v }
  | .lOutSize => { r with lOutSize := v }
  | .lLimit => { r with lLimit := v }
  | .idx0 => { r with idx0 := v }
  | .idx1 => { r with idx1 := v }
  | .idx2 => { r with idx2 := v }
  | .idx3 => { r with idx3 := v }
  | .wgt0 => { r with wgt0 := v }
  | .wgt1 => { r with wgt1 := v }
  | .wgt2 => { r with wgt2 := v }
  | .wgt3 => { r with wgt3 := v }
  | .val0 => { r with val0 := v }
  | .val1 => { r with val1 := v }
  | .val2 => { r with val2 := v }
  | .val3 => { r with val3 := v }
  | .result => { r with result := v }
  | .tabIdx => { r with tabIdx := v }
  | .tabSel => { r with tabSel := v }

/-- What a host read of a register returns (R11, R13, R14): `CMD` reads 0, `STATUS` its word. -/
def readReg (s : State) (n : Reg) : Word :=
  match n with
  | .status => s.status.word
  | n => s.regs.get n

/-- What a host read of an index returns (R24): 0 above `0x24`. -/
def readIndex (s : State) (idx : BitVec 8) : Word :=
  match Reg.ofIndex idx with
  | some n => readReg s n
  | none => 0

/-- The last byte stored at a byte address, if any. -/
def Memory.lookup : Memory → Nat → Option Byte
  | [], _ => none
  | (b, v) :: m, a => if b = a then some v else Memory.lookup m a

/-- The byte at a byte address; a byte nothing has written reads as a free value (R163, U6, log 5). -/
def Memory.readByte (m : Memory) (a : Nat) : Byte := (m.lookup a).getD (Config.powerUpByte a)

/-- Store a byte, keeping the canonical form. -/
def Memory.writeByte : Memory → Nat → Byte → Memory
  | [], a, v => [(a, v)]
  | (b, x) :: m, a, v =>
    if a < b then (a, v) :: (b, x) :: m
    else if a = b then (a, v) :: m
    else (b, x) :: Memory.writeByte m a v

/-- `MemRead(a, 1)` (R41): the 32-bit element at element address `a`, its bytes least significant first (R44). -/
def Memory.readElem (m : Memory) (a : Nat) : Word :=
  m.readByte (4 * a + 3) ++ m.readByte (4 * a + 2) ++ m.readByte (4 * a + 1) ++ m.readByte (4 * a)

/-- `MemWrite(a, 1, v)` (R41, R44). -/
def Memory.writeElem (m : Memory) (a : Nat) (v : Word) : Memory :=
  (((m.writeByte (4 * a) (v.extractLsb' 0 8)).writeByte (4 * a + 1) (v.extractLsb' 8 8)).writeByte (4 * a + 2)
    (v.extractLsb' 16 8)).writeByte (4 * a + 3) (v.extractLsb' 24 8)

/-- `0 <= a < 2^32` and `MemValid(a)`: an access to `a` is defined (R41). -/
def addrBacked (p : Params) (a : Nat) : Bool :=
  decide (a < 2 ^ 32) && p.holes.all fun h => !(decide (h.1 ≤ a) && decide (a < h.2))

/-- `EnsureTable(t)` (R84): the valid bit goes to 1; the contents of a valid table are the constant `tabEntry` (R23). -/
def ensureTable (t : Table) (s : State) : State := { s with status := s.status.setValid t }

/-- `raise Err(e)` (R143), the one way into the error state, shared by every command: `STATE <- ERROR`,
`ERRCODE <- e`, the hidden state is discarded, nothing else changes. There is no return from it (R146): only
`resetEvent` leaves it. -/
def raise (e : ErrCode) (s : State) : State := { s with status := s.status.raised e, inflight := none }

/-- `STATE <- DONE` (R168): the hidden state is gone (R26). -/
def completed (s : State) : State := { s with status := s.status.completed, inflight := none }

/-- What `ResolveSize` comes to. -/
inductive SizeResult where
  | size (h w : Int)
  | error (e : ErrCode)
  | unbacked
  deriving DecidableEq, Repr

/-- The static size is usable (R19, R127). -/
abbrev Regs.staticSize (d : Regs) : Prop := 0 < s32 d.sizeH ∧ 0 < s32 d.sizeW

/-- `ResolveSize()` (R127) of a descriptor: the static size if both components are positive, else the size tensor
(R43). -/
def Regs.resolveSize (d : Regs) (p : Params) (m : Memory) : SizeResult :=
  let a := u32 d.sizeAddr
  if d.staticSize then .size (s32 d.sizeH) (s32 d.sizeW)
  else if d.hasSizeInput = false then .error .noSize
  else if 2 ^ 32 < a + 2 then .error .addrRange
  else if addrBacked p a && addrBacked p (a + 1) then .size (s32 (m.readElem a)) (s32 (m.readElem (a + 1)))
  else .unbacked

/-- The input tensor of a descriptor (R42): its elements as a range of addresses. -/
def Regs.inputRange (d : Regs) : Nat × Nat :=
  (u32 d.inAddr, u32 d.inAddr + u32 d.inDim0 * u32 d.inDim1 * u32 d.inDim2 * u32 d.inDim3)

/-- The output tensor of a descriptor for an output size (R42); empty where the size is not positive. -/
def Regs.outputRange (d : Regs) (oh ow : Int) : Nat × Nat :=
  (u32 d.outAddr, u32 d.outAddr + u32 d.inDim0 * u32 d.inDim1 * oh.toNat * ow.toNat)

/-- The size tensor (R43), where the command uses one (R127). -/
def Regs.sizeRange (d : Regs) : List (Nat × Nat) :=
  if d.staticSize ∨ d.hasSizeInput = false then [] else [(u32 d.sizeAddr, u32 d.sizeAddr + 2)]

/-- The tensors of a command (R166): those its operands describe when it is accepted. A command that touches no tensor
memory has none (R46), nor has a `RUN` of another rank than 4, which examines no other register (R126); without an output
size there is no output tensor (log 20). -/
def commandTensors (i : Instr) (d : Regs) (p : Params) (m : Memory) : Guard :=
  match i with
  | .gettab => Guard.none
  | .locate => Guard.none
  | .interp => Guard.none
  | .resize =>
    let out := d.outputRange (s32 d.outH) (s32 d.outW)
    ⟨[d.inputRange, out], [out]⟩
  | .run =>
    if u32 d.inRank ≠ 4 then Guard.none
    else
      match d.resolveSize p m with
      | .size oh ow =>
        let out := d.outputRange oh ow
        ⟨d.inputRange :: out :: d.sizeRange, [out]⟩
      | .error _ => ⟨d.inputRange :: d.sizeRange, []⟩
      | .unbacked => ⟨d.inputRange :: d.sizeRange, []⟩

/-- The tensors of a command word (R166); an illegal word has none (R63). -/
def wordTensors (w : Word) (d : Regs) (p : Params) (m : Memory) : Guard :=
  match decode w with
  | .ok i => commandTensors i d p m
  | .error _ => Guard.none

/-- Two guards together. -/
def Guard.add (g h : Guard) : Guard := ⟨g.noStore ++ h.noStore, g.noLoad ++ h.noLoad⟩

/-- The address lies in one of the ranges. -/
def inRanges (rs : List (Nat × Nat)) (a : Nat) : Bool := rs.any fun r => decide (r.1 ≤ a) && decide (a < r.2)

/-- Acceptance of a command word (R13, R27, R168): `STATE <- BUSY`, `ERRCODE <- 0`, the operand registers are copied, and
the tensors are the block's until the host reads the end of the command (R166). -/
def accept (w : Word) (s : State) : State :=
  { s with
    status := s.status.accepted
    guard := s.guard.add (wordTensors w s.regs s.params s.mem)
    inflight := some { word := w, desc := s.regs, tick := s.free, work := none }
    free := s.free + 1 }

/-- The reset event (R160, R161, R163): every register and `STATUS` to its reset value, no command in progress, both
tables invalid; tensor memory is not changed. With the command the host's ban of R166 is gone (log 20). -/
def resetEvent (s : State) : State :=
  { s with regs := Regs.reset, status := Status.reset, inflight := none, guard := Guard.none }

/-- A host write to a register index (R13, R24, R25): `CMD` starts a command in `READY` or `DONE`; a write to any
other register takes effect unless `BUSY`, and only where the register is `RW`. -/
def writeIndex (idx : BitVec 8) (data : Word) (s : State) : State :=
  match Reg.ofIndex idx with
  | none => s
  | some n =>
    match n.access with
    | .wo => if s.status.state = .ready ∨ s.status.state = .done then accept data s else s
    | .ro => s
    | .rw => if s.status.state = .busy then s else { s with regs := s.regs.set n data }

/-- Record the datum a host read returned (R60). -/
def returned (d : Word) (s : State) : State := { s with reads := d :: s.reads }

/-- What a host read of register `n` does to the ban of R166: the read of `STATUS` that shows `DONE` or `ERROR` ends it. -/
def endSeen (n : Reg) (s : State) : State :=
  if n = .status ∧ (s.status.state = .done ∨ s.status.state = .error) then { s with guard := Guard.none } else s

end Sys2Proof.Machine
end

