-- ==== Sys2Proof/Machine/Lut.lean ====
section
/-! DEFINITION. `cubic_convolution_lut`: the coefficient tables (R80 to R84, R86) and the command `GETTAB` (R85). -/

namespace Sys2Proof.Machine

/-- The shape parameter of a table (R23). -/
def Table.shape : Table → Word
  | .tab0 => Config.A0
  | .tab1 => Config.A1

/-- The number of a table, as `TAB_SEL` reports it (R22). -/
def Table.number : Table → Word
  | .tab0 => 0
  | .tab1 => 1

/-- `x = fdiv(i2f(i), i2f(K))` (R81). -/
def tabArg (K i : Nat) : Word := fdiv (i2f i) (i2f K)

/-- Branch 1 at `x` (R81): `(((A+2)*x - (A+3))*x)*x + 1`. -/
def branch1 (A x : Word) : Word :=
  let p := fsub (fmul (fadd A 0x40000000) x) (fadd A 0x40400000)
  fadd (fmul (fmul p x) x) 0x3F800000

/-- Branch 2 at `z = x + 1` (R81): `((A*z - 5A)*z + 8A)*z - 4A`. -/
def branch2 (A x : Word) : Word :=
  let z := fadd x 0x3F800000
  let q := fsub (fmul A z) (fmul 0x40A00000 A)
  let r := fadd (fmul q z) (fmul 0x41000000 A)
  fsub (fmul r z) (fmul 0x40800000 A)

/-- `TGEN(A)` (R81), the whole table: for each `i` in `0 .. K` the pair of branches. -/
def tgen (K : Nat) (A : Word) : List Word :=
  (List.range (K + 1)).flatMap fun i => [branch1 A (tabArg K i), branch2 A (tabArg K i)]

/-- `TAB[t][j]` of a valid table (R23, R82): entry `2i` is branch 1, entry `2i+1` branch 2, at `i/K`. -/
def tabEntry (K : Nat) (t : Table) (j : Nat) : Word :=
  if j % 2 = 0 then branch1 t.shape (tabArg K (j / 2)) else branch2 t.shape (tabArg K (j / 2))

/-- `SEL(mode)` (R83): table 1 for `HALF_PIXEL`, table 0 otherwise. -/
def sel : Mode → Table
  | .none => .tab0
  | .halfPixel => .tab1
  | .pytorchHalfPixel => .tab0

/-- `GETTAB` (R85). -/
def execGettab (s : State) : Host.Outcome State Fault Refusal :=
  let d := s.operands
  match Mode.ofWord d.mode with
  | none => .next (raise .badMode s)
  | some m =>
    if 2 * s.params.K + 1 < u32 d.tabIdx then .next (raise .badIndex s)
    else
      let t := sel m
      let v := resolveNaN s.tick 0 (tabEntry s.params.K t (u32 d.tabIdx))
      .next (completed { ensureTable t s with regs := { s.regs with tabSel := t.number, result := v } })

end Sys2Proof.Machine
end

