-- ==== Sys2Proof/Machine/Locator.lean ====
section
/-! DEFINITION. `sample_locator`: the four clamped source indices and four weights of one output coordinate (R90 to
R98) and the command `LOCATE` (R99). -/

namespace Sys2Proof.Machine

/-- `fsub(fmul(fadd(c, 0.5), scale), 0.5)` (R91). -/
def halfPixelCoord (scale : Word) (coord : Int) : Word :=
  fsub (fmul (fadd (i2f coord) 0x3F000000) scale) 0x3F000000

/-- Step 1, the coordinate mapping (R91). -/
def mapCoord (m : Mode) (scale : Word) (coord outSize : Int) : Word :=
  match m with
  | .none => fmul (i2f coord) scale
  | .halfPixel => halfPixelCoord scale coord
  | .pytorchHalfPixel => if 1 < outSize then halfPixelCoord scale coord else 0

/-- Step 2, the table offset (R93): `frac = in - base`, `offset = roundInt(frac * K)`. -/
def tabOffset (p : Params) (inn : Word) : Int :=
  roundInt p.tie (fmul (fsub inn (i2f (floorF inn))) (i2f p.K))

/-- `clamp(v, limit)` (R6, R94). -/
def clamp (v limit : Int) : Int := min (limit - 1) (max 0 v)

/-- The unclamped tap positions `base - 1 + k` (R94). -/
def tapPos (base : Int) : Quad Int := ⟨base - 1, base, base + 1, base + 2⟩

/-- The nominal weights (R95). -/
def rawWeights (K : Nat) (t : Table) (o : Int) : Quad Word :=
  ⟨tabEntry K t (2 * o + 1).toNat, tabEntry K t (2 * o).toNat, tabEntry K t (2 * (K - o)).toNat,
    tabEntry K t (2 * (K - o) + 1).toNat⟩

/-- `((w0 + w1) + w2) + w3` (R97). -/
def weightSum (w : Quad Word) : Word := fadd (fadd (fadd w.q0 w.q1) w.q2) w.q3

/-- The renormalisation (R97): rescale by the rounded reciprocal of the sum where the sum is above `THRESH`. -/
def renormalise (w : Quad Word) : Quad Word :=
  let sum := weightSum w
  if absAbove sum Config.THRESH then
    let inv := fdiv 0x3F800000 sum
    w.map fun v => fmul v inv
  else w

/-- The weights of `HALF_PIXEL` before the renormalisation (R97): a clamped tap gets `+0.0`. -/
def unclampedOnly (pos idx : Quad Int) (raw : Quad Word) : Quad Word :=
  (pos.zipWith (fun p i => decide (i = p)) idx).zipWith (fun kept v => if kept then v else 0) raw

/-- Steps 2 to 4 on a finite coordinate (R93 to R97). -/
def sampleAt (p : Params) (m : Mode) (inn : Word) (limit : Int) : AxisSample :=
  let pos := tapPos (floorF inn)
  let idx := pos.map fun v => clamp v limit
  let raw := rawWeights p.K (sel m) (tabOffset p inn)
  match m with
  | .halfPixel => ⟨idx, renormalise (unclampedOnly pos idx raw)⟩
  | .none => ⟨idx, raw⟩
  | .pytorchHalfPixel => ⟨idx, raw⟩

/-- `Locate(scale, mode, out_coord, out_size, axis_limit)` (R90) for a coordinate that R92 does not reject. -/
def locate (p : Params) (scale : Word) (m : Mode) (coord outSize limit : Int) : AxisSample :=
  sampleAt p m (mapCoord m scale coord outSize) limit

/-- `LOCATE` (R99). -/
def execLocate (s : State) : Host.Outcome State Fault Refusal :=
  let d := s.operands
  match Mode.ofWord d.mode with
  | none => .next (raise .badMode s)
  | some m =>
    if s32 d.lLimit < 1 then .next (raise .badDim s)
    else if isFinite (mapCoord m d.lScale (s32 d.lCoord) (s32 d.lOutSize)) then
      let a := locate s.params d.lScale m (s32 d.lCoord) (s32 d.lOutSize) (s32 d.lLimit)
      .next (completed { ensureTable (sel m) s with
        regs := { s.regs with
          idx0 := BitVec.ofInt 32 a.idx.q0
          idx1 := BitVec.ofInt 32 a.idx.q1
          idx2 := BitVec.ofInt 32 a.idx.q2
          idx3 := BitVec.ofInt 32 a.idx.q3
          wgt0 := resolveNaN s.tick 0 a.wgt.q0
          wgt1 := resolveNaN s.tick 1 a.wgt.q1
          wgt2 := resolveNaN s.tick 2 a.wgt.q2
          wgt3 := resolveNaN s.tick 3 a.wgt.q3 } })
    else .next (raise .nonFinite s)

end Sys2Proof.Machine
end

