-- ==== Sys2Proof/Machine/Interpolator.lean ====
section
/-! DEFINITION. `separable_interpolator`: the four-term dot product (R105), the 4+1 pass of one output element (R107,
R108) and the command `INTERP` (R106). -/

namespace Sys2Proof.Machine

/-- `Interp1D(w, v)` (R105): `((v0*w0 + v1*w1) + v2*w2) + v3*w3`, nothing fused. -/
def interp1D (w v : Quad Word) : Word :=
  fadd (fadd (fadd (fmul v.q0 w.q0) (fmul v.q1 w.q1)) (fmul v.q2 w.q2)) (fmul v.q3 w.q3)

/-- `ElemAddr(base, C, H, W, b, c, y, x)` (R42). -/
def elemAddr (base C H W b c y x : Nat) : Nat := base + ((b * C + c) * H + y) * W + x

/-- The four x-passes of an output element (R107), one for each row tap, with the column-axis weights; `rd` reads an
input element by its address. -/
def xPasses (rd : Nat → Word) (inBase C ih iw b c : Nat) (row col : AxisSample) : Quad Word :=
  row.idx.map fun yi =>
    interp1D col.wgt (col.idx.map fun xj => rd (elemAddr inBase C ih iw b c yi.toNat xj.toNat))

/-- `Pixel` (R107): the four x-passes, then the y-pass with the row-axis weights. -/
def pixelAt (rd : Nat → Word) (inBase C ih iw b c : Nat) (row col : AxisSample) : Word :=
  interp1D row.wgt (xPasses rd inBase C ih iw b c row col)

/-- The 16 input addresses `Pixel` reads (R107). -/
def pixelReads (inBase C ih iw b c : Nat) (row col : Quad Int) : List Nat :=
  row.toList.flatMap fun yi => col.toList.map fun xj => elemAddr inBase C ih iw b c yi.toNat xj.toNat

/-- `INTERP` (R106). -/
def execInterp (s : State) : Host.Outcome State Fault Refusal :=
  let d := s.operands
  let v := interp1D ⟨d.wgt0, d.wgt1, d.wgt2, d.wgt3⟩ ⟨d.val0, d.val1, d.val2, d.val3⟩
  .next (completed { s with regs := { s.regs with result := resolveNaN s.tick 0 v } })

end Sys2Proof.Machine
end

