-- ==== Sys2Proof/Machine/Resampler.lean ====
section
/-! DEFINITION. `image_resampler`: the geometry check (R115), the resize body with its fork, its output elements and its
join (R116 to R121), and the command `RESIZE` (R114). The identity copy's elements (R130) stand here beside the driver's,
since both are written by the same operations. -/

namespace Sys2Proof.Machine

/-- What the checks of a `RESIZE` or `RUN` come to. -/
inductive Plan where
  /-- every check passes -/
  | job (j : Job)
  /-- the first check that fails (R145) -/
  | error (e : ErrCode)
  /-- an element read before the checks are over is not backed (R41) -/
  | unbacked
  deriving DecidableEq, Repr

/-- The number of input elements `N_in` (R48). -/
def Job.nIn (j : Job) : Nat := j.B * j.C * j.ih * j.iw

/-- The number of output elements `N_out` (R48). -/
def Job.nOut (j : Job) : Nat := j.B * j.C * j.oh * j.ow

/-- `CheckGeometry` (R115, R48, R49): the error, if any. -/
def checkGeometry (j : Job) : Option ErrCode :=
  if 2 ^ 32 < j.inBase + j.nIn ∨ 2 ^ 32 < j.outBase + j.nOut then some .addrRange
  else if j.inBase < j.outBase + j.nOut ∧ j.outBase < j.inBase + j.nIn then some .overlap
  else none

/-- Step (1) of `ResizeBody` (R116): every coordinate the command will use is finite. -/
def coordsFinite (j : Job) : Bool :=
  ((List.range j.oh).all fun y => isFinite (mapCoord j.mode j.hs y j.oh)) &&
    (List.range j.ow).all fun x => isFinite (mapCoord j.mode j.ws x j.ow)

/-- The row-axis sample of output row `y` (R117). -/
def rowSample (p : Params) (j : Job) (y : Nat) : AxisSample := locate p j.hs j.mode y j.oh j.ih

/-- The column-axis sample of output column `x` (R117). -/
def colSample (p : Params) (j : Job) (x : Nat) : AxisSample := locate p j.ws j.mode x j.ow j.iw

/-- `RowTask(b, y)` (R117): its output elements, columns outer, channels inner. -/
def rowTask (j : Job) (b y : Nat) : List Item :=
  (List.range j.ow).flatMap fun x => (List.range j.C).map fun c => .pixel b y x c

/-- The output elements of a job in the sequential order `b`, `y`, `x`, `c` (R118, R119); of the identity copy, in
address order (R130). -/
def Job.order (j : Job) : List Item :=
  if j.copy then (List.range j.nOut).map .copied
  else (List.range j.B).flatMap fun b => (List.range j.oh).flatMap fun y => rowTask j b y

/-- The address an output element is stored at (R117, R130). -/
def Item.addr (j : Job) : Item → Nat
  | .pixel b y x c => elemAddr j.outBase j.C j.oh j.ow b c y x
  | .copied k => j.outBase + k

/-- The input addresses an output element is computed from (R107, R130). -/
def Item.reads (p : Params) (j : Job) : Item → List Nat
  | .pixel b y x c => pixelReads j.inBase j.C j.ih j.iw b c (rowSample p j y).idx (colSample p j x).idx
  | .copied k => [j.inBase + k]

/-- The pattern a driver's output element gets from its dot product `v` (R117 `bitsF(v)`): a NaN result is some NaN,
drawn under the command's number and the element's place in the output tensor (log 4). -/
def elementBits (j : Job) (tick b y x c : Nat) (v : Word) : Word :=
  resolveNaN tick (elemAddr 0 j.C j.oh j.ow b c y x) v

/-- The pattern an output element gets (R117): `bitsF(Pixel(...))`, or the input pattern itself for the identity copy
(R130). -/
def Item.value (p : Params) (j : Job) (tick : Nat) (m : Memory) : Item → Word
  | .pixel b y x c =>
    elementBits j tick b y x c
      (pixelAt m.readElem j.inBase j.C j.ih j.iw b c (rowSample p j y) (colSample p j x))
  | .copied k => m.readElem (j.inBase + k)

/-- Every address the element needs is backed (R41). -/
def Item.backed (p : Params) (j : Job) (it : Item) : Bool :=
  (it.reads p j).all (addrBacked p) && addrBacked p (it.addr j)

/-- Memory after an output element has been computed and written (R117, R130). -/
def writeItem (p : Params) (j : Job) (tick : Nat) (m : Memory) (it : Item) : Memory :=
  m.writeElem (it.addr j) (it.value p j tick m)

/-- Write output elements one after another. -/
def writeItems (p : Params) (j : Job) (tick : Nat) (todo : List Item) (m : Memory) : Memory :=
  todo.foldl (writeItem p j tick) m

/-- The fork (R116 steps 2 and 3): the one table the mode needs is built by the sequencer (R121; none for the identity
copy, R130), every output element is outstanding, and the `NW` workers are idle. -/
def forkJob (j : Job) (s : State) : State :=
  { s with
    status := (if j.copy then s else ensureTable (sel j.mode) s).status
    inflight := some {
      word := (s.inflight.map (·.word)).getD 0
      desc := s.operands
      tick := s.tick
      work := some ⟨j, j.order, List.replicate s.params.nw .idle⟩ } }

/-- The outstanding elements are written and the command ends with `join` (R120); an access that is not backed has no
step (R41). -/
def finishWork (j : Job) (todo : List Item) (join : Job → State → State) (s : State) :
    Host.Outcome State Fault Refusal :=
  if todo.all (Item.backed s.params j) then
    .next (join j { s with mem := writeItems s.params j s.tick todo s.mem })
  else .fault .unbacked

/-- A `RESIZE` or `RUN` from where it stands to its end: from its checks, or from the elements still outstanding when it
has forked already (log 3). -/
def runPlan (plan : State → Plan) (join : Job → State → State) (s : State) : Host.Outcome State Fault Refusal :=
  match s.work with
  | some w => finishWork w.job w.todo join s
  | none =>
    match plan s with
    | .error e => .next (raise e s)
    | .unbacked => .fault .unbacked
    | .job j => finishWork j j.order join (forkJob j s)

/-- The checks that end every `RESIZE` and `RUN` (R114, R116 step 1, R133 steps 6 and 8): geometry, then finiteness of
the coordinates where the driver will run. -/
def checkJob (j : Job) : Plan :=
  match checkGeometry j with
  | some e => .error e
  | none => if j.copy || coordsFinite j then .job j else .error .nonFinite

/-- The arguments `RESIZE` hands to the driver (R114): its registers, in a mode `MODE` stands for. -/
def resizeJob (d : Regs) (m : Mode) : Job where
  inBase := u32 d.inAddr
  outBase := u32 d.outAddr
  B := u32 d.inDim0
  C := u32 d.inDim1
  ih := u32 d.inDim2
  iw := u32 d.inDim3
  oh := (s32 d.outH).toNat
  ow := (s32 d.outW).toNat
  hs := d.hScale
  ws := d.wScale
  mode := m
  copy := false

/-- One of the four input dimensions is 0 (R141 `ERR_BAD_DIM`). -/
abbrev badDims (d : Regs) : Prop := u32 d.inDim0 = 0 ∨ u32 d.inDim1 = 0 ∨ u32 d.inDim2 = 0 ∨ u32 d.inDim3 = 0

/-- The checks of `RESIZE` (R114), in its order. -/
def planResize (s : State) : Plan :=
  let d := s.operands
  if s32 d.outH < 1 ∨ s32 d.outW < 1 then .error .outSize
  else
    match Mode.ofWord d.mode with
    | none => .error .badMode
    | some m =>
      if badDims d then .error .badDim else checkJob (resizeJob d m)

/-- The end of `RESIZE` (R114): it writes no register but `STATUS`. -/
def joinResize (_ : Job) (s : State) : State := completed s

/-- `RESIZE` (R114). -/
def execResize (s : State) : Host.Outcome State Fault Refusal := runPlan planResize joinResize s

end Sys2Proof.Machine
end

