-- ==== Sys2Proof/Machine/Scaler.lean ====
section
/-! DEFINITION. `bicubic_scaler`, the top level: size resolution (R127), scale factors (R129), identity copy (R130),
result registers (R132) and the command `RUN` (R133). -/

namespace Sys2Proof.Machine

/-- `Scale(in_size, out_size, align)` (R129). -/
def scale (inSize outSize : Int) (align : Bool) : Word :=
  if align = true ∧ 1 < inSize ∧ 1 < outSize then fdiv (i2f (inSize - 1)) (i2f (outSize - 1))
  else fdiv (i2f inSize) (i2f outSize)

/-- `ResolveSize()` (R127) of the command in progress. -/
def resolveSize (s : State) : SizeResult := s.operands.resolveSize s.params s.mem

/-- The arguments `RUN` hands to the driver or the identity copy (R133 steps 5 to 8), for a resolved output size: the
scales of R129, and the copy exactly where both output lengths are the input's (R130). -/
def runJob (d : Regs) (m : Mode) (oh ow : Int) : Job where
  inBase := u32 d.inAddr
  outBase := u32 d.outAddr
  B := u32 d.inDim0
  C := u32 d.inDim1
  ih := u32 d.inDim2
  iw := u32 d.inDim3
  oh := oh.toNat
  ow := ow.toNat
  hs := scale (u32 d.inDim2) oh d.alignCorners
  ws := scale (u32 d.inDim3) ow d.alignCorners
  mode := m
  copy := decide (oh = u32 d.inDim2 ∧ ow = u32 d.inDim3)

/-- The checks of `RUN` (R133 steps 1 to 8), in its order. -/
def planRun (s : State) : Plan :=
  let d := s.operands
  if u32 d.inRank ≠ 4 then .error .rank
  else
    match resolveSize s with
    | .error e => .error e
    | .unbacked => .unbacked
    | .size oh ow =>
      if oh < 1 ∨ ow < 1 then .error .outSize
      else
        match Mode.ofWord d.mode with
        | none => .error .badMode
        | some m =>
          if badDims d then .error .badDim else checkJob (runJob d m oh ow)

/-- The end of `RUN` (R132, R133 steps 9 and 10): the result registers, then `DONE`. -/
def joinRun (j : Job) (s : State) : State :=
  completed { s with
    regs := { s.regs with
      outH := BitVec.ofNat 32 j.oh
      outW := BitVec.ofNat 32 j.ow
      hScale := j.hs
      wScale := j.ws } }

/-- `RUN` (R133). -/
def execRun (s : State) : Host.Outcome State Fault Refusal := runPlan planRun joinRun s

end Sys2Proof.Machine
end

