-- ==== Sys2Proof/Machine/Dispatch.lean ====
section
/-! DEFINITION. One arm per command. -/

namespace Sys2Proof.Machine

def exec (i : Instr) (s : State) : Host.Outcome State Fault Refusal :=
  match i with
  | .gettab => Sys2Proof.Machine.execGettab s
  | .locate => Sys2Proof.Machine.execLocate s
  | .interp => Sys2Proof.Machine.execInterp s
  | .resize => Sys2Proof.Machine.execResize s
  | .run => Sys2Proof.Machine.execRun s

end Sys2Proof.Machine
end

