-- ==== Sys2Proof/Machine/Moves.lean ====
section
/-! DEFINITION. The moves of the agents: the host's transactions (R60, R71), the reset event (R160), and the block's own
progress on the command in progress (R116, R118, R168). A move that its agent cannot make leaves the state as it is
(log 9). -/

namespace Sys2Proof.Machine

/-- The checks of the commands that fork (R116, R133); the other commands have no intermediate state. -/
def forkPlan : Instr → Option (State → Plan)
  | .gettab => none
  | .locate => none
  | .interp => none
  | .resize => some planResize
  | .run => some planRun

/-- The sequencer makes the checks of a `RESIZE` or `RUN` in progress and forks (R116). -/
def forkMove (s : State) : Host.Outcome State Fault Refusal :=
  match s.inflight with
  | none => .next s
  | some f =>
    match f.work, decode f.word with
    | none, .ok i =>
      match forkPlan i with
      | none => .next s
      | some plan =>
        match plan s with
        | .error e => .next (raise e s)
        | .unbacked => .fault .unbacked
        | .job j => .next (forkJob j s)
    | _, _ => .next s

/-- A move inside a forked command: `act` on its hidden state; nothing where no command has forked. -/
def forkedMove (act : InFlight → Work → Host.Outcome State Fault Refusal) (s : State) :
    Host.Outcome State Fault Refusal :=
  match s.inflight with
  | none => .next s
  | some f =>
    match f.work with
    | none => .next s
    | some w => act f w

/-- The state with the forked command's work replaced. -/
def withWork (f : InFlight) (w : Work) (s : State) : State := { s with inflight := some { f with work := some w } }

/-- The sequencer copies one outstanding element of an identity copy, any of them (R130). -/
def copyMove (k : Nat) (s : State) : Host.Outcome State Fault Refusal :=
  forkedMove (fun f w =>
    match w.todo[k]? with
    | some (.copied n) =>
      if (Item.copied n).backed s.params w.job then
        .next (withWork f { w with todo := w.todo.eraseIdx k }
          { s with mem := writeItem s.params w.job f.tick s.mem (.copied n) })
      else .fault .unbacked
    | _ => .next s) s

/-- The element a worker holds, if any. -/
def Worker.holds : Worker → Option Item
  | .idle => none
  | .located b y x c _ _ => some (.pixel b y x c)
  | .passed b y x c _ _ _ => some (.pixel b y x c)

/-- An idle worker takes an outstanding element that no worker holds, any of them (R50, R118), and computes its two axis
samples (R117). -/
def takeMove (n k : Nat) (s : State) : Host.Outcome State Fault Refusal :=
  forkedMove (fun f w =>
    match w.workers[n]?, w.todo[k]? with
    | some .idle, some (.pixel b y x c) =>
      if w.workers.any (fun v => v.holds == some (.pixel b y x c)) then .next s
      else
        let held := Worker.located b y x c (rowSample s.params w.job y) (colSample s.params w.job x)
        .next (withWork f { w with workers := w.workers.set n held } s)
    | _, _ => .next s) s

/-- A worker computes the four x-passes of its element (R107). -/
def passMove (n : Nat) (s : State) : Host.Outcome State Fault Refusal :=
  forkedMove (fun f w =>
    match w.workers[n]? with
    | some (.located b y x c row col) =>
      let j := w.job
      if (pixelReads j.inBase j.C j.ih j.iw b c row.idx col.idx).all (addrBacked s.params) then
        let coeff := xPasses s.mem.readElem j.inBase j.C j.ih j.iw b c row col
        .next (withWork f { w with workers := w.workers.set n (.passed b y x c row col coeff) } s)
      else .fault .unbacked
    | _ => .next s) s

/-- A worker computes the y-pass of its element and writes it (R107, R117); the element is no longer outstanding and the
worker is idle. -/
def writeMove (n : Nat) (s : State) : Host.Outcome State Fault Refusal :=
  forkedMove (fun f w =>
    match w.workers[n]? with
    | some (.passed b y x c row _ coeff) =>
      let it := Item.pixel b y x c
      if addrBacked s.params (it.addr w.job) then
        let v := elementBits w.job f.tick b y x c (interp1D row.wgt coeff)
        .next (withWork f { w with todo := w.todo.erase it, workers := w.workers.set n .idle }
          { s with mem := s.mem.writeElem (it.addr w.job) v })
      else .fault .unbacked
    | _ => .next s) s

/-- The command in progress runs to its end: a word that selects a command executes it, any other ends in `ERROR` with
`ERR_ILLEGAL_CMD` (R62, R63). Between commands nothing advances (R12). -/
def completeMove (s : State) : Host.Outcome State Fault Refusal :=
  match s.inflight with
  | none => .next s
  | some f =>
    match decode f.word with
    | .ok i => exec i s
    | .error _ => .next (raise .illegalCmd s)

/-- The result registers of a command (R62), `STATUS` apart. -/
def resultRegs : Instr → List Reg
  | .gettab => [.tabSel, .result]
  | .locate => [.idx0, .idx1, .idx2, .idx3, .wgt0, .wgt1, .wgt2, .wgt3]
  | .interp => [.result]
  | .resize => []
  | .run => [.outH, .outW, .hScale, .wScale]

/-- The value a register will have when the command in progress has ended; where that has no step, the value it has. -/
def futureReg (s : State) (n : Reg) : Word :=
  match completeMove s with
  | .next t => readReg t n
  | .fault _ => readReg s n
  | .refused _ => readReg s n

/-- A register the command in progress will write (R167). -/
def racing (s : State) (n : Reg) : Bool :=
  match s.inflight with
  | none => false
  | some f =>
    match decode f.word with
    | .ok i => (resultRegs i).contains n
    | .error _ => false

/-- `RegRead(idx)` (R60, R24). While a command is in progress a register it writes may read as its old or its new value
(R167, U14): which one is free (log 6). A read of `STATUS` that shows the end of the command ends the ban of R166. -/
def regReadMove (idx : BitVec 8) (s : State) : State :=
  match Reg.ofIndex idx with
  | none => returned 0 s
  | some n =>
    if racing s n then
      returned (if Config.busyReadsNew s.free idx.toNat then futureReg s n else readReg s n) { s with free := s.free + 1 }
    else returned (readReg s n) (endSeen n s)

/-- The host stores an element (R71 `MW`): legal only while `STATE` is not `BUSY`, and not to a tensor of a command whose end
the host has not read (R166). -/
def memWriteMove (a v : Word) (s : State) : Host.Outcome State Fault Refusal :=
  if s.status.state = .busy then .refused .hostMemoryWhileBusy
  else if addrBacked s.params (u32 a) = false then .fault .unbacked
  else if inRanges s.guard.noStore (u32 a) then .refused .hostMemoryBeforeRead
  else .next { s with mem := s.mem.writeElem (u32 a) v }

/-- The host loads an element (R71 `MR`): legal only while `STATE` is not `BUSY`, and not of an output tensor of a command
whose end the host has not read (R166). -/
def memReadMove (a : Word) (s : State) : Host.Outcome State Fault Refusal :=
  if s.status.state = .busy then .refused .hostMemoryWhileBusy
  else if addrBacked s.params (u32 a) = false then .fault .unbacked
  else if inRanges s.guard.noLoad (u32 a) then .refused .hostMemoryBeforeRead
  else .next (returned (s.mem.readElem (u32 a)) s)

/-- One move. -/
def perform (m : Move) (s : State) : Host.Outcome State Fault Refusal :=
  match m with
  | .regWrite idx data => .next (writeIndex idx data s)
  | .regRead idx => .next (regReadMove idx s)
  | .memWrite a v => memWriteMove a v s
  | .memRead a => memReadMove a s
  | .reset => .next (resetEvent s)
  | .fork => forkMove s
  | .copyElement k => copyMove k s
  | .workerTake n k => takeMove n k s
  | .workerPass n => passMove n s
  | .workerWrite n => writeMove n s
  | .complete => completeMove s

/-- The next move is made. When none is listed, the command in progress, if there is one, runs to its end (R170), and
otherwise the block waits (R12, R161). -/
def nextMove (s : State) : Host.Outcome State Fault Refusal :=
  match s.moves with
  | [] => completeMove s
  | m :: ms => perform m { s with moves := ms }

/-- The state in which the command word `w` has just been accepted and the block's own move is next: what the host's
write of `w` to `CMD` leads to (R13, R168; log 12). -/
def presentWord (w : Word) (s : State) : State := { accept w s with moves := .complete :: s.moves }

end Sys2Proof.Machine
end

