-- ==== Sys2Proof/Machine/Step.lean ====
section
/-! DEFINITION. The step of the machine, and how the host of this package places a command word. -/

namespace Sys2Proof.Machine

/-- One step: the next move of the one agent whose turn it is. -/
def step (s : State) : Host.Outcome State Fault Refusal := nextMove s

/-- The command word of `nbits` bits of `w` has been written to `CMD` and accepted, so that the very next step executes
it (log 12). -/
def State.withFetchWord (s : State) (nbits w : Nat) : State := presentWord (fetchedWord nbits w) s

end Sys2Proof.Machine
end

