-- ==== Sys2Proof/Safety.lean ====
section
/-! DEFINITION. What a good state is and what a safe run is: the invariant that every step keeps, a platform that backs
every address, and a run that never stops. -/

namespace Sys2Proof.Machine

/-- The platform backs every element address (R5, the default `MemValid`). -/
def allBacked (p : Params) : Prop := p.holes = []

/-- A job whose checks have passed (R114, R115, R116, R133): no dimension is 0, input and output are inside the address
space and disjoint, every coordinate is finite where the driver runs, and an identity copy has equal sizes. -/
structure JobOk (j : Job) : Prop where
  inDims : 0 < j.B ∧ 0 < j.C ∧ 0 < j.ih ∧ 0 < j.iw
  outDims : 0 < j.oh ∧ 0 < j.ow
  geometry : checkGeometry j = none
  finite : j.copy = true ∨ coordsFinite j = true
  copySize : j.copy = true → j.oh = j.ih ∧ j.ow = j.iw

/-- What a worker holds is an outstanding element, its axis samples, and the x-passes memory gives (R26, R107). -/
def WorkerOk (p : Params) (w : Work) (m : Memory) : Worker → Prop
  | .idle => True
  | .located b y x c row col =>
    Item.pixel b y x c ∈ w.todo ∧ row = rowSample p w.job y ∧ col = colSample p w.job x
  | .passed b y x c row col coeff =>
    Item.pixel b y x c ∈ w.todo ∧ row = rowSample p w.job y ∧ col = colSample p w.job x ∧
      coeff = xPasses m.readElem w.job.inBase w.job.C w.job.ih w.job.iw b c row col

/-- A forked command in good order (R116 to R121): it is a `RESIZE` or a `RUN`, its checks have passed, what is
outstanding is part of its output, its one table is valid, no two workers hold one element, and the host is banned from
its tensors (R166). -/
structure WorkOk (s : State) (f : InFlight) (w : Work) : Prop where
  command : decode f.word = .ok .resize ∧ w.job.copy = false ∨ decode f.word = .ok .run
  job : JobOk w.job
  todo : w.todo.Sublist w.job.order
  table : w.job.copy = false → s.status.valid (sel w.job.mode) = true
  pool : w.workers.length = s.params.nw
  held : ∀ v ∈ w.workers, WorkerOk s.params w s.mem v
  alone : (w.workers.filterMap Worker.holds).Nodup
  inGuard : (w.job.inBase, w.job.inBase + w.job.nIn) ∈ s.guard.noStore
  outGuard : (w.job.outBase, w.job.outBase + w.job.nOut) ∈ s.guard.noStore ∧
    (w.job.outBase, w.job.outBase + w.job.nOut) ∈ s.guard.noLoad

/-- The invariant of every state: memory is in canonical form; a command is in progress exactly when `STATE` is `BUSY`
(R168); `ERRCODE` is 0 exactly outside `ERROR` and never a reserved code (R14, R141); `TAB_SEL` is 0 or 1 (R22); the
descriptor copy is the register file, which nothing changes while `BUSY` (R25, R27); the free values of a command are
numbered below the next one; a forked command is in good order; the host is banned from the tensors of a command that has
not forked yet, and from none right after reset (R166). -/
structure GoodState (s : State) : Prop where
  memory : s.mem.wf
  busy : s.status.state = .busy ↔ s.inflight.isSome = true
  errored : s.status.state = .error ↔ s.status.errCode ≠ 0
  errCode : s.status.errCode.toNat ≤ 0x0A
  tabSel : s.regs.tabSel.toNat ≤ 1
  desc : ∀ f, s.inflight = some f → f.desc = s.regs
  tick : ∀ f, s.inflight = some f → f.tick < s.free
  work : ∀ f w, s.inflight = some f → f.work = some w → WorkOk s f w
  guard : ∀ f, s.inflight = some f → f.work = none →
    (wordTensors f.word f.desc s.params s.mem).noStore ⊆ s.guard.noStore ∧
      (wordTensors f.word f.desc s.params s.mem).noLoad ⊆ s.guard.noLoad
  unguarded : s.status.state = .ready → s.guard = Guard.none

/-- A move of the block inside a command: the fork and what the sequencer and the workers do after it. -/
def Move.inner : Move → Bool
  | .regWrite _ _ => false
  | .regRead _ => false
  | .memWrite _ _ => false
  | .memRead _ => false
  | .reset => false
  | .fork => true
  | .copyElement _ => true
  | .workerTake _ _ => true
  | .workerPass _ => true
  | .workerWrite _ => true
  | .complete => false

/-- The rational number an exact value stands for (R7 `real(v)`). -/
def Exact.val (x : Exact) : ℚ := (x.signedMan : ℚ) * (2 : ℚ) ^ x.exp

/-- `real(a)` of a finite pattern (R7). -/
def realOf (a : Word) : ℚ := (exactOf a).val

/-- The pattern `r` is the one rounding of the number `x` (R7 `rnd`): finite exactly below the overflow bound, otherwise the
infinity of the sign of `x` (the sign is IEEE 754's, log 18); where finite, no finite pattern is nearer to `x`, and of two
equally near numbers it is the one with an even last bit. -/
def RoundsTo (r : Word) (x : ℚ) : Prop :=
  (isFinite r = true ↔ |x| < (2 ^ 25 - 1) * 2 ^ 103) ∧
    (isFinite r = false → (0 < x → r = 0x7F800000) ∧ (x < 0 → r = 0xFF800000)) ∧
    ∀ w : Word, isFinite r = true → isFinite w = true →
      |realOf r - x| ≤ |realOf w - x| ∧
        (|realOf r - x| = |realOf w - x| → realOf w ≠ realOf r → r.toNat % 2 = 0)

/-- A step from `s` does not stop the machine. -/
def Goes (s : State) : Prop := ∃ t, step s = .next t

/-- A safe run of `n` steps: no step of it stops the machine. -/
def SafeFor (n : Nat) (s : State) : Prop := ∃ t, Host.Core.run Sys2Proof.core n s = .next t

end Sys2Proof.Machine
end

