-- ==== Sys2Proof/Certificates/Slice0/Obligations.lean ====
section
/-! DEFINITION. The statements for the provers: what spec/ says of the block, about the model. -/

open Sys2Proof Sys2Proof.Machine

/-! ### Encoding -/

/-- The five command words of R62's table and the illegal words of the vectors X2 to X4, read by the decoder. -/
def Obligations.CommandWordsDecode : Prop :=
  decode 0x00000001 = .ok .gettab ∧ decode 0x00000002 = .ok .locate ∧ decode 0x00000003 = .ok .interp ∧
    decode 0x00000004 = .ok .resize ∧ decode 0x00000005 = .ok .run ∧
    decode 0x00000000 = .error (.reservedOpcode 0x00) ∧ decode 0x00000006 = .error (.reservedOpcode 0x06) ∧
    decode 0x00000103 = .error .reservedField

/-- Every well-formed command decodes from its own word and from no other of the `2^32` words. -/
def Obligations.DecodeAndEncodeAgree : Prop :=
  ∀ i : Instr, i.wellFormed = true → decode (encode i) = .ok i ∧ ∀ w, decode w = .ok i → w = encode i

/-- R63: a word with bits 31:8 not 0, or with an opcode outside `0x01 .. 0x05`, written to `CMD` in `READY` or `DONE`, is
accepted and ends in `ERROR` with `ERR_ILLEGAL_CMD`; nothing else changes. -/
def Obligations.IllegalWordEndsInError : Prop :=
  ∀ (s : State) (w : Word) (ms : List Move),
    w.extractLsb' 8 24 ≠ 0 ∨ w.extractLsb' 0 8 = 0 ∨ 5 < (w.extractLsb' 0 8).toNat →
    s.status.state = .ready ∨ s.status.state = .done →
    s.moves = .regWrite 0x00 w :: .complete :: ms →
    ∃ t u, step s = .next t ∧ t.status.state = .busy ∧ step t = .next u ∧
      u.status = ⟨.error, s.status.tabValid0, s.status.tabValid1, 0x0A⟩ ∧ u.inflight = none ∧
      u.regs = s.regs ∧ u.mem = s.mem ∧ u.guard = s.guard ∧ u.params = s.params ∧ u.reads = s.reads ∧ u.moves = ms

/-! ### Registers -/

/-- R24: an index above `0x24` reads 0 and ignores writes, in every state. -/
def Obligations.UnmappedIndexIsInert : Prop :=
  ∀ (s : State) (idx : BitVec 8) (data : Word) (ms : List Move), 0x24 < idx.toNat →
    (s.moves = .regRead idx :: ms → step s = .next { s with moves := ms, reads := 0 :: s.reads }) ∧
      (s.moves = .regWrite idx data :: ms → step s = .next { s with moves := ms })

/-- R11's map, row by row: each of the 37 registers has its index and its access kind and reads as its own field of the
state (`CMD` as 0, `CFG` its two bits); an index selects the register whose index it is, and only that one. -/
def Obligations.RegisterIndicesAreTheMap : Prop :=
  (∀ (idx : BitVec 8) (n : Reg), Reg.ofIndex idx = some n ↔ n.index = idx) ∧
  ∀ s : State,
    let rows : List (Reg × BitVec 8 × Access × Word) :=
      [(.cmd, 0x00, .wo, 0), (.status, 0x01, .ro, s.status.word), (.inAddr, 0x02, .rw, s.regs.inAddr),
        (.outAddr, 0x03, .rw, s.regs.outAddr), (.sizeAddr, 0x04, .rw, s.regs.sizeAddr),
        (.cfg, 0x05, .rw, s.regs.cfg.setWidth 32), (.mode, 0x06, .rw, s.regs.mode),
        (.inRank, 0x07, .rw, s.regs.inRank), (.inDim0, 0x08, .rw, s.regs.inDim0),
        (.inDim1, 0x09, .rw, s.regs.inDim1), (.inDim2, 0x0A, .rw, s.regs.inDim2),
        (.inDim3, 0x0B, .rw, s.regs.inDim3), (.sizeH, 0x0C, .rw, s.regs.sizeH), (.sizeW, 0x0D, .rw, s.regs.sizeW),
        (.outH, 0x0E, .rw, s.regs.outH), (.outW, 0x0F, .rw, s.regs.outW), (.hScale, 0x10, .rw, s.regs.hScale),
        (.wScale, 0x11, .rw, s.regs.wScale), (.lScale, 0x12, .rw, s.regs.lScale),
        (.lCoord, 0x13, .rw, s.regs.lCoord), (.lOutSize, 0x14, .rw, s.regs.lOutSize),
        (.lLimit, 0x15, .rw, s.regs.lLimit), (.idx0, 0x16, .ro, s.regs.idx0), (.idx1, 0x17, .ro, s.regs.idx1),
        (.idx2, 0x18, .ro, s.regs.idx2), (.idx3, 0x19, .ro, s.regs.idx3), (.wgt0, 0x1A, .rw, s.regs.wgt0),
        (.wgt1, 0x1B, .rw, s.regs.wgt1), (.wgt2, 0x1C, .rw, s.regs.wgt2), (.wgt3, 0x1D, .rw, s.regs.wgt3),
        (.val0, 0x1E, .rw, s.regs.val0), (.val1, 0x1F, .rw, s.regs.val1), (.val2, 0x20, .rw, s.regs.val2),
        (.val3, 0x21, .rw, s.regs.val3), (.result, 0x22, .ro, s.regs.result), (.tabIdx, 0x23, .rw, s.regs.tabIdx),
        (.tabSel, 0x24, .ro, s.regs.tabSel)]
    (∀ n, n ∈ rows.map Prod.fst) ∧
      ∀ e ∈ rows, e.1.index = e.2.1 ∧ Reg.ofIndex e.2.1 = some e.1 ∧ e.1.access = e.2.2.1 ∧ readReg s e.1 = e.2.2.2

/-- `STATUS` reads as a word whose fields stand where R14 puts them, `STATE` with the numbers of R67, its reserved bits 0;
and the causes have the numbers of R141. -/
def Obligations.StatusWordLayout : Prop :=
  (∀ s : State, readReg s .status = s.status.word) ∧
  (∀ st : Status,
    st.word.extractLsb' 0 2 =
      (match st.state with
      | .ready => 0
      | .busy => 1
      | .done => 2
      | .error => 3) ∧
      st.word.getLsbD 2 = st.tabValid0 ∧ st.word.getLsbD 3 = st.tabValid1 ∧
      st.word.extractLsb' 4 4 = 0 ∧ st.word.extractLsb' 8 8 = st.errCode ∧ st.word.extractLsb' 16 16 = 0) ∧
  ErrCode.rank.code = 0x01 ∧ ErrCode.noSize.code = 0x02 ∧ ErrCode.outSize.code = 0x03 ∧ ErrCode.badMode.code = 0x04 ∧
    ErrCode.badDim.code = 0x05 ∧ ErrCode.addrRange.code = 0x06 ∧ ErrCode.overlap.code = 0x07 ∧
    ErrCode.nonFinite.code = 0x08 ∧ ErrCode.badIndex.code = 0x09 ∧ ErrCode.illegalCmd.code = 0x0A

/-- A host write to an `RW` register outside `BUSY` stores the value (`CFG` its two low bits, R16) and changes no other
register, no element of memory and no hidden state (R11, R25). -/
def Obligations.HostWriteStoresTheRegister : Prop :=
  ∀ (s : State) (idx : BitVec 8) (n : Reg) (data : Word) (ms : List Move),
    Reg.ofIndex idx = some n → n.access = .rw → s.status.state ≠ .busy → s.moves = .regWrite idx data :: ms →
    ∃ t, step s = .next t ∧ readReg t n = (if n = .cfg then data &&& 3 else data) ∧
      (∀ k, k ≠ n → readReg t k = readReg s k) ∧ (∀ a, t.mem.readByte a = s.mem.readByte a) ∧
      t.status = s.status ∧ t.inflight = s.inflight ∧ t.guard = s.guard ∧ t.params = s.params ∧ t.free = s.free ∧
      t.moves = ms ∧ t.reads = s.reads

/-- R165: while `BUSY` a host write to any register, `CMD` among them, is lost. -/
def Obligations.WritesWhileBusyAreLost : Prop :=
  ∀ (s : State) (idx : BitVec 8) (data : Word) (ms : List Move), s.status.state = .busy →
    s.moves = .regWrite idx data :: ms → step s = .next { s with moves := ms }

/-- A host write to a read-only register is ignored in every state (R11, vector X9). -/
def Obligations.ReadOnlyRegistersIgnoreWrites : Prop :=
  ∀ (s : State) (idx : BitVec 8) (n : Reg) (data : Word) (ms : List Move),
    Reg.ofIndex idx = some n → n.access = .ro → s.moves = .regWrite idx data :: ms →
    step s = .next { s with moves := ms }

/-- A write of `w` to `CMD` in `READY` or `DONE` starts the command (R13): `BUSY`, its tensors guarded (R166), nothing else
changed, and the block's next move executes the command `w` selects; in `BUSY` or `ERROR` the write is ignored; `CMD`
reads 0. That the hidden state keeps the word and copies the whole register file is the model's (log 15), and so are the
list of moves with the block's own move in it (logs 1 and 2) and the record of the guarded tensors (log 20). -/
def Obligations.CommandWriteStartsTheCommand : Prop :=
  ∀ (s : State) (w : Word) (ms : List Move),
    (s.status.state = .ready ∨ s.status.state = .done → s.moves = .regWrite 0x00 w :: ms →
      ∃ t f, step s = .next t ∧ t.status = ⟨.busy, s.status.tabValid0, s.status.tabValid1, 0⟩ ∧
        t.inflight = some f ∧ f.word = w ∧ f.desc = s.regs ∧ f.work = none ∧ t.regs = s.regs ∧ t.mem = s.mem ∧
        t.guard = s.guard.add (wordTensors w s.regs s.params s.mem) ∧ t.params = s.params ∧ t.reads = s.reads ∧ t.moves = ms ∧
        ∀ i ns, decode w = .ok i → ms = .complete :: ns → step t = exec i { t with moves := ns }) ∧
    (s.status.state = .busy ∨ s.status.state = .error → s.moves = .regWrite 0x00 w :: ms →
      step s = .next { s with moves := ms }) ∧
    readReg s .cmd = 0

/-- A host read between commands returns the register and changes nothing else (R11, R60), but that the read of `STATUS`
which shows `DONE` or `ERROR` frees the tensors (R166; the record of them is the model's, log 20). -/
def Obligations.HostReadReturnsTheRegister : Prop :=
  ∀ (s : State) (idx : BitVec 8) (n : Reg) (ms : List Move),
    s.inflight = none → Reg.ofIndex idx = some n → s.moves = .regRead idx :: ms →
    step s = .next { s with
      moves := ms
      reads := readReg s n :: s.reads
      guard := if n = .status ∧ (s.status.state = .done ∨ s.status.state = .error) then Guard.none else s.guard }

/-- A host read while a command is in progress returns the register's value; for a result register of that command it may
return the value the command will leave instead (R167, U14; which one is free, log 6). It changes no register, no
element of memory and no hidden state, and in `BUSY` it frees no tensor (R166). -/
def Obligations.BusyReadIsOldOrNew : Prop :=
  ∀ (s : State) (f : InFlight) (idx : BitVec 8) (n : Reg) (ms : List Move),
    s.inflight = some f → Reg.ofIndex idx = some n → s.moves = .regRead idx :: ms →
    ∃ t d, step s = .next t ∧ t.reads = d :: s.reads ∧
      (d = readReg s n ∨ ∃ i, decode f.word = .ok i ∧ n ∈ resultRegs i ∧
        ∃ u, exec i { s with moves := ms } = .next u ∧ d = readReg u n) ∧
      t.regs = s.regs ∧ t.status = s.status ∧ t.mem = s.mem ∧ t.inflight = s.inflight ∧ t.params = s.params ∧
      t.moves = ms ∧ (s.status.state = .busy → t.guard = s.guard)

/-! ### Reset -/

/-- R161 at `State.reset`: every register reads 0 but `SIZE_H` and `SIZE_W`, no command is in progress, and the block
waits. That no tensor is guarded is no rule of the spec but the model's own record (log 20). -/
def Obligations.ResetStateHoldsTheSpecsValues : Prop :=
  (∀ n, readReg State.reset n = if n = .sizeH ∨ n = .sizeW then 0xFFFFFFFF else 0) ∧
    State.reset.inflight = none ∧ State.reset.guard = Guard.none ∧ step State.reset = .next State.reset

/-- The reset event, in any state, `BUSY` and `ERROR` among them: every register at its reset value, no command in
progress, both tables invalid, tensor memory as it was (R160, R161, R163). That it frees the tensors is the model's choice
(log 20). -/
def Obligations.ResetEventFromAnyState : Prop :=
  ∀ (s : State) (ms : List Move), s.moves = .reset :: ms →
    ∃ t, step s = .next t ∧ (∀ n, readReg t n = if n = .sizeH ∨ n = .sizeW then 0xFFFFFFFF else 0) ∧
      t.inflight = none ∧ t.mem = s.mem ∧ t.guard = Guard.none ∧ t.params = s.params ∧ t.free = s.free ∧ t.moves = ms ∧
      t.reads = s.reads

/-! ### The step -/

/-- The step executes the command in progress, where its word selects one: with no move listed, or when the block's own
move is next, which is consumed (the moves are the model's, logs 1 and 2). -/
def Obligations.StepRunsTheDecodedCommand : Prop :=
  ∀ (s : State) (f : InFlight) (i : Instr), s.inflight = some f → decode f.word = .ok i → i.wellFormed = true →
    (s.moves = [] → step s = exec i s) ∧
      ∀ ms, s.moves = .complete :: ms → step s = exec i { s with moves := ms }

/-- Placing a command word (log 12) makes the very next step execute it on the accepted state. -/
def Obligations.FetchWordRunsNext : Prop :=
  ∀ (s : State) (nbits w : Nat) (i : Instr), decode (fetchedWord nbits w) = .ok i →
    step (s.withFetchWord nbits w) = exec i (accept (fetchedWord nbits w) s)

/-- The invariant holds right after reset. -/
def Obligations.ResetMeetsTheInvariant : Prop := GoodState State.reset

/-- Every step keeps the invariant, from every state that has it. -/
def Obligations.StepKeepsTheInvariant : Prop :=
  ∀ s t : State, GoodState s → step s = .next t → GoodState t

/-- No step changes the parameters of the platform (R5), and only a reset clears a valid bit (R84). -/
def Obligations.StepKeepsParametersAndTables : Prop :=
  ∀ (s t : State), step s = .next t →
    t.params = s.params ∧
      ((∀ ms, s.moves ≠ .reset :: ms) → ∀ k : Table, s.status.valid k = true → t.status.valid k = true)

/-- `ERROR` is left only by a reset: any other step keeps `STATUS` whole and starts nothing (R146). -/
def Obligations.ErrorIsLeftOnlyByReset : Prop :=
  ∀ (s t : State), GoodState s → s.status.state = .error → (∀ ms, s.moves ≠ .reset :: ms) → step s = .next t →
    t.status = s.status ∧ t.inflight = none

/-- R143, R144: a command that ends in `ERROR` leaves everything as it was at acceptance but `STATUS` (`STATE` and
`ERRCODE`) and its hidden state, which is gone. -/
def Obligations.ErrorChangesOnlyStatus : Prop :=
  ∀ (s t : State) (f : InFlight), s.inflight = some f → completeMove s = .next t → t.status.state = .error →
    ∃ e : ErrCode, t = { s with
      status := ⟨.error, s.status.tabValid0, s.status.tabValid1, e.code⟩, inflight := none }

/-! ### GETTAB -/

/-- R85: the two errors in their order; else the table `MODE` selects, `TAB[1]` with `A = -0.5` for 1 and `TAB[0]` with
`A = -0.75` for 0 and 2 (R65, R83), is valid, `TAB_SEL` is its number and `RESULT` the entry of the generated table
(R81), or some NaN pattern where that is a NaN (R7); nothing else changes. -/
def Obligations.GettabReadsTheTable : Prop :=
  decode 0x00000001 = .ok .gettab ∧
  ∀ (s : State) (f : InFlight), s.inflight = some f →
    let d := f.desc
    (2 < u32 d.mode → exec .gettab s = .next (raise .badMode s)) ∧
    (u32 d.mode ≤ 2 → 2 * s.params.K + 1 < u32 d.tabIdx → exec .gettab s = .next (raise .badIndex s)) ∧
    (u32 d.mode ≤ 2 → u32 d.tabIdx ≤ 2 * s.params.K + 1 →
      ∃ t e r, exec .gettab s = .next t ∧
        (tgen s.params.K (if u32 d.mode = 1 then 0xBF000000 else 0xBF400000))[u32 d.tabIdx]? = some e ∧
        (isNaN e = false → r = e) ∧ (isNaN e = true → isNaN r = true) ∧
        t.regs = { s.regs with tabSel := if u32 d.mode = 1 then 1 else 0, result := r } ∧
        t.status = ⟨.done, s.status.tabValid0 || decide (u32 d.mode ≠ 1), s.status.tabValid1 || decide (u32 d.mode = 1),
          0⟩ ∧
        (∀ a, t.mem.readByte a = s.mem.readByte a) ∧ t.inflight = none ∧ t.guard = s.guard ∧ t.params = s.params ∧
        t.free = s.free ∧ t.moves = s.moves ∧ t.reads = s.reads)

/-- R82: `TGEN` has `2*(K+1)` entries; entry `2i` is branch 1 at `i/K` and entry `2i+1` is branch 2 there. -/
def Obligations.TableLayout : Prop :=
  ∀ (K : Nat) (A : Word), (tgen K A).length = 2 * (K + 1) ∧
    ∀ i, i ≤ K → (tgen K A)[2 * i]? = some (branch1 A (tabArg K i)) ∧
      (tgen K A)[2 * i + 1]? = some (branch2 A (tabArg K i))

/-- R86: the six entries of each table that do not depend on `K`, for every `K` that R5 allows. -/
def Obligations.TableEntriesForEveryK : Prop :=
  ∀ p : Params,
    (tabEntry p.K .tab0 0 = 0x3F800000 ∧ tabEntry p.K .tab0 1 = 0x00000000 ∧
      tabEntry p.K .tab0 p.K = 0x3F180000 ∧ tabEntry p.K .tab0 (p.K + 1) = 0xBDC00000 ∧
      tabEntry p.K .tab0 (2 * p.K) = 0x00000000 ∧ tabEntry p.K .tab0 (2 * p.K + 1) = 0x00000000) ∧
    (tabEntry p.K .tab1 0 = 0x3F800000 ∧ tabEntry p.K .tab1 1 = 0x00000000 ∧
      tabEntry p.K .tab1 p.K = 0x3F100000 ∧ tabEntry p.K .tab1 (p.K + 1) = 0xBD800000 ∧
      tabEntry p.K .tab1 (2 * p.K) = 0x00000000 ∧ tabEntry p.K .tab1 (2 * p.K + 1) = 0x00000000)

/-! ### LOCATE -/

/-- R99, the errors in their order (where no command is in progress the operands are the registers, log 11). -/
def Obligations.LocateErrors : Prop :=
  ∀ s : State,
    (2 < u32 s.operands.mode → exec .locate s = .next (raise .badMode s)) ∧
    (u32 s.operands.mode ≤ 2 → s32 s.operands.lLimit < 1 → exec .locate s = .next (raise .badDim s)) ∧
    (∀ m, Mode.ofWord s.operands.mode = some m → 1 ≤ s32 s.operands.lLimit →
      isFinite (mapCoord m s.operands.lScale (s32 s.operands.lCoord) (s32 s.operands.lOutSize)) = false →
      exec .locate s = .next (raise .nonFinite s))

/-- `LOCATE` where no check fails: the four indices are the clamped tap positions (R94, R99); the weights are those of
`Locate`, which come from entries `2o+1`, `2o`, `2(K-o)` and `2(K-o)+1` of the generated table, `o` the table offset (R95):
as they are in `NONE` and `PYTORCH_HALF_PIXEL` (R96); in `HALF_PIXEL` with `+0.0` for a clamped tap, and rescaled by the
reciprocal of their sum where its magnitude is above `1000 * 2^-126` (R97). The table is valid; nothing else changes. The
model's own: where no command is in progress the operands are the registers (log 11), and a weight that is a NaN would be
the free value of its place (log 4). -/
def Obligations.LocateGivesIndicesAndWeights : Prop :=
  ∀ (s : State) (m : Mode),
    let d := s.operands
    let limit := s32 d.lLimit
    let inn := mapCoord m d.lScale (s32 d.lCoord) (s32 d.lOutSize)
    let base := floorF inn
    let K := s.params.K
    let o := tabOffset s.params inn
    let table := tgen K (if m = .halfPixel then 0xBF000000 else 0xBF400000)
    let wgt := (locate s.params d.lScale m (s32 d.lCoord) (s32 d.lOutSize) limit).wgt
    Mode.ofWord d.mode = some m → 1 ≤ limit → isFinite inn = true →
    (∃ raw : Quad Word,
      table[(2 * o + 1).toNat]? = some raw.q0 ∧ table[(2 * o).toNat]? = some raw.q1 ∧
        table[(2 * (K - o)).toNat]? = some raw.q2 ∧ table[(2 * (K - o) + 1).toNat]? = some raw.q3 ∧
        (m ≠ .halfPixel → wgt = raw) ∧
        (m = .halfPixel →
          let w0 := if clamp (base - 1) limit = base - 1 then raw.q0 else 0
          let w1 := if clamp base limit = base then raw.q1 else 0
          let w2 := if clamp (base + 1) limit = base + 1 then raw.q2 else 0
          let w3 := if clamp (base + 2) limit = base + 2 then raw.q3 else 0
          let sum := fadd (fadd (fadd w0 w1) w2) w3
          let inv := fdiv 0x3F800000 sum
          isFinite sum = true ∧
            (1000 / 2 ^ 126 < |realOf sum| → wgt = ⟨fmul w0 inv, fmul w1 inv, fmul w2 inv, fmul w3 inv⟩) ∧
            (|realOf sum| ≤ 1000 / 2 ^ 126 → wgt = ⟨w0, w1, w2, w3⟩))) ∧
    ∃ t, exec .locate s = .next t ∧
      (u32 t.regs.idx0 : Int) = clamp (base - 1) limit ∧ (u32 t.regs.idx1 : Int) = clamp base limit ∧
      (u32 t.regs.idx2 : Int) = clamp (base + 1) limit ∧ (u32 t.regs.idx3 : Int) = clamp (base + 2) limit ∧
      t.regs = { s.regs with
        idx0 := t.regs.idx0, idx1 := t.regs.idx1, idx2 := t.regs.idx2, idx3 := t.regs.idx3
        wgt0 := resolveNaN s.tick 0 wgt.q0, wgt1 := resolveNaN s.tick 1 wgt.q1
        wgt2 := resolveNaN s.tick 2 wgt.q2, wgt3 := resolveNaN s.tick 3 wgt.q3 } ∧
      t.status.state = .done ∧ t.status.errCode = 0 ∧
      (∀ k, t.status.valid k = (s.status.valid k || decide (k = sel m))) ∧
      (∀ a, t.mem.readByte a = s.mem.readByte a) ∧ t.inflight = none ∧ t.guard = s.guard ∧ t.params = s.params ∧
      t.free = s.free ∧ t.moves = s.moves ∧ t.reads = s.reads

/-- The indices of `Locate` lie in `[0, limit-1]` and rise (R98 b, c), for every scale, mode, coordinate and size; for a
coordinate that is not finite this is about the model's choice (log 19). -/
def Obligations.LocateIndicesInRange : Prop :=
  ∀ (p : Params) (sc : Word) (m : Mode) (coord outSize limit : Int), 1 ≤ limit →
    let i := (locate p sc m coord outSize limit).idx
    (0 ≤ i.q0 ∧ i.q0 ≤ i.q1 ∧ i.q1 ≤ i.q2 ∧ i.q2 ≤ i.q3 ∧ i.q3 ≤ limit - 1) ∧
      i = (tapPos (floorF (mapCoord m sc coord outSize))).map fun v => min (limit - 1) (max 0 v)

/-- R93: the base is the integer at or next below the coordinate, and the table offset is the integer nearest to the
rounded `frac * K`, an exact half going to the even integer or away from zero as the parameter `TIE` says; it lies in
`[0, K]` for every finite coordinate (R98 a), so every table read is to an entry of the table. -/
def Obligations.TableOffsetInRange : Prop :=
  ∀ (p : Params) (inn : Word), isFinite inn = true →
    let o := tabOffset p inn
    let f := fmul (fsub inn (i2f (floorF inn))) (i2f p.K)
    ((floorF inn : ℚ) ≤ realOf inn ∧ realOf inn < floorF inn + 1) ∧ (0 ≤ o ∧ o ≤ p.K) ∧ isFinite f = true ∧
      |(o : ℚ) - realOf f| ≤ 1 / 2 ∧
      (|(o : ℚ) - realOf f| = 1 / 2 →
        (p.tie = .even → o % 2 = 0) ∧ (p.tie = .away → |realOf f| < |(o : ℚ)|))

/-- Every weight of a finite coordinate is finite (R98 d), so no weight is a free NaN. -/
def Obligations.WeightsAreFinite : Prop :=
  ∀ (p : Params) (m : Mode) (inn : Word) (limit : Int), isFinite inn = true →
    ∀ w ∈ (sampleAt p m inn limit).wgt.toList, isFinite w = true

/-- In `HALF_PIXEL`, where no tap is clamped, the four weights sum to 1 within `10^-5`, at the default `K` (R98 e). -/
def Obligations.UnclampedWeightsSumToOne : Prop :=
  ∀ (p : Params) (inn : Word) (limit : Int), p.K = 1024 → isFinite inn = true →
    (∀ v ∈ (tapPos (floorF inn)).toList, clamp v limit = v) →
    |(((sampleAt p .halfPixel inn limit).wgt.toList).map realOf).sum - 1| ≤ 1 / 100000

/-- With scale `1.0`, in any mode, a coordinate below the size and below `2^23` is its own second tap, with the weights
`[0, 1, 0, 0]` (corner case of R114). -/
def Obligations.UnitScaleSelectsTheTap : Prop :=
  ∀ (p : Params) (m : Mode) (coord outSize limit : Int), 0 ≤ coord → coord < 2 ^ 23 → coord < outSize → coord < limit →
    (locate p 0x3F800000 m coord outSize limit).idx.q1 = coord ∧
      (locate p 0x3F800000 m coord outSize limit).wgt = ⟨0, 0x3F800000, 0, 0⟩

/-- In `HALF_PIXEL`, when every tap is clamped all four weights are `+0.0` (R97). -/
def Obligations.AllTapsClampedGivesZeroWeights : Prop :=
  ∀ (p : Params) (inn : Word) (limit : Int),
    (∀ v ∈ (tapPos (floorF inn)).toList, clamp v limit ≠ v) →
    (sampleAt p .halfPixel inn limit).wgt = ⟨0, 0, 0, 0⟩

/-- R91: the mappings of `NONE` and `HALF_PIXEL`; in `PYTORCH_HALF_PIXEL` the coordinate is forced to `+0.0` for an output
size of at most 1, whatever the scale pattern, and for a larger one it is the `HALF_PIXEL` mapping. -/
def Obligations.ForcedCoordinate : Prop :=
  ∀ (sc : Word) (coord outSize : Int),
    mapCoord .none sc coord outSize = fmul (i2f coord) sc ∧
      mapCoord .halfPixel sc coord outSize = fsub (fmul (fadd (i2f coord) 0x3F000000) sc) 0x3F000000 ∧
      (outSize ≤ 1 → mapCoord .pytorchHalfPixel sc coord outSize = 0) ∧
      (1 < outSize → mapCoord .pytorchHalfPixel sc coord outSize = mapCoord .halfPixel sc coord outSize)

/-! ### INTERP -/

/-- R106, R105: `RESULT` is `((v0*w0 + v1*w1) + v2*w2) + v3*w3`, each operation rounded, or some NaN pattern where that is a
NaN; for every operand pattern, with no error; nothing else changes. -/
def Obligations.InterpIsTheDotProduct : Prop :=
  decode 0x00000003 = .ok .interp ∧
  ∀ (s : State) (f : InFlight), s.inflight = some f →
    let d := f.desc
    let v := fadd (fadd (fadd (fmul d.val0 d.wgt0) (fmul d.val1 d.wgt1)) (fmul d.val2 d.wgt2)) (fmul d.val3 d.wgt3)
    ∃ t r, exec .interp s = .next t ∧ (isNaN v = false → r = v) ∧ (isNaN v = true → isNaN r = true) ∧
      t.regs = { s.regs with result := r } ∧
      t.status = ⟨.done, s.status.tabValid0, s.status.tabValid1, 0⟩ ∧
      (∀ a, t.mem.readByte a = s.mem.readByte a) ∧ t.inflight = none ∧ t.guard = s.guard ∧ t.params = s.params ∧
      t.free = s.free ∧ t.moves = s.moves ∧ t.reads = s.reads

/-- With weights `[0, 1, 0, 0]` and finite values the dot product is the second value, but that a `-0.0` may come out as
`+0.0` (R109 a). -/
def Obligations.UnitWeightsSelectTheTap : Prop :=
  ∀ v : Quad Word, isFinite v.q0 = true → isFinite v.q1 = true → isFinite v.q2 = true → isFinite v.q3 = true →
    interp1D ⟨0, 0x3F800000, 0, 0⟩ v = v.q1 ∨
      (v.q1 = 0x80000000 ∧ interp1D ⟨0, 0x3F800000, 0, 0⟩ v = 0)

/-! ### RESIZE -/

/-- R114, R145: the errors of `RESIZE` in their order, each raised when it is the first that holds (where no
command is in progress the operands are the registers, log 11, here and below). -/
def Obligations.ResizeErrors : Prop :=
  ∀ s : State, s.work = none →
    let d := s.operands
    let nIn := u32 d.inDim0 * u32 d.inDim1 * u32 d.inDim2 * u32 d.inDim3
    let nOut := u32 d.inDim0 * u32 d.inDim1 * (s32 d.outH).toNat * (s32 d.outW).toNat
    if s32 d.outH < 1 ∨ s32 d.outW < 1 then exec .resize s = .next (raise .outSize s)
    else if 2 < u32 d.mode then exec .resize s = .next (raise .badMode s)
    else if u32 d.inDim0 = 0 ∨ u32 d.inDim1 = 0 ∨ u32 d.inDim2 = 0 ∨ u32 d.inDim3 = 0 then
      exec .resize s = .next (raise .badDim s)
    else if 2 ^ 32 < u32 d.inAddr + nIn ∨ 2 ^ 32 < u32 d.outAddr + nOut then exec .resize s = .next (raise .addrRange s)
    else if u32 d.inAddr < u32 d.outAddr + nOut ∧ u32 d.outAddr < u32 d.inAddr + nIn then
      exec .resize s = .next (raise .overlap s)
    else ∀ m, Mode.ofWord d.mode = some m →
      ((∃ y : Nat, (y : Int) < s32 d.outH ∧ isFinite (mapCoord m d.hScale y (s32 d.outH)) = false) ∨
        ∃ x : Nat, (x : Int) < s32 d.outW ∧ isFinite (mapCoord m d.wScale x (s32 d.outW)) = false) →
      exec .resize s = .next (raise .nonFinite s)

/-- `RESIZE` (R113, R114, R117) where no check fails and the platform backs every address the command needs: every output
element is the `Pixel` of the input as it was, every byte outside the output is as it was, no register changes but
`STATUS`, and exactly the mode's table becomes valid. The model's own: an element that is a NaN is the free value of its
place (log 4). -/
def Obligations.ResizeWritesTheOutput : Prop :=
  ∀ (s : State) (m : Mode),
    let d := s.operands
    let j := resizeJob d m
    s.mem.wf → s.work = none → 1 ≤ s32 d.outH → 1 ≤ s32 d.outW → Mode.ofWord d.mode = some m → ¬ badDims d →
    checkGeometry j = none → coordsFinite j = true → (∀ it ∈ j.order, it.backed s.params j = true) →
    ∃ t, exec .resize s = .next t ∧
      (∀ b c y x, b < j.B → c < j.C → y < j.oh → x < j.ow →
        t.mem.readElem (elemAddr j.outBase j.C j.oh j.ow b c y x) =
          elementBits j s.tick b y x c (pixelAt s.mem.readElem j.inBase j.C j.ih j.iw b c
            (locate s.params d.hScale m y (s32 d.outH) (u32 d.inDim2))
            (locate s.params d.wScale m x (s32 d.outW) (u32 d.inDim3)))) ∧
      (∀ a, a < 4 * j.outBase ∨ 4 * (j.outBase + j.nOut) ≤ a → t.mem.readByte a = s.mem.readByte a) ∧
      t.regs = s.regs ∧ t.status.state = .done ∧ t.status.errCode = 0 ∧
      (∀ k, t.status.valid k = (s.status.valid k || decide (k = sel m))) ∧ t.inflight = none ∧ t.guard = s.guard ∧
      t.params = s.params ∧ t.free = s.free ∧ t.moves = s.moves ∧ t.reads = s.reads

/-- R41: a `RESIZE` that would touch an address the platform does not back, or that has forked and would touch one in an
output element still outstanding, has no step; the model stops (log 7). -/
def Obligations.UnbackedResizeStops : Prop :=
  ∀ (s : State) (j : Job) (it : Item),
    (s.work = none ∧ planResize s = .job j ∧ it ∈ j.order) ∨ (∃ w, s.work = some w ∧ w.job = j ∧ it ∈ w.todo) →
    (∃ a, (a ∈ it.reads s.params j ∨ a = it.addr j) ∧ ∃ h ∈ s.params.holes, h.1 ≤ a ∧ a < h.2) →
    exec .resize s = .fault .unbacked

/-! ### RUN -/

/-- R127: the static size when both components are positive; else no size, a size tensor that would leave the address space,
or the two elements of the size tensor, which have to be backed (R41). -/
def Obligations.SizeResolution : Prop :=
  ∀ (s : State) (f : InFlight), s.inflight = some f →
    let d := f.desc
    if 0 < s32 d.sizeH ∧ 0 < s32 d.sizeW then resolveSize s = .size (s32 d.sizeH) (s32 d.sizeW)
    else if d.cfg.getLsbD 1 = false then resolveSize s = .error .noSize
    else if 2 ^ 32 < u32 d.sizeAddr + 2 then resolveSize s = .error .addrRange
    else (∀ h ∈ s.params.holes, ∀ a, a = u32 d.sizeAddr ∨ a = u32 d.sizeAddr + 1 → ¬ (h.1 ≤ a ∧ a < h.2)) →
      resolveSize s = .size (s.mem.readElem (u32 d.sizeAddr)).toInt (s.mem.readElem (u32 d.sizeAddr + 1)).toInt

/-- R133, R145: the errors of `RUN` in their order, each raised when it is the first that holds. -/
def Obligations.RunErrors : Prop :=
  ∀ s : State, s.work = none →
    let d := s.operands
    (u32 d.inRank ≠ 4 → exec .run s = .next (raise .rank s)) ∧
    (u32 d.inRank = 4 → ∀ e, resolveSize s = .error e → exec .run s = .next (raise e s)) ∧
    (u32 d.inRank = 4 → ∀ oh ow, resolveSize s = .size oh ow →
      let nIn := u32 d.inDim0 * u32 d.inDim1 * u32 d.inDim2 * u32 d.inDim3
      let nOut := u32 d.inDim0 * u32 d.inDim1 * oh.toNat * ow.toNat
      if oh < 1 ∨ ow < 1 then exec .run s = .next (raise .outSize s)
      else if 2 < u32 d.mode then exec .run s = .next (raise .badMode s)
      else if u32 d.inDim0 = 0 ∨ u32 d.inDim1 = 0 ∨ u32 d.inDim2 = 0 ∨ u32 d.inDim3 = 0 then
        exec .run s = .next (raise .badDim s)
      else if 2 ^ 32 < u32 d.inAddr + nIn ∨ 2 ^ 32 < u32 d.outAddr + nOut then
        exec .run s = .next (raise .addrRange s)
      else if u32 d.inAddr < u32 d.outAddr + nOut ∧ u32 d.outAddr < u32 d.inAddr + nIn then
        exec .run s = .next (raise .overlap s)
      else ∀ t, exec .run s = .next t → t.status.errCode = 0 ∨ t.status.errCode = ErrCode.nonFinite.code)

/-- R130, R132: a `RUN` whose output size is the input's copies the input bit for bit, whatever `MODE` and
`ALIGN_CORNERS` are, builds no table, and reports the size and the scales, both `1.0`. -/
def Obligations.RunCopiesEqualSizes : Prop :=
  ∀ (s : State) (m : Mode) (oh ow : Int),
    let d := s.operands
    let j := runJob d m oh ow
    s.mem.wf → s.work = none → u32 d.inRank = 4 → resolveSize s = .size oh ow → 1 ≤ oh → 1 ≤ ow →
    Mode.ofWord d.mode = some m → ¬ badDims d → oh = u32 d.inDim2 → ow = u32 d.inDim3 → checkGeometry j = none →
    (∀ it ∈ j.order, it.backed s.params j = true) →
    ∃ t, exec .run s = .next t ∧
      (∀ k, k < j.nIn → t.mem.readElem (j.outBase + k) = s.mem.readElem (j.inBase + k)) ∧
      (∀ a, a < 4 * j.outBase ∨ 4 * (j.outBase + j.nOut) ≤ a → t.mem.readByte a = s.mem.readByte a) ∧
      t.regs = { s.regs with
        outH := BitVec.ofInt 32 oh, outW := BitVec.ofInt 32 ow, hScale := 0x3F800000, wScale := 0x3F800000 } ∧
      t.status = ⟨.done, s.status.tabValid0, s.status.tabValid1, 0⟩ ∧ t.inflight = none ∧ t.guard = s.guard ∧
      t.params = s.params ∧ t.free = s.free ∧ t.moves = s.moves ∧ t.reads = s.reads

/-- A `RUN` to another size resizes with the scales of R129 and reports the size and the scales (R131, R132, R133). The
model's own: an element that is a NaN is the free value of its place (log 4). -/
def Obligations.RunResizes : Prop :=
  ∀ (s : State) (m : Mode) (oh ow : Int),
    let d := s.operands
    let j := runJob d m oh ow
    let hs := scale (u32 d.inDim2) oh d.alignCorners
    let ws := scale (u32 d.inDim3) ow d.alignCorners
    s.mem.wf → s.work = none → u32 d.inRank = 4 → resolveSize s = .size oh ow → 1 ≤ oh → 1 ≤ ow →
    Mode.ofWord d.mode = some m → ¬ badDims d → ¬ (oh = u32 d.inDim2 ∧ ow = u32 d.inDim3) → checkGeometry j = none →
    coordsFinite j = true → (∀ it ∈ j.order, it.backed s.params j = true) →
    ∃ t, exec .run s = .next t ∧
      (∀ b c y x, b < j.B → c < j.C → y < j.oh → x < j.ow →
        t.mem.readElem (elemAddr j.outBase j.C j.oh j.ow b c y x) =
          elementBits j s.tick b y x c (pixelAt s.mem.readElem j.inBase j.C j.ih j.iw b c
            (locate s.params hs m y oh (u32 d.inDim2)) (locate s.params ws m x ow (u32 d.inDim3)))) ∧
      (∀ a, a < 4 * j.outBase ∨ 4 * (j.outBase + j.nOut) ≤ a → t.mem.readByte a = s.mem.readByte a) ∧
      t.regs = { s.regs with outH := BitVec.ofInt 32 oh, outW := BitVec.ofInt 32 ow, hScale := hs, wScale := ws } ∧
      t.status.state = .done ∧ t.status.errCode = 0 ∧
      (∀ k, t.status.valid k = (s.status.valid k || decide (k = sel m))) ∧ t.inflight = none ∧ t.guard = s.guard ∧
      t.params = s.params ∧ t.free = s.free ∧ t.moves = s.moves ∧ t.reads = s.reads

/-- The scale of an axis whose two lengths are equal is exactly `1.0`, with and without aligned corners (R129, R132). -/
def Obligations.EqualSizesScaleByOne : Prop :=
  ∀ (n : Int) (align : Bool), 1 ≤ n → n < 2 ^ 32 → scale n n align = 0x3F800000

/-- A `RUN` never raises `ERR_NONFINITE` (R129): every coordinate of legal sizes is finite. -/
def Obligations.RunIsNeverNonfinite : Prop :=
  ∀ (s t : State), s.work = none → exec .run s = .next t → t.status.errCode ≠ ErrCode.nonFinite.code

/-! ### The tensors -/

/-- `CheckGeometry` lets a job through exactly when both tensors are inside the address space and share no element
(R48, R49, R115). -/
def Obligations.GeometryCheckMeansDisjoint : Prop :=
  ∀ j : Job, 0 < j.nIn → 0 < j.nOut →
    (checkGeometry j = none ↔
      j.inBase + j.nIn ≤ 2 ^ 32 ∧ j.outBase + j.nOut ≤ 2 ^ 32 ∧
        ∀ a, j.inBase ≤ a → a < j.inBase + j.nIn → ¬ (j.outBase ≤ a ∧ a < j.outBase + j.nOut))

/-- R119: the memory after the join is the same for every order in which the output elements are written. -/
def Obligations.WriteOrderDoesNotMatter : Prop :=
  ∀ (p : Params) (j : Job) (tick : Nat) (m : Memory) (todo : List Item), JobOk j → m.wf → todo.Perm j.order →
    writeItems p j tick todo m = writeItems p j tick j.order m

/-- R118 to R121: whatever the sequencer and the workers do inside a command, in whatever order, the command comes to the
same state as without it. -/
def Obligations.InnerMovesKeepTheOutcome : Prop :=
  ∀ (s t u : State) (mv : Move), GoodState s → mv.inner = true → perform mv s = .next t → completeMove s = .next u →
    completeMove t = .next u

/-- R170, R122: on a platform that backs every address a command in progress ends, in `DONE` or `ERROR`. -/
def Obligations.EveryCommandEnds : Prop :=
  ∀ (s : State) (f : InFlight), GoodState s → allBacked s.params → s.inflight = some f →
    ∃ t, completeMove s = .next t ∧ (t.status.state = .done ∨ t.status.state = .error) ∧ t.inflight = none

/-- On a platform that backs every address no step faults, and the only refusals are of a host access to tensor memory: to
any element while `BUSY` (R71, "legal only while `STATE != BUSY`"), and after it, at a tensor of a command whose end the
host has not read, a store to any of them or a load of the output (R166). That these are refusals is the model's choice
(logs 14 and 20). -/
def Obligations.StepsStopOnlyForTheHost : Prop :=
  ∀ s : State, GoodState s → allBacked s.params →
    (∀ r, step s ≠ .fault r) ∧
      ∀ r, step s = .refused r →
        (r = .hostMemoryWhileBusy ∧ s.status.state = .busy ∧
          ∃ ms, (∃ a v, s.moves = .memWrite a v :: ms) ∨ ∃ a, s.moves = .memRead a :: ms) ∨
        (r = .hostMemoryBeforeRead ∧ (s.status.state = .done ∨ s.status.state = .error) ∧
          ∃ ms, (∃ a v, s.moves = .memWrite a v :: ms ∧ inRanges s.guard.noStore (u32 a) = true) ∨
            ∃ a, s.moves = .memRead a :: ms ∧ inRanges s.guard.noLoad (u32 a) = true)

/-- R41, R71: outside `BUSY` the host reads back the pattern it stored, and any other element as it was, where neither
element is still guarded: that is, in no tensor of a command whose end the host has yet to read (R166). Which elements
are guarded then, and that an access to any other element acts on memory as the command left it, is the model's choice
(log 20). -/
def Obligations.HostStoreThenLoad : Prop :=
  ∀ (s : State) (a b v : Word) (ms : List Move), s.mem.wf → s.status.state ≠ .busy → allBacked s.params →
    inRanges s.guard.noStore (u32 a) = false → inRanges s.guard.noLoad (u32 b) = false →
    s.moves = .memWrite a v :: .memRead b :: ms →
    ∃ t u, step s = .next t ∧ step t = .next u ∧
      u.reads = (if b = a then v else s.mem.readElem b.toNat) :: s.reads ∧ u.mem = t.mem ∧ u.mem.wf ∧
      (∀ c, c < 4 * a.toNat ∨ 4 * a.toNat + 4 ≤ c → u.mem.readByte c = s.mem.readByte c) ∧
      u.regs = s.regs ∧ u.status = s.status ∧ u.inflight = s.inflight ∧ u.guard = s.guard ∧ u.params = s.params ∧
      u.free = s.free ∧ u.moves = ms

/-- R71, R166: a host access to tensor memory is refused while `BUSY`, and after it a store to a guarded tensor or a load of
a guarded output, which the host has to leave alone until it has read the end of the command; the model's form of "A
model gives the host no such move" (logs 14 and 20). -/
def Obligations.HostMemoryRefusedWhileBusy : Prop :=
  ∀ (s : State) (a v : Word) (ms : List Move),
    (s.status.state = .busy →
      (s.moves = .memWrite a v :: ms → step s = .refused .hostMemoryWhileBusy) ∧
        (s.moves = .memRead a :: ms → step s = .refused .hostMemoryWhileBusy)) ∧
    (s.status.state ≠ .busy → (∀ h ∈ s.params.holes, ¬ (h.1 ≤ u32 a ∧ u32 a < h.2)) →
      (s.moves = .memWrite a v :: ms → (∃ g ∈ s.guard.noStore, g.1 ≤ u32 a ∧ u32 a < g.2) →
        step s = .refused .hostMemoryBeforeRead) ∧
        (s.moves = .memRead a :: ms → (∃ g ∈ s.guard.noLoad, g.1 ≤ u32 a ∧ u32 a < g.2) →
          step s = .refused .hostMemoryBeforeRead))

/-! ### Floating point -/

/-- R7: `rnd` rounds to nearest, ties to even, with overflow to infinity; and `fadd`, `fsub`, `fmul` and `fdiv` of finite
operands are each the one rounding of the exact sum, difference, product or quotient. That an infinity they round to has
the sign of the exact result is the model's presumption (log 18). -/
def Obligations.RoundingIsToNearestEven : Prop :=
  (∀ (neg : Bool) (m : Nat) (e : Int), RoundsTo (roundF neg m e) (Exact.mk neg m e).val) ∧
  ∀ a b : Word, isFinite a = true → isFinite b = true →
    RoundsTo (fadd a b) (realOf a + realOf b) ∧ RoundsTo (fsub a b) (realOf a - realOf b) ∧
      RoundsTo (fmul a b) (realOf a * realOf b) ∧ (realOf b ≠ 0 → RoundsTo (fdiv a b) (realOf a / realOf b))

/-- Every finite binary32 number rounds to itself (R7), a zero with its sign (log 18, the model's presumption: R7 rounds a
real). -/
def Obligations.RoundingKeepsNumbers : Prop :=
  ∀ w : Word, isFinite w = true → roundF (exactOf w).neg (exactOf w).man (exactOf w).exp = w

/-- `i2f` is exact up to `2^24` (R5, R81). -/
def Obligations.SmallIntegersConvertExactly : Prop :=
  ∀ n : Int, -(2 ^ 24) ≤ n → n ≤ 2 ^ 24 → isFinite (i2f n) = true ∧ realOf (i2f n) = n

/-- A NaN operand gives a NaN (R105, R7; log 18), a NaN result is written as some NaN pattern and any other result as it is (R7, U5,
log 4). -/
def Obligations.NanResultsAreNans : Prop :=
  (∀ a v, isNaN v = true → isNaN (fadd a v) = true ∧ isNaN (fadd v a) = true ∧ isNaN (fsub a v) = true ∧
      isNaN (fsub v a) = true ∧ isNaN (fmul a v) = true ∧ isNaN (fmul v a) = true ∧ isNaN (fdiv a v) = true ∧
      isNaN (fdiv v a) = true) ∧
    ∀ tick site v, (isNaN v = true → isNaN (resolveNaN tick site v) = true) ∧
      (isNaN v = false → resolveNaN tick site v = v)

/-! ### Modes, and what the platform does not back -/

/-- The modes have the numbers of R65, any other value is none; and `SEL` (R83) is `TAB[1]`, `A = -0.5`, for `HALF_PIXEL` and
`TAB[0]`, `A = -0.75`, for the other two. -/
def Obligations.ModesSelectTheirTables : Prop :=
  (∀ w : Word,
    (u32 w = 0 → Mode.ofWord w = some .none) ∧ (u32 w = 1 → Mode.ofWord w = some .halfPixel) ∧
      (u32 w = 2 → Mode.ofWord w = some .pytorchHalfPixel) ∧ (2 < u32 w → Mode.ofWord w = none)) ∧
  ((sel .halfPixel).number = 1 ∧ (sel .halfPixel).shape = 0xBF000000) ∧
  ∀ m : Mode, m ≠ .halfPixel → (sel m).number = 0 ∧ (sel m).shape = 0xBF400000

/-- R41: a `RUN` has no step, and the model stops (log 7), where it would touch an address the platform does not back: one
of the two size elements when it reads them, or an input or output element, of the driver or of the identity copy, before
the fork or still outstanding after it. -/
def Obligations.UnbackedRunStops : Prop :=
  ∀ s : State,
    (s.work = none → u32 s.operands.inRank = 4 → ¬ (0 < s32 s.operands.sizeH ∧ 0 < s32 s.operands.sizeW) →
      s.operands.cfg.getLsbD 1 = true → u32 s.operands.sizeAddr + 2 ≤ 2 ^ 32 →
      (∃ a, (a = u32 s.operands.sizeAddr ∨ a = u32 s.operands.sizeAddr + 1) ∧
        ∃ h ∈ s.params.holes, h.1 ≤ a ∧ a < h.2) →
      exec .run s = .fault .unbacked) ∧
    ∀ (j : Job) (it : Item),
      (s.work = none ∧ planRun s = .job j ∧ it ∈ j.order) ∨ (∃ w, s.work = some w ∧ w.job = j ∧ it ∈ w.todo) →
      (∃ a, (a ∈ it.reads s.params j ∨ a = it.addr j) ∧ ∃ h ∈ s.params.holes, h.1 ≤ a ∧ a < h.2) →
      exec .run s = .fault .unbacked

/-- R41: outside `BUSY` a host store or load of an element the platform does not back has no step; the model stops (log 7). -/
def Obligations.UnbackedHostAccessStops : Prop :=
  ∀ (s : State) (a v : Word) (ms : List Move), s.status.state ≠ .busy →
    (∃ h ∈ s.params.holes, h.1 ≤ u32 a ∧ u32 a < h.2) →
    (s.moves = .memWrite a v :: ms → step s = .fault .unbacked) ∧
      (s.moves = .memRead a :: ms → step s = .fault .unbacked)

/-- R166: writing `RESIZE` or `RUN` to `CMD` guards the command's tensors, the input, the output and the size tensor it uses
against stores and the output against loads; the other words guard nothing. Every step but a reset and a host read of
`STATUS` in `DONE` or `ERROR` keeps what is guarded, and that read frees it. That a `RUN` of another rank than 4 has no
tensors, and that they are those of the operands at acceptance, is the model's reading (log 20). -/
def Obligations.TensorsAreGuardedUntilTheEndIsRead : Prop :=
  (∀ (s : State) (w : Word) (ms : List Move), s.status.state = .ready ∨ s.status.state = .done →
    s.moves = .regWrite 0x00 w :: ms →
    let d := s.regs
    let within := fun (a base n : Nat) => base ≤ a ∧ a < base + n
    let nIn := u32 d.inDim0 * u32 d.inDim1 * u32 d.inDim2 * u32 d.inDim3
    let nOut := fun oh ow : Int => u32 d.inDim0 * u32 d.inDim1 * oh.toNat * ow.toNat
    ∃ t, step s = .next t ∧
      (w = 4 → ∀ a,
        (inRanges t.guard.noStore a = true ↔ inRanges s.guard.noStore a = true ∨ within a (u32 d.inAddr) nIn ∨
          within a (u32 d.outAddr) (nOut (s32 d.outH) (s32 d.outW))) ∧
        (inRanges t.guard.noLoad a = true ↔ inRanges s.guard.noLoad a = true ∨
          within a (u32 d.outAddr) (nOut (s32 d.outH) (s32 d.outW)))) ∧
      (w = 5 → u32 d.inRank = 4 → ∀ oh ow, d.resolveSize s.params s.mem = .size oh ow → ∀ a,
        (inRanges t.guard.noStore a = true ↔ inRanges s.guard.noStore a = true ∨ within a (u32 d.inAddr) nIn ∨
          within a (u32 d.outAddr) (nOut oh ow) ∨
          (¬ (0 < s32 d.sizeH ∧ 0 < s32 d.sizeW) ∧ within a (u32 d.sizeAddr) 2)) ∧
        (inRanges t.guard.noLoad a = true ↔ inRanges s.guard.noLoad a = true ∨ within a (u32 d.outAddr) (nOut oh ow))) ∧
      (w = 5 ∧ u32 d.inRank ≠ 4 ∨ (w ≠ 4 ∧ w ≠ 5) → t.guard = s.guard)) ∧
  (∀ s t : State, step s = .next t → (∀ ms, s.moves ≠ .reset :: ms) →
    (∀ ms, s.moves = .regRead 0x01 :: ms → s.status.state ≠ .done ∧ s.status.state ≠ .error) →
    s.guard.noStore ⊆ t.guard.noStore ∧ s.guard.noLoad ⊆ t.guard.noLoad) ∧
  ∀ (s : State) (ms : List Move), s.status.state = .done ∨ s.status.state = .error → s.moves = .regRead 0x01 :: ms →
    ∃ t, step s = .next t ∧ t.guard = Guard.none
end

