-- ==== Sys2Proof/Laws/Memory.lean ====
section
/-! SUPPORT. Tensor memory: a read after a write, the canonical form under every memory operation, and that canonical
memories with equal bytes are equal. -/

namespace Sys2Proof.Machine

/-- The byte just stored is there, and every other byte is as before. -/
theorem Memory.lookup_writeByte (m : Memory) (a : Nat) (v : Byte) (b : Nat) (h : m.wf) :
    (m.writeByte a v).lookup b = if b = a then some v else m.lookup b := by
  induction m with
  | nil => simp only [Memory.writeByte, Memory.lookup, eq_comm]
  | cons p m ih =>
    obtain ⟨c, x⟩ := p
    have hm : Memory.wf m := ⟨h.1.of_cons, fun q hq => h.2 q (List.mem_cons_of_mem _ hq)⟩
    unfold Memory.writeByte
    split
    · rename_i hac
      simp only [Memory.lookup, eq_comm]
    · split
      · rename_i _ hac
        subst hac
        by_cases hb : b = a
        · subst hb; simp [Memory.lookup]
        · simp [Memory.lookup, hb, Ne.symm hb]
      · rename_i hn hne
        simp only [Memory.lookup, ih hm]
        by_cases hcb : c = b
        · subst hcb; simp [Ne.symm hne]
        · simp [hcb]

theorem Memory.readByte_writeByte (m : Memory) (a : Nat) (v : Byte) (b : Nat) (h : m.wf) :
    (m.writeByte a v).readByte b = if b = a then v else m.readByte b := by
  unfold Memory.readByte
  rw [Memory.lookup_writeByte m a v b h]
  split <;> rfl

/-- An address in a memory after a write was in it before, or is the one written. -/
theorem Memory.mem_writeByte {m : Memory} {a : Nat} {v : Byte} {p : Host.Cell} (h : p ∈ m.writeByte a v) :
    p = (a, v) ∨ p ∈ m := by
  induction m with
  | nil => simpa [Memory.writeByte] using h
  | cons q m ih =>
    obtain ⟨c, x⟩ := q
    unfold Memory.writeByte at h
    split at h
    · simpa using h
    · split at h
      · rcases List.mem_cons.1 h with h | h
        · exact .inl h
        · exact .inr (List.mem_cons_of_mem _ h)
      · rcases List.mem_cons.1 h with h | h
        · exact .inr (h ▸ List.mem_cons_self ..)
        · exact (ih h).imp_right (List.mem_cons_of_mem _)

/-- Storing a byte inside the address space keeps the canonical form. -/
theorem Memory.wf_writeByte {m : Memory} {a : Nat} {v : Byte} (h : m.wf) (ha : a < 4 * 2 ^ 32) :
    (m.writeByte a v).wf := by
  refine ⟨?_, fun p hp => ?_⟩
  · induction m with
    | nil => simp [Memory.writeByte]
    | cons q m ih =>
      obtain ⟨c, x⟩ := q
      have hm : Memory.wf m := ⟨h.1.of_cons, fun q hq => h.2 q (List.mem_cons_of_mem _ hq)⟩
      have hq := (List.pairwise_cons.1 h.1).1
      unfold Memory.writeByte
      split
      · rename_i hac
        refine List.pairwise_cons.2 ⟨fun p hp => ?_, h.1⟩
        rcases List.mem_cons.1 hp with rfl | hp
        · exact hac
        · exact lt_trans hac (hq p hp)
      · split
        · rename_i _ hac
          subst hac
          exact List.pairwise_cons.2 ⟨hq, hm.1⟩
        · rename_i hn hne
          refine List.pairwise_cons.2 ⟨fun p hp => ?_, ih hm⟩
          rcases Memory.mem_writeByte hp with rfl | hp
          · exact lt_of_le_of_ne (Nat.le_of_not_lt hn) (Ne.symm hne)
          · exact hq p hp
  · rcases Memory.mem_writeByte hp with rfl | hp
    · exact ha
    · exact h.2 p hp

/-- Storing an element of the address space keeps the canonical form. -/
theorem Memory.wf_writeElem {m : Memory} {a : Nat} {v : Word} (h : m.wf) (ha : a < 2 ^ 32) : (m.writeElem a v).wf :=
  Memory.wf_writeByte (Memory.wf_writeByte (Memory.wf_writeByte (Memory.wf_writeByte h (by omega)) (by omega))
    (by omega)) (by omega)

/-- What a byte of memory holds after an element has been stored. -/
theorem Memory.readByte_writeElem (m : Memory) (a : Nat) (v : Word) (b : Nat) (h : m.wf) (ha : a < 2 ^ 32) :
    (m.writeElem a v).readByte b =
      if b = 4 * a + 3 then v.extractLsb' 24 8
      else if b = 4 * a + 2 then v.extractLsb' 16 8
      else if b = 4 * a + 1 then v.extractLsb' 8 8
      else if b = 4 * a then v.extractLsb' 0 8
      else m.readByte b := by
  have h0 : (m.writeByte (4 * a) (v.extractLsb' 0 8)).wf := Memory.wf_writeByte h (by omega)
  have h1 := Memory.wf_writeByte (v := v.extractLsb' 8 8) h0 (a := 4 * a + 1) (by omega)
  have h2 := Memory.wf_writeByte (v := v.extractLsb' 16 8) h1 (a := 4 * a + 2) (by omega)
  unfold Memory.writeElem
  rw [Memory.readByte_writeByte _ _ _ _ h2, Memory.readByte_writeByte _ _ _ _ h1, Memory.readByte_writeByte _ _ _ _ h0,
    Memory.readByte_writeByte _ _ _ _ h]

/-- R41: a read returns the pattern last stored there, and a store leaves every other element as it was. -/
theorem Memory.readElem_writeElem (m : Memory) (a : Nat) (v : Word) (b : Nat) (h : m.wf) (ha : a < 2 ^ 32) :
    (m.writeElem a v).readElem b = if b = a then v else m.readElem b := by
  unfold Memory.readElem
  simp only [Memory.readByte_writeElem m a v _ h ha]
  by_cases hb : b = a
  · subst hb
    simp only [if_true, show ¬ (4 * b = 4 * b + 3) by omega, show ¬ (4 * b = 4 * b + 2) by omega,
      show ¬ (4 * b = 4 * b + 1) by omega, show ¬ (4 * b + 1 = 4 * b + 3) by omega,
      show ¬ (4 * b + 1 = 4 * b + 2) by omega, show ¬ (4 * b + 2 = 4 * b + 3) by omega, if_false]
    ext i hi
    simp only [BitVec.getElem_append, BitVec.getElem_extractLsb']
    by_cases h8 : i < 8
    · simp [h8, BitVec.getLsbD_eq_getElem hi]
    · by_cases h16 : i < 16
      · simp [h8, show i - 8 < 8 by omega, show 8 + (i - 8) = i by omega, BitVec.getLsbD_eq_getElem hi]
      · by_cases h24 : i < 24
        · simp [h8, show ¬ i - 8 < 8 by omega, show i - 8 - 8 < 8 by omega, show 16 + (i - 8 - 8) = i by omega,
            BitVec.getLsbD_eq_getElem hi]
        · simp [h8, show ¬ i - 8 < 8 by omega, show ¬ i - 8 - 8 < 8 by omega, show 24 + (i - 8 - 8 - 8) = i by omega,
            BitVec.getLsbD_eq_getElem hi]
  · simp only [hb, if_false, show ¬ (4 * b = 4 * a + 3) by omega, show ¬ (4 * b = 4 * a + 2) by omega,
      show ¬ (4 * b = 4 * a + 1) by omega, show ¬ (4 * b = 4 * a) by omega, show ¬ (4 * b + 1 = 4 * a + 3) by omega,
      show ¬ (4 * b + 1 = 4 * a + 2) by omega, show ¬ (4 * b + 1 = 4 * a + 1) by omega,
      show ¬ (4 * b + 1 = 4 * a) by omega, show ¬ (4 * b + 2 = 4 * a + 3) by omega,
      show ¬ (4 * b + 2 = 4 * a + 2) by omega, show ¬ (4 * b + 2 = 4 * a + 1) by omega,
      show ¬ (4 * b + 2 = 4 * a) by omega, show ¬ (4 * b + 3 = 4 * a + 3) by omega,
      show ¬ (4 * b + 3 = 4 * a + 2) by omega, show ¬ (4 * b + 3 = 4 * a + 1) by omega,
      show ¬ (4 * b + 3 = 4 * a) by omega]

/-- An address below every listed one is not listed. -/
theorem Memory.lookup_eq_none_of_lt {m : Memory} {a : Nat} (h : ∀ p ∈ m, a < p.1) : m.lookup a = none := by
  induction m with
  | nil => rfl
  | cons q m ih =>
    obtain ⟨c, x⟩ := q
    have hc : a < c := h _ (List.mem_cons_self ..)
    simp only [Memory.lookup, if_neg (Nat.ne_of_gt hc)]
    exact ih fun p hp => h p (List.mem_cons_of_mem _ hp)

/-- Canonical memories that list the same bytes are equal. -/
theorem Memory.ext_lookup {m n : Memory} (hm : m.wf) (hn : n.wf) (h : ∀ a, m.lookup a = n.lookup a) : m = n := by
  induction m generalizing n with
  | nil =>
    cases n with
    | nil => rfl
    | cons q n =>
      have := h q.1
      simp [Memory.lookup] at this
  | cons p m ih =>
    cases n with
    | nil =>
      have := h p.1
      simp [Memory.lookup] at this
    | cons q n =>
      obtain ⟨a, x⟩ := p
      obtain ⟨b, y⟩ := q
      have hpa := (List.pairwise_cons.1 hm.1).1
      have hqb := (List.pairwise_cons.1 hn.1).1
      have hm' : Memory.wf m := ⟨hm.1.of_cons, fun q hq => hm.2 q (List.mem_cons_of_mem _ hq)⟩
      have hn' : Memory.wf n := ⟨hn.1.of_cons, fun q hq => hn.2 q (List.mem_cons_of_mem _ hq)⟩
      have key : a = b := by
        rcases Nat.lt_trichotomy a b with hab | hab | hab
        · have h1 := h a
          rw [Memory.lookup_eq_none_of_lt (m := (b, y) :: n) (a := a) (by
            intro p hp
            rcases List.mem_cons.1 hp with rfl | hp
            · exact hab
            · exact lt_trans hab (hqb p hp))] at h1
          simp [Memory.lookup] at h1
        · exact hab
        · have h1 := h b
          rw [Memory.lookup_eq_none_of_lt (m := (a, x) :: m) (a := b) (by
            intro p hp
            rcases List.mem_cons.1 hp with rfl | hp
            · exact hab
            · exact lt_trans hab (hpa p hp))] at h1
          simp [Memory.lookup] at h1
      subst key
      have hxy : x = y := by
        have h1 := h a
        simpa [Memory.lookup] using h1
      subst hxy
      congr 1
      refine ih hm' hn' fun c => ?_
      by_cases hc : a = c
      · subst hc
        rw [Memory.lookup_eq_none_of_lt hpa, Memory.lookup_eq_none_of_lt hqb]
      · have h1 := h c
        simpa [Memory.lookup, hc] using h1

/-- The memory after reset is in canonical form. -/
theorem reset_memory_wf : State.reset.mem.wf := ⟨List.Pairwise.nil, fun _ h => nomatch h⟩

end Sys2Proof.Machine
end

