-- ==== Sys2Proof/Laws/State.lean ====
section
/-! SUPPORT. What each update of the state does to each field, and what each status update does to each field: true by
unfolding once, so that no proof unfolds an update. -/

namespace Sys2Proof.Machine

section updates

variable (s : State)

@[simp] theorem ensureTable_regs (t : Table) : (ensureTable t s).regs = s.regs := rfl
@[simp] theorem ensureTable_status (t : Table) : (ensureTable t s).status = s.status.setValid t := rfl
@[simp] theorem ensureTable_mem (t : Table) : (ensureTable t s).mem = s.mem := rfl
@[simp] theorem ensureTable_inflight (t : Table) : (ensureTable t s).inflight = s.inflight := rfl
@[simp] theorem ensureTable_guard (t : Table) : (ensureTable t s).guard = s.guard := rfl
@[simp] theorem ensureTable_params (t : Table) : (ensureTable t s).params = s.params := rfl
@[simp] theorem ensureTable_free (t : Table) : (ensureTable t s).free = s.free := rfl
@[simp] theorem ensureTable_moves (t : Table) : (ensureTable t s).moves = s.moves := rfl
@[simp] theorem ensureTable_reads (t : Table) : (ensureTable t s).reads = s.reads := rfl

@[simp] theorem raise_regs (e : ErrCode) : (raise e s).regs = s.regs := rfl
@[simp] theorem raise_status (e : ErrCode) : (raise e s).status = s.status.raised e := rfl
@[simp] theorem raise_mem (e : ErrCode) : (raise e s).mem = s.mem := rfl
@[simp] theorem raise_inflight (e : ErrCode) : (raise e s).inflight = none := rfl
@[simp] theorem raise_guard (e : ErrCode) : (raise e s).guard = s.guard := rfl
@[simp] theorem raise_params (e : ErrCode) : (raise e s).params = s.params := rfl
@[simp] theorem raise_free (e : ErrCode) : (raise e s).free = s.free := rfl
@[simp] theorem raise_moves (e : ErrCode) : (raise e s).moves = s.moves := rfl
@[simp] theorem raise_reads (e : ErrCode) : (raise e s).reads = s.reads := rfl

@[simp] theorem completed_regs : (completed s).regs = s.regs := rfl
@[simp] theorem completed_status : (completed s).status = s.status.completed := rfl
@[simp] theorem completed_mem : (completed s).mem = s.mem := rfl
@[simp] theorem completed_inflight : (completed s).inflight = none := rfl
@[simp] theorem completed_guard : (completed s).guard = s.guard := rfl
@[simp] theorem completed_params : (completed s).params = s.params := rfl
@[simp] theorem completed_free : (completed s).free = s.free := rfl
@[simp] theorem completed_moves : (completed s).moves = s.moves := rfl
@[simp] theorem completed_reads : (completed s).reads = s.reads := rfl

@[simp] theorem accept_regs (w : Word) : (accept w s).regs = s.regs := rfl
@[simp] theorem accept_status (w : Word) : (accept w s).status = s.status.accepted := rfl
@[simp] theorem accept_mem (w : Word) : (accept w s).mem = s.mem := rfl
@[simp] theorem accept_inflight (w : Word) :
    (accept w s).inflight = some { word := w, desc := s.regs, tick := s.free, work := none } := rfl
@[simp] theorem accept_guard (w : Word) :
    (accept w s).guard = s.guard.add (wordTensors w s.regs s.params s.mem) := rfl
@[simp] theorem accept_params (w : Word) : (accept w s).params = s.params := rfl
@[simp] theorem accept_free (w : Word) : (accept w s).free = s.free + 1 := rfl
@[simp] theorem accept_moves (w : Word) : (accept w s).moves = s.moves := rfl
@[simp] theorem accept_reads (w : Word) : (accept w s).reads = s.reads := rfl

@[simp] theorem resetEvent_regs : (resetEvent s).regs = Regs.reset := rfl
@[simp] theorem resetEvent_status : (resetEvent s).status = Status.reset := rfl
@[simp] theorem resetEvent_mem : (resetEvent s).mem = s.mem := rfl
@[simp] theorem resetEvent_inflight : (resetEvent s).inflight = none := rfl
@[simp] theorem resetEvent_guard : (resetEvent s).guard = Guard.none := rfl
@[simp] theorem resetEvent_params : (resetEvent s).params = s.params := rfl
@[simp] theorem resetEvent_free : (resetEvent s).free = s.free := rfl
@[simp] theorem resetEvent_moves : (resetEvent s).moves = s.moves := rfl
@[simp] theorem resetEvent_reads : (resetEvent s).reads = s.reads := rfl

@[simp] theorem returned_regs (d : Word) : (returned d s).regs = s.regs := rfl
@[simp] theorem returned_status (d : Word) : (returned d s).status = s.status := rfl
@[simp] theorem returned_mem (d : Word) : (returned d s).mem = s.mem := rfl
@[simp] theorem returned_inflight (d : Word) : (returned d s).inflight = s.inflight := rfl
@[simp] theorem returned_guard (d : Word) : (returned d s).guard = s.guard := rfl
@[simp] theorem returned_params (d : Word) : (returned d s).params = s.params := rfl
@[simp] theorem returned_free (d : Word) : (returned d s).free = s.free := rfl
@[simp] theorem returned_moves (d : Word) : (returned d s).moves = s.moves := rfl
@[simp] theorem returned_reads (d : Word) : (returned d s).reads = d :: s.reads := rfl

@[simp] theorem endSeen_regs (n : Reg) : (endSeen n s).regs = s.regs := by unfold endSeen; split <;> rfl
@[simp] theorem endSeen_status (n : Reg) : (endSeen n s).status = s.status := by unfold endSeen; split <;> rfl
@[simp] theorem endSeen_mem (n : Reg) : (endSeen n s).mem = s.mem := by unfold endSeen; split <;> rfl
@[simp] theorem endSeen_inflight (n : Reg) : (endSeen n s).inflight = s.inflight := by unfold endSeen; split <;> rfl
@[simp] theorem endSeen_params (n : Reg) : (endSeen n s).params = s.params := by unfold endSeen; split <;> rfl
@[simp] theorem endSeen_free (n : Reg) : (endSeen n s).free = s.free := by unfold endSeen; split <;> rfl
@[simp] theorem endSeen_moves (n : Reg) : (endSeen n s).moves = s.moves := by unfold endSeen; split <;> rfl
@[simp] theorem endSeen_reads (n : Reg) : (endSeen n s).reads = s.reads := by unfold endSeen; split <;> rfl
@[simp] theorem endSeen_guard (n : Reg) : (endSeen n s).guard =
    if n = .status ∧ (s.status.state = .done ∨ s.status.state = .error) then Guard.none else s.guard := by
  unfold endSeen; split <;> rfl

@[simp] theorem withWork_regs (f : InFlight) (w : Work) : (withWork f w s).regs = s.regs := rfl
@[simp] theorem withWork_status (f : InFlight) (w : Work) : (withWork f w s).status = s.status := rfl
@[simp] theorem withWork_mem (f : InFlight) (w : Work) : (withWork f w s).mem = s.mem := rfl
@[simp] theorem withWork_inflight (f : InFlight) (w : Work) :
    (withWork f w s).inflight = some { f with work := some w } := rfl
@[simp] theorem withWork_guard (f : InFlight) (w : Work) : (withWork f w s).guard = s.guard := rfl
@[simp] theorem withWork_params (f : InFlight) (w : Work) : (withWork f w s).params = s.params := rfl
@[simp] theorem withWork_free (f : InFlight) (w : Work) : (withWork f w s).free = s.free := rfl
@[simp] theorem withWork_moves (f : InFlight) (w : Work) : (withWork f w s).moves = s.moves := rfl
@[simp] theorem withWork_reads (f : InFlight) (w : Work) : (withWork f w s).reads = s.reads := rfl

@[simp] theorem joinResize_regs (j : Job) : (joinResize j s).regs = s.regs := rfl
@[simp] theorem joinResize_status (j : Job) : (joinResize j s).status = s.status.completed := rfl
@[simp] theorem joinResize_mem (j : Job) : (joinResize j s).mem = s.mem := rfl
@[simp] theorem joinResize_inflight (j : Job) : (joinResize j s).inflight = none := rfl
@[simp] theorem joinResize_guard (j : Job) : (joinResize j s).guard = s.guard := rfl
@[simp] theorem joinResize_params (j : Job) : (joinResize j s).params = s.params := rfl
@[simp] theorem joinResize_free (j : Job) : (joinResize j s).free = s.free := rfl
@[simp] theorem joinResize_moves (j : Job) : (joinResize j s).moves = s.moves := rfl
@[simp] theorem joinResize_reads (j : Job) : (joinResize j s).reads = s.reads := rfl

@[simp] theorem joinRun_regs (j : Job) :
    (joinRun j s).regs = { s.regs with
      outH := BitVec.ofNat 32 j.oh, outW := BitVec.ofNat 32 j.ow, hScale := j.hs, wScale := j.ws } := rfl
@[simp] theorem joinRun_status (j : Job) : (joinRun j s).status = s.status.completed := rfl
@[simp] theorem joinRun_mem (j : Job) : (joinRun j s).mem = s.mem := rfl
@[simp] theorem joinRun_inflight (j : Job) : (joinRun j s).inflight = none := rfl
@[simp] theorem joinRun_guard (j : Job) : (joinRun j s).guard = s.guard := rfl
@[simp] theorem joinRun_params (j : Job) : (joinRun j s).params = s.params := rfl
@[simp] theorem joinRun_free (j : Job) : (joinRun j s).free = s.free := rfl
@[simp] theorem joinRun_moves (j : Job) : (joinRun j s).moves = s.moves := rfl
@[simp] theorem joinRun_reads (j : Job) : (joinRun j s).reads = s.reads := rfl

@[simp] theorem forkJob_regs (j : Job) : (forkJob j s).regs = s.regs := rfl
@[simp] theorem forkJob_status (j : Job) :
    (forkJob j s).status = (if j.copy then s else ensureTable (sel j.mode) s).status := rfl
@[simp] theorem forkJob_mem (j : Job) : (forkJob j s).mem = s.mem := rfl
@[simp] theorem forkJob_inflight (j : Job) :
    (forkJob j s).inflight = some {
      word := (s.inflight.map (·.word)).getD 0, desc := s.operands, tick := s.tick
      work := some ⟨j, j.order, List.replicate s.params.nw .idle⟩ } := rfl
@[simp] theorem forkJob_guard (j : Job) : (forkJob j s).guard = s.guard := rfl
@[simp] theorem forkJob_params (j : Job) : (forkJob j s).params = s.params := rfl
@[simp] theorem forkJob_free (j : Job) : (forkJob j s).free = s.free := rfl
@[simp] theorem forkJob_moves (j : Job) : (forkJob j s).moves = s.moves := rfl
@[simp] theorem forkJob_reads (j : Job) : (forkJob j s).reads = s.reads := rfl

@[simp] theorem presentWord_regs (w : Word) : (presentWord w s).regs = s.regs := rfl
@[simp] theorem presentWord_status (w : Word) : (presentWord w s).status = s.status.accepted := rfl
@[simp] theorem presentWord_mem (w : Word) : (presentWord w s).mem = s.mem := rfl
@[simp] theorem presentWord_inflight (w : Word) :
    (presentWord w s).inflight = some { word := w, desc := s.regs, tick := s.free, work := none } := rfl
@[simp] theorem presentWord_guard (w : Word) :
    (presentWord w s).guard = s.guard.add (wordTensors w s.regs s.params s.mem) := rfl
@[simp] theorem presentWord_params (w : Word) : (presentWord w s).params = s.params := rfl
@[simp] theorem presentWord_free (w : Word) : (presentWord w s).free = s.free + 1 := rfl
@[simp] theorem presentWord_moves (w : Word) : (presentWord w s).moves = .complete :: s.moves := rfl
@[simp] theorem presentWord_reads (w : Word) : (presentWord w s).reads = s.reads := rfl

@[simp] theorem Guard.add_none (g : Guard) : g.add Guard.none = g := by
  unfold Guard.add Guard.none; simp

@[simp] theorem Guard.add_noStore (g h : Guard) : (g.add h).noStore = g.noStore ++ h.noStore := rfl
@[simp] theorem Guard.add_noLoad (g h : Guard) : (g.add h).noLoad = g.noLoad ++ h.noLoad := rfl

end updates

section status

variable (st : Status)

@[simp] theorem Status.raised_state (e : ErrCode) : (st.raised e).state = .error := rfl
@[simp] theorem Status.raised_tabValid0 (e : ErrCode) : (st.raised e).tabValid0 = st.tabValid0 := rfl
@[simp] theorem Status.raised_tabValid1 (e : ErrCode) : (st.raised e).tabValid1 = st.tabValid1 := rfl
@[simp] theorem Status.raised_errCode (e : ErrCode) : (st.raised e).errCode = e.code := rfl
@[simp] theorem Status.raised_valid (e : ErrCode) (t : Table) : (st.raised e).valid t = st.valid t := by cases t <;> rfl

@[simp] theorem Status.completed_state : st.completed.state = .done := rfl
@[simp] theorem Status.completed_tabValid0 : st.completed.tabValid0 = st.tabValid0 := rfl
@[simp] theorem Status.completed_tabValid1 : st.completed.tabValid1 = st.tabValid1 := rfl
@[simp] theorem Status.completed_errCode : st.completed.errCode = 0 := rfl
@[simp] theorem Status.completed_valid (t : Table) : st.completed.valid t = st.valid t := by cases t <;> rfl

@[simp] theorem Status.accepted_state : st.accepted.state = .busy := rfl
@[simp] theorem Status.accepted_tabValid0 : st.accepted.tabValid0 = st.tabValid0 := rfl
@[simp] theorem Status.accepted_tabValid1 : st.accepted.tabValid1 = st.tabValid1 := rfl
@[simp] theorem Status.accepted_errCode : st.accepted.errCode = 0 := rfl
@[simp] theorem Status.accepted_valid (t : Table) : st.accepted.valid t = st.valid t := by cases t <;> rfl

@[simp] theorem Status.setValid_state (t : Table) : (st.setValid t).state = st.state := by cases t <;> rfl

@[simp] theorem Status.setValid_errCode (t : Table) : (st.setValid t).errCode = st.errCode := by cases t <;> rfl

/-- Setting the valid bit of a table sets that one and no other (R84). -/
@[simp] theorem Status.setValid_valid (t u : Table) : (st.setValid t).valid u = (st.valid u || decide (u = t)) := by
  cases t <;> cases u <;> simp [Status.setValid, Status.valid]

end status

end Sys2Proof.Machine
end

