-- ==== Sys2Proof/Laws/Ops.lean ====
section
/-! SUPPORT. What each shared operation can do, said once: register transactions, `runPlan` (the frame of `RESIZE` and
`RUN`), the commands' outcomes, and the moves inside a command. Proofs cite these instead of unfolding the operations. -/

namespace Sys2Proof.Machine

/-- The decoder in terms of the word's two fields (R61, R62). -/
theorem decode_fields (w : Word) :
    decode w = if w.extractLsb' 8 24 = 0 then decodeOp (w.extractLsb' 0 8) else .error .reservedField := rfl

/-- A write to `CMD` (R13). -/
theorem writeIndex_cmd (w : Word) (s : State) :
    writeIndex 0x00 w s = if s.status.state = .ready ∨ s.status.state = .done then accept w s else s := rfl

/-- The step performs the move at the head of the list. -/
theorem step_cons {s : State} {m : Move} {ms : List Move} (h : s.moves = m :: ms) :
    step s = perform m { s with moves := ms } := by
  simp only [step, nextMove, h]

/-- With no move listed the step completes the command in progress. -/
theorem step_nil {s : State} (h : s.moves = []) : step s = completeMove s := by
  simp only [step, nextMove, h]

/-- A register write is dropped, starts a command, or stores one `RW` register. -/
theorem writeIndex_cases (idx : BitVec 8) (data : Word) (s : State) :
    writeIndex idx data s = s ∨
      (writeIndex idx data s = accept data s ∧ (s.status.state = .ready ∨ s.status.state = .done)) ∨
      ∃ n, Reg.ofIndex idx = some n ∧ n.access = .rw ∧ s.status.state ≠ .busy ∧
        writeIndex idx data s = { s with regs := s.regs.set n data } := by
  unfold writeIndex
  cases h : Reg.ofIndex idx with
  | none => exact .inl rfl
  | some n =>
    cases ha : n.access with
    | ro => simp [ha]
    | wo =>
      by_cases hs : s.status.state = .ready ∨ s.status.state = .done
      · exact .inr (.inl ⟨by simp [ha, hs], hs⟩)
      · exact .inl (by simp [ha, hs])
    | rw =>
      by_cases hs : s.status.state = .busy
      · exact .inl (by simp [ha, hs])
      · exact .inr (.inr ⟨n, rfl, ha, hs, by simp [ha, hs]⟩)

/-- A register read records one datum and may use up one free value; it changes nothing else, but that the read of
`STATUS` showing the end of a command ends the ban of R166. -/
theorem regReadMove_spec (idx : BitVec 8) (s : State) :
    ∃ d k g, regReadMove idx s = { s with reads := d :: s.reads, free := s.free + k, guard := g } ∧
      (g = s.guard ∨
        g = Guard.none ∧ Reg.ofIndex idx = some .status ∧ (s.status.state = .done ∨ s.status.state = .error)) := by
  unfold regReadMove
  cases Reg.ofIndex idx with
  | none => exact ⟨_, 0, _, rfl, .inl rfl⟩
  | some n =>
    simp only
    split
    · exact ⟨_, 1, _, rfl, .inl rfl⟩
    · unfold endSeen
      split
      · rename_i h
        exact ⟨_, 0, _, rfl, .inr ⟨rfl, by rw [h.1], h.2⟩⟩
      · exact ⟨_, 0, _, rfl, .inl rfl⟩

/-- An address is in one of the ranges exactly when some range of the list contains it. -/
theorem inRanges_iff {rs : List (Nat × Nat)} {a : Nat} : inRanges rs a = true ↔ ∃ r ∈ rs, r.1 ≤ a ∧ a < r.2 := by
  simp [inRanges]

@[simp] theorem inRanges_nil (a : Nat) : inRanges [] a = false := rfl

@[simp] theorem inRanges_cons (r : Nat × Nat) (rs : List (Nat × Nat)) (a : Nat) :
    inRanges (r :: rs) a = true ↔ (r.1 ≤ a ∧ a < r.2) ∨ inRanges rs a = true := by
  simp [inRanges]

@[simp] theorem inRanges_append (rs qs : List (Nat × Nat)) (a : Nat) :
    inRanges (rs ++ qs) a = true ↔ inRanges rs a = true ∨ inRanges qs a = true := by
  simp [inRanges]

/-- A stored register reads back the value set, `CFG` its two low bits; `CMD` and `STATUS` store nothing. -/
theorem Regs.get_set_self (r : Regs) (n : Reg) (v : Word) :
    (r.set n v).get n =
      match n with
      | .cmd => 0
      | .status => 0
      | .cfg => (v.setWidth 2).setWidth 32
      | _ => v := by
  cases n <;> rfl

/-- Setting a register leaves every other register as it was. -/
theorem Regs.get_set_other (r : Regs) (n m : Reg) (v : Word) (h : m ≠ n) : (r.set n v).get m = r.get m := by
  cases n <;> first | rfl | (cases m <;> first | rfl | exact absurd rfl h)

/-- An index selects a register exactly when it is that register's (R11). -/
theorem Reg.ofIndex_index (n : Reg) : Reg.ofIndex n.index = some n := by cases n <;> rfl

/-- `finishWork` answers next exactly when every address it needs is backed. -/
theorem finishWork_next {j : Job} {todo : List Item} {join : Job → State → State} {s t : State} :
    finishWork j todo join s = .next t ↔
      todo.all (Item.backed s.params j) = true ∧
        t = join j { s with mem := writeItems s.params j s.tick todo s.mem } := by
  unfold finishWork
  split
  · rename_i h
    constructor
    · intro e; exact ⟨h, by injection e with e; exact e.symm⟩
    · rintro ⟨-, rfl⟩; rfl
  · rename_i h
    constructor
    · intro e; cases e
    · exact fun e => absurd e.1 h

/-- What a `RESIZE` or `RUN` can come to: it finishes what had forked, or its first failing check is raised, or it forks
and finishes. -/
theorem runPlan_next {plan : State → Plan} {join : Job → State → State} {s t : State}
    (h : runPlan plan join s = .next t) :
    (∃ w, s.work = some w ∧ finishWork w.job w.todo join s = .next t) ∨
      (s.work = none ∧ ∃ e, plan s = .error e ∧ t = raise e s) ∨
      (s.work = none ∧ ∃ j, plan s = .job j ∧ finishWork j j.order join (forkJob j s) = .next t) := by
  unfold runPlan at h
  cases hw : s.work with
  | some w => simp only [hw] at h; exact .inl ⟨w, rfl, h⟩
  | none =>
    simp only [hw] at h
    cases hp : plan s with
    | error e => simp only [hp] at h; injection h with h; exact .inr (.inl ⟨rfl, e, rfl, h.symm⟩)
    | unbacked => simp only [hp] at h; cases h
    | job j => simp only [hp] at h; exact .inr (.inr ⟨rfl, j, rfl, h⟩)

/-- The checks of a command pass only for a job whose geometry is good and whose coordinates are finite. -/
theorem checkJob_job {j k : Job} (h : checkJob j = .job k) :
    k = j ∧ checkGeometry j = none ∧ (j.copy = true ∨ coordsFinite j = true) := by
  unfold checkJob at h
  cases hg : checkGeometry j with
  | some e => simp [hg] at h
  | none =>
    simp only [hg] at h
    split at h
    · rename_i hc
      injection h with h
      exact ⟨h.symm, rfl, by simpa using hc⟩
    · cases h

/-- The errors the last checks can raise (R114, R115, R116). -/
theorem checkJob_error {j : Job} {e : ErrCode} (h : checkJob j = .error e) :
    checkGeometry j = some e ∨ (checkGeometry j = none ∧ j.copy = false ∧ coordsFinite j = false ∧ e = .nonFinite) := by
  unfold checkJob at h
  cases hg : checkGeometry j with
  | some e' => simp only [hg] at h; injection h with h; exact .inl (by rw [h])
  | none =>
    simp only [hg] at h
    split at h
    · cases h
    · rename_i hc
      injection h with h
      have hc' : j.copy = false ∧ coordsFinite j = false := by simpa using hc
      exact .inr ⟨rfl, hc'.1, hc'.2, h.symm⟩

/-- `checkJob` never stops for want of a backed address. -/
theorem checkJob_ne_unbacked (j : Job) : checkJob j ≠ .unbacked := by
  unfold checkJob
  split
  · simp
  · split <;> simp

/-- What memory is after output elements have been written: the canonical form is kept. -/
theorem writeItems_wf {p : Params} {j : Job} {tick : Nat} {todo : List Item} {m : Memory} (h : m.wf)
    (hb : todo.all (Item.backed p j) = true) : (writeItems p j tick todo m).wf := by
  induction todo generalizing m with
  | nil => exact h
  | cons it todo ih =>
    simp only [List.all_cons, Bool.and_eq_true] at hb
    have ha : it.addr j < 2 ^ 32 := by
      have := hb.1
      simp only [Item.backed, addrBacked, Bool.and_eq_true, decide_eq_true_eq] at this
      exact this.2.1
    exact ih (Memory.wf_writeElem h ha) hb.2

/-- The shape of every outcome of a command that answers next. -/
def Ended (s t : State) : Prop :=
  t.inflight = none ∧ t.guard = s.guard ∧ t.params = s.params ∧ t.free = s.free ∧ t.moves = s.moves ∧ t.reads = s.reads ∧
    ((t.status.state = .done ∧ t.status.errCode = 0) ∨ ∃ e, t = raise e s)

theorem ended_raise (e : ErrCode) (s : State) : Ended s (raise e s) := ⟨rfl, rfl, rfl, rfl, rfl, rfl, .inr ⟨e, rfl⟩⟩

/-- Whatever a command does, it ends with no command in progress, in `DONE` with no error code or in `ERROR` with one,
and it leaves the ban of R166, the parameters, the free-value counter and the record of the host's transactions alone. -/
theorem exec_next {i : Instr} {s t : State} (h : exec i s = .next t) : Ended s t := by
  have done : ∀ {u : State}, u.guard = s.guard → u.params = s.params → u.free = s.free → u.moves = s.moves →
      u.reads = s.reads → Ended s (completed u) := fun g a b c d => ⟨rfl, g, a, b, c, d, .inl ⟨rfl, rfl⟩⟩
  cases i with
  | gettab =>
    simp only [exec, execGettab] at h
    split at h
    · injection h with h; subst h; exact ended_raise _ _
    · split at h <;> (injection h with h; subst h)
      · exact ended_raise _ _
      · exact done rfl rfl rfl rfl rfl
  | locate =>
    simp only [exec, execLocate] at h
    split at h
    · injection h with h; subst h; exact ended_raise _ _
    · split at h
      · injection h with h; subst h; exact ended_raise _ _
      · split at h <;> (injection h with h; subst h)
        · exact done rfl rfl rfl rfl rfl
        · exact ended_raise _ _
  | interp =>
    simp only [exec, execInterp] at h
    injection h with h; subst h
    exact done rfl rfl rfl rfl rfl
  | resize =>
    rcases runPlan_next h with ⟨w, -, h⟩ | ⟨-, e, -, rfl⟩ | ⟨-, j, -, h⟩
    · obtain ⟨-, rfl⟩ := finishWork_next.1 h; exact done rfl rfl rfl rfl rfl
    · exact ended_raise _ _
    · obtain ⟨-, rfl⟩ := finishWork_next.1 h; exact done rfl rfl rfl rfl rfl
  | run =>
    rcases runPlan_next h with ⟨w, -, h⟩ | ⟨-, e, -, rfl⟩ | ⟨-, j, -, h⟩
    · obtain ⟨-, rfl⟩ := finishWork_next.1 h; exact done rfl rfl rfl rfl rfl
    · exact ended_raise _ _
    · obtain ⟨-, rfl⟩ := finishWork_next.1 h; exact done rfl rfl rfl rfl rfl

/-- No command is refused. -/
theorem exec_not_refused (i : Instr) (s : State) (r : Refusal) : exec i s ≠ .refused r := by
  cases i <;> simp only [exec, execGettab, execLocate, execInterp, execResize, execRun, runPlan, finishWork, ne_eq]
  · split <;> (try split) <;> simp
  · split <;> (try split) <;> (try split) <;> simp
  · simp
  · split <;> split <;> (try split) <;> simp
  · split <;> split <;> (try split) <;> simp

/-- A command in progress that selects no instruction ends in `ERROR` (R63); one that selects `i` is `exec i`. -/
theorem completeMove_eq {s : State} {f : InFlight} (h : s.inflight = some f) :
    completeMove s = match decode f.word with
      | .ok i => exec i s
      | .error _ => .next (raise .illegalCmd s) := by
  cases hd : decode f.word <;> simp only [completeMove, h, hd]

/-- What the fork can come to (R116). -/
theorem forkMove_cases {s t : State} (h : forkMove s = .next t) :
    t = s ∨ ∃ f i plan, s.inflight = some f ∧ f.work = none ∧ decode f.word = .ok i ∧ forkPlan i = some plan ∧
      ((∃ e, plan s = .error e ∧ t = raise e s) ∨ ∃ j, plan s = .job j ∧ t = forkJob j s) := by
  unfold forkMove at h
  cases hf : s.inflight with
  | none => simp only [hf] at h; injection h with h; exact .inl h.symm
  | some f =>
    simp only [hf] at h
    cases hw : f.work with
    | some w => simp only [hw] at h; injection h with h; exact .inl h.symm
    | none =>
      cases hd : decode f.word with
      | error e => simp only [hw, hd] at h; injection h with h; exact .inl h.symm
      | ok i =>
        cases hp : forkPlan i with
        | none => simp only [hw, hd, hp] at h; injection h with h; exact .inl h.symm
        | some plan =>
          simp only [hw, hd, hp] at h
          refine .inr ⟨f, i, plan, rfl, hw, hd, hp, ?_⟩
          cases hq : plan s with
          | error e => simp only [hq] at h; injection h with h; exact .inl ⟨e, rfl, h.symm⟩
          | unbacked => simp only [hq] at h; cases h
          | job j => simp only [hq] at h; injection h with h; exact .inr ⟨j, rfl, h.symm⟩

/-- A move inside a forked command acts on its hidden state, or does nothing. -/
theorem forkedMove_cases {act : InFlight → Work → Host.Outcome State Fault Refusal} {s : State}
    {o : Host.Outcome State Fault Refusal} (h : forkedMove act s = o) :
    o = .next s ∨ ∃ f w, s.inflight = some f ∧ f.work = some w ∧ act f w = o := by
  unfold forkedMove at h
  cases hf : s.inflight with
  | none => simp only [hf] at h; exact .inl h.symm
  | some f =>
    cases hw : f.work with
    | none => simp only [hf, hw] at h; exact .inl h.symm
    | some w => simp only [hf, hw] at h; exact .inr ⟨f, w, rfl, hw, h⟩

end Sys2Proof.Machine
end

