-- ==== Sys2Proof/Laws/PerInstr.lean ====
section
/-! SUPPORT. Statements about every command as syntax, one lemma per constructor. -/

namespace Sys2Proof.Laws

/-- The word of a command passes both checks of R61 and R62, and is read back as the command. -/
def CommandWord.Statement (i : Instr) : Prop :=
  i.wellFormed = true ∧ (CmdWord.ofWord (encode i)).wellFormed = true ∧ decode (encode i) = .ok i

theorem CommandWord.gettab : CommandWord.Statement .gettab := ⟨rfl, rfl, rfl⟩
theorem CommandWord.locate : CommandWord.Statement .locate := ⟨rfl, rfl, rfl⟩
theorem CommandWord.interp : CommandWord.Statement .interp := ⟨rfl, rfl, rfl⟩
theorem CommandWord.resize : CommandWord.Statement .resize := ⟨rfl, rfl, rfl⟩
theorem CommandWord.run : CommandWord.Statement .run := ⟨rfl, rfl, rfl⟩

end Sys2Proof.Laws
end

