-- ==== Sys2Proof/Laws/Tensor.lean ====
section
/-! SUPPORT. The places of tensor elements: every element of a tensor lies inside its range, no two share a place (R42),
the taps of an axis sample are inside the input, and the output elements of a job are what its loops list (R117, R130). -/

namespace Sys2Proof.Machine

/-- A digit below its radix: `i * n + k` stays below `m * n` for `i < m`, `k < n`. -/
theorem mul_add_lt_mul {i k m n : Nat} (hi : i < m) (hk : k < n) : i * n + k < m * n :=
  calc i * n + k < i * n + n := by omega
    _ = (i + 1) * n := by ring
    _ ≤ m * n := Nat.mul_le_mul_right n hi

/-- Two digit strings with one value have the same digits. -/
theorem mul_add_inj {i k i' k' n : Nat} (hk : k < n) (hk' : k' < n) (h : i * n + k = i' * n + k') : i = i' ∧ k = k' := by
  have hi : i = i' := by
    have h1 : (i * n + k) / n = i := by
      rw [Nat.mul_comm, Nat.mul_add_div (by omega), Nat.div_eq_of_lt hk, Nat.add_zero]
    have h2 : (i' * n + k') / n = i' := by
      rw [Nat.mul_comm, Nat.mul_add_div (by omega), Nat.div_eq_of_lt hk', Nat.add_zero]
    rw [← h1, ← h2, h]
  subst hi
  exact ⟨rfl, by omega⟩

/-- Every element of a tensor lies in its range (R42). -/
theorem elemAddr_range {base B C H W b c y x : Nat} (hb : b < B) (hc : c < C) (hy : y < H) (hx : x < W) :
    base ≤ elemAddr base C H W b c y x ∧ elemAddr base C H W b c y x < base + B * C * H * W :=
  ⟨by unfold elemAddr; omega, by
    unfold elemAddr
    rw [Nat.add_assoc]
    exact Nat.add_lt_add_left (mul_add_lt_mul (mul_add_lt_mul (mul_add_lt_mul hb hc) hy) hx) base⟩

/-- No two elements of a tensor share a place (R42). -/
theorem elemAddr_inj {base C H W b c y x b' c' y' x' : Nat} (hc : c < C) (hy : y < H) (hx : x < W) (hc' : c' < C)
    (hy' : y' < H) (hx' : x' < W) (h : elemAddr base C H W b c y x = elemAddr base C H W b' c' y' x') :
    b = b' ∧ c = c' ∧ y = y' ∧ x = x' := by
  unfold elemAddr at h
  rw [Nat.add_assoc, Nat.add_assoc] at h
  obtain ⟨h1, hx⟩ := mul_add_inj hx hx' (Nat.add_left_cancel h)
  obtain ⟨h2, hy⟩ := mul_add_inj hy hy' h1
  obtain ⟨hb, hc⟩ := mul_add_inj hc hc' h2
  exact ⟨hb, hc, hy, hx⟩

/-- A clamped index is inside the axis (R94). -/
theorem clamp_toNat_lt (v : Int) {limit : Nat} (h : 0 < limit) : (clamp v limit).toNat < limit := by
  unfold clamp
  omega

/-- What the loops of a driver job list (R117). -/
theorem mem_order_pixel {j : Job} (hcopy : j.copy = false) {it : Item} :
    it ∈ j.order ↔ ∃ b y x c, b < j.B ∧ y < j.oh ∧ x < j.ow ∧ c < j.C ∧ it = .pixel b y x c := by
  simp only [Job.order, hcopy, rowTask, List.mem_flatMap, List.mem_map, List.mem_range, Bool.false_eq_true, if_false]
  constructor
  · rintro ⟨b, hb, y, hy, x, hx, c, hc, rfl⟩; exact ⟨b, y, x, c, hb, hy, hx, hc, rfl⟩
  · rintro ⟨b, y, x, c, hb, hy, hx, hc, rfl⟩; exact ⟨b, hb, y, hy, x, hx, c, hc, rfl⟩

/-- What an identity copy lists (R130). -/
theorem mem_order_copied {j : Job} (hcopy : j.copy = true) {it : Item} :
    it ∈ j.order ↔ ∃ k, k < j.nOut ∧ it = .copied k := by
  simp only [Job.order, hcopy, List.mem_map, List.mem_range, if_true]
  constructor
  · rintro ⟨k, hk, rfl⟩; exact ⟨k, hk, rfl⟩
  · rintro ⟨k, hk, rfl⟩; exact ⟨k, hk, rfl⟩

/-- Every output element of a job is stored inside the output range (R113). -/
theorem addr_in_output {j : Job} {it : Item} (h : it ∈ j.order) :
    j.outBase ≤ it.addr j ∧ it.addr j < j.outBase + j.nOut := by
  cases hc : j.copy with
  | false =>
    obtain ⟨b, y, x, c, hb, hy, hx, hc, rfl⟩ := (mem_order_pixel hc).1 h
    exact elemAddr_range hb hc hy hx
  | true =>
    obtain ⟨k, hk, rfl⟩ := (mem_order_copied hc).1 h
    exact ⟨Nat.le_add_right .., Nat.add_lt_add_left hk _⟩

/-- No two output elements of a job are stored at one address (R119). -/
theorem addr_inj {j : Job} {it it' : Item} (h : it ∈ j.order) (h' : it' ∈ j.order) (e : it.addr j = it'.addr j) :
    it = it' := by
  cases hc : j.copy with
  | false =>
    obtain ⟨b, y, x, c, hb, hy, hx, hcc, rfl⟩ := (mem_order_pixel hc).1 h
    obtain ⟨b', y', x', c', hb', hy', hx', hcc', rfl⟩ := (mem_order_pixel hc).1 h'
    obtain ⟨rfl, rfl, rfl, rfl⟩ := elemAddr_inj hcc hy hx hcc' hy' hx' e
    rfl
  | true =>
    obtain ⟨k, hk, rfl⟩ := (mem_order_copied hc).1 h
    obtain ⟨k', hk', rfl⟩ := (mem_order_copied hc).1 h'
    simp only [Item.addr] at e
    rw [Nat.add_left_cancel e]

/-- The tap indices of a sample are clamped positions (R94). -/
theorem sampleAt_idx (p : Params) (m : Mode) (inn : Word) (limit : Int) :
    (sampleAt p m inn limit).idx = (tapPos (floorF inn)).map fun v => clamp v limit := by
  cases m <;> rfl

/-- The 16 addresses an output element reads are input elements (R98, R107). -/
theorem pixelReads_in_input {p : Params} {j : Job} (hj : JobOk j) {b y x c a : Nat} (hb : b < j.B) (hc : c < j.C)
    (h : a ∈ pixelReads j.inBase j.C j.ih j.iw b c (rowSample p j y).idx (colSample p j x).idx) :
    j.inBase ≤ a ∧ a < j.inBase + j.nIn := by
  simp only [rowSample, colSample, locate, sampleAt_idx, pixelReads, Quad.toList, Quad.map, tapPos, List.mem_flatMap,
    List.mem_map] at h
  obtain ⟨yi, hyi, xj, hxj, rfl⟩ := h
  have row : yi.toNat < j.ih := by
    simp only [List.mem_cons, List.not_mem_nil, or_false] at hyi
    rcases hyi with rfl | rfl | rfl | rfl <;> exact clamp_toNat_lt _ hj.inDims.2.2.1
  have col : xj.toNat < j.iw := by
    simp only [List.mem_cons, List.not_mem_nil, or_false] at hxj
    rcases hxj with rfl | rfl | rfl | rfl <;> exact clamp_toNat_lt _ hj.inDims.2.2.2
  exact elemAddr_range hb hc row col

/-- Every address an output element of a job reads is an input element. -/
theorem reads_in_input {p : Params} {j : Job} (hj : JobOk j) {it : Item} (h : it ∈ j.order) {a : Nat}
    (ha : a ∈ it.reads p j) : j.inBase ≤ a ∧ a < j.inBase + j.nIn := by
  cases hc : j.copy with
  | false =>
    obtain ⟨b, y, x, c, hb, hy, hx, hcc, rfl⟩ := (mem_order_pixel hc).1 h
    exact pixelReads_in_input hj hb hcc ha
  | true =>
    obtain ⟨k, hk, rfl⟩ := (mem_order_copied hc).1 h
    simp only [Item.reads, List.mem_singleton] at ha
    subst ha
    have : j.nIn = j.nOut := by
      obtain ⟨h1, h2⟩ := hj.copySize hc
      simp only [Job.nIn, Job.nOut, h1, h2]
    omega

/-- What an output element gets depends only on the addresses it reads (R119). -/
theorem value_congr {p : Params} {j : Job} {tick : Nat} {m n : Memory} {it : Item}
    (h : ∀ a ∈ it.reads p j, m.readElem a = n.readElem a) : it.value p j tick m = it.value p j tick n := by
  cases it with
  | copied k => exact h _ (List.mem_singleton.2 rfl)
  | pixel b y x c =>
    have e : ∀ row col : AxisSample,
        (∀ a ∈ pixelReads j.inBase j.C j.ih j.iw b c row.idx col.idx, m.readElem a = n.readElem a) →
        xPasses m.readElem j.inBase j.C j.ih j.iw b c row col = xPasses n.readElem j.inBase j.C j.ih j.iw b c row col := by
      intro row col hr
      have hr' : ∀ yi ∈ row.idx.toList, ∀ xj ∈ col.idx.toList,
          m.readElem (elemAddr j.inBase j.C j.ih j.iw b c yi.toNat xj.toNat) =
            n.readElem (elemAddr j.inBase j.C j.ih j.iw b c yi.toNat xj.toNat) :=
        fun yi hy xj hx => hr _ (List.mem_flatMap.2 ⟨yi, hy, List.mem_map.2 ⟨xj, hx, rfl⟩⟩)
      simp only [Quad.toList, List.mem_cons, List.not_mem_nil, or_false, forall_eq_or_imp, forall_eq] at hr'
      simp only [xPasses, Quad.map]
      rw [hr'.1.1, hr'.1.2.1, hr'.1.2.2.1, hr'.1.2.2.2, hr'.2.1.1, hr'.2.1.2.1, hr'.2.1.2.2.1, hr'.2.1.2.2.2,
        hr'.2.2.1.1, hr'.2.2.1.2.1, hr'.2.2.1.2.2.1, hr'.2.2.1.2.2.2, hr'.2.2.2.1, hr'.2.2.2.2.1, hr'.2.2.2.2.2.1,
        hr'.2.2.2.2.2.2]
    simp only [Item.value, pixelAt]
    rw [e _ _ h]

/-- The output range of a job lies inside the address space, apart from its input (R48, R49). -/
theorem JobOk.ranges {j : Job} (h : JobOk j) :
    j.inBase + j.nIn ≤ 2 ^ 32 ∧ j.outBase + j.nOut ≤ 2 ^ 32 ∧
      (j.outBase + j.nOut ≤ j.inBase ∨ j.inBase + j.nIn ≤ j.outBase) := by
  have g := h.geometry
  unfold checkGeometry at g
  split at g
  · cases g
  · split at g
    · cases g
    · omega

/-- No output element is listed twice (R117). -/
theorem order_nodup (j : Job) : j.order.Nodup := by
  have pix : ∀ {b y x : Nat} {n : Nat}, ((List.range n).map fun c => Item.pixel b y x c).Nodup := fun {b y x n} =>
    List.Nodup.map (fun _ _ h => by injection h) List.nodup_range
  unfold Job.order
  split
  · exact List.Nodup.map (fun _ _ h => by injection h) List.nodup_range
  · refine List.nodup_flatMap.2 ⟨fun b _ => List.nodup_flatMap.2 ⟨fun y _ => List.nodup_flatMap.2 ⟨fun x _ => pix, ?_⟩,
      ?_⟩, ?_⟩
    all_goals
      refine List.nodup_range.imp fun {a b} hab => ?_
      intro it h1 h2
      simp [rowTask] at h1 h2
      aesop

/-- On a platform that backs every address, an address inside the address space is backed (R41). -/
theorem backed_of_allBacked {p : Params} (h : allBacked p) {a : Nat} (ha : a < 2 ^ 32) : addrBacked p a = true := by
  unfold allBacked at h
  simp only [addrBacked, h, List.all_nil, Bool.and_true, decide_eq_true_eq]
  exact ha

/-- On such a platform every element of a job whose checks passed can be computed and written. -/
theorem item_backed {p : Params} (h : allBacked p) {j : Job} (hj : JobOk j) {it : Item} (hi : it ∈ j.order) :
    it.backed p j = true := by
  have := hj.ranges
  simp only [Item.backed, Bool.and_eq_true, List.all_eq_true]
  refine ⟨fun a ha => backed_of_allBacked h ?_, backed_of_allBacked h ?_⟩
  · have := reads_in_input hj hi ha; omega
  · have := addr_in_output hi; omega

/-- Writing output elements, said once: each has its value of the input as it was, every other element and every byte
outside the output is as it was. -/
theorem writeItems_spec {p : Params} {j : Job} {tick : Nat} (hj : JobOk j) :
    ∀ (l : List Item) (m : Memory), l.Nodup → (∀ it ∈ l, it ∈ j.order) → m.wf →
      (∀ a, (∀ it ∈ l, it.addr j ≠ a) → (writeItems p j tick l m).readElem a = m.readElem a) ∧
      (∀ it ∈ l, (writeItems p j tick l m).readElem (it.addr j) = it.value p j tick m) ∧
      ∀ a, a < 4 * j.outBase ∨ 4 * (j.outBase + j.nOut) ≤ a → (writeItems p j tick l m).readByte a = m.readByte a := by
  have lt : ∀ {it : Item}, it ∈ j.order → it.addr j < 2 ^ 32 := by
    intro it h; have := addr_in_output h; have := hj.ranges; omega
  intro l
  induction l with
  | nil => exact fun m _ _ _ => ⟨fun _ _ => rfl, by simp, fun _ _ => rfl⟩
  | cons x l ih =>
    intro m hn hs hm
    have hx := hs x (by simp)
    have hs' : ∀ it ∈ l, it ∈ j.order := fun it h => hs it (by simp [h])
    obtain ⟨h1, h2, h3⟩ := ih (writeItem p j tick m x) (List.nodup_cons.1 hn).2 hs' (Memory.wf_writeElem hm (lt hx))
    have hne : ∀ it ∈ l, it.addr j ≠ x.addr j := fun it h e => (List.nodup_cons.1 hn).1 (addr_inj (hs' it h) hx e ▸ h)
    simp only [writeItems, List.foldl_cons] at h1 h2 h3 ⊢
    refine ⟨fun a ha => ?_, fun it hit => ?_, fun a ha => ?_⟩
    · rw [h1 a fun it h => ha it (by simp [h])]
      unfold writeItem
      rw [Memory.readElem_writeElem _ _ _ _ hm (lt hx), if_neg (ha x (by simp)).symm]
    · rcases List.mem_cons.1 hit with rfl | hit
      · rw [h1 _ hne]
        unfold writeItem
        rw [Memory.readElem_writeElem _ _ _ _ hm (lt hx), if_pos rfl]
      · rw [h2 it hit]
        refine value_congr fun a ha => ?_
        unfold writeItem
        rw [Memory.readElem_writeElem _ _ _ _ hm (lt hx), if_neg]
        have := reads_in_input hj (hs' it hit) ha
        have := addr_in_output hx
        have := hj.ranges
        omega
    · rw [h3 a ha]
      unfold writeItem
      have := addr_in_output hx
      rw [Memory.readByte_writeElem _ _ _ _ hm (lt hx), if_neg (by omega), if_neg (by omega), if_neg (by omega),
        if_neg (by omega)]

end Sys2Proof.Machine
end

