-- ==== Sys2Proof/Tests/Slice0.lean ====
section
/-! SUPPORT. The model's own tests: ill-formed words refused, command words written out from R61 and R62, at most two
vectors of 95_test_vectors.md per command, and for every statement with hypotheses a witness that meets them all. -/

namespace Sys2Proof.Tests

-- One theorem after another: checked at once, each would hold a thread and its stack while it waits for the kernel.
set_option Elab.async false

open Sys2Proof.Machine

/-! ### Well-formedness: what each check refuses -/

theorem test_wf_zero_field : (CmdWord.mk 0x03 1).zeroOk = false ∧ (CmdWord.mk 0x03 1).wellFormed = false := by decide
theorem test_wf_opcode_low : (CmdWord.mk 0x00 0).opOk = false ∧ (CmdWord.mk 0x00 0).wellFormed = false := by decide
theorem test_wf_opcode_high : (CmdWord.mk 0x06 0).opOk = false ∧ (CmdWord.mk 0x06 0).wellFormed = false := by decide
theorem test_wf_accepts : (CmdWord.mk 0x01 0).wellFormed = true ∧ (CmdWord.mk 0x05 0).wellFormed = true := by decide

/-! ### Command words, bit by bit (R61: `ZERO` in 31:8, `OP` in 7:0; R62) -/

theorem test_decode_gettab : decode 0b00000000000000000000000000000001 = .ok .gettab := by decide
theorem test_decode_locate : decode 0b00000000000000000000000000000010 = .ok .locate := by decide
theorem test_decode_interp : decode 0b00000000000000000000000000000011 = .ok .interp := by decide
theorem test_decode_resize : decode 0b00000000000000000000000000000100 = .ok .resize := by decide
theorem test_decode_run : decode 0b00000000000000000000000000000101 = .ok .run := by decide
theorem test_decode_table : decodeTableWord 32 5 = some .run ∧ decodeTableWord 32 0x105 = none ∧
    decodeTableWord 32 6 = none := by decide

/-! ### Helpers -/

/-- The registers named, after an outcome that is a next state. -/
def regsOf (o : Host.Outcome State Fault Refusal) (ns : List Reg) : List Word :=
  match o with
  | .next t => ns.map (readReg t)
  | .fault _ => []
  | .refused _ => []

/-- The `n` elements from `a` on, after an outcome that is a next state. -/
def elemsOf (o : Host.Outcome State Fault Refusal) (a n : Nat) : List Word :=
  match o with
  | .next t => (List.range n).map fun k => t.mem.readElem (a + k)
  | .fault _ => []
  | .refused _ => []

/-- Memory with elements stored from `a` on. -/
def put (a : Nat) (vs : List Word) : Memory := (vs.foldl (fun (p : Nat × Memory) v => (p.1 + 1, p.2.writeElem p.1 v)) (a, [])).2

/-- The reset state with other registers and memory. -/
def idle (r : Regs) (m : Memory := []) : State := { State.reset with regs := r, mem := m }

/-- A command word just accepted. -/
def started (w : Word) (r : Regs) (m : Memory := []) : State := accept w (idle r m)

/-- A `1 x 1 x 1 x 2` input at `0x1000`, a `1 x 1 x 1 x 3` output at `0x2000`, mode 2 (vector V10, its first batch). -/
def row : Regs := { Regs.reset with
  inAddr := 0x1000, outAddr := 0x2000, inRank := 4, inDim0 := 1, inDim1 := 1, inDim2 := 1, inDim3 := 2
  sizeH := 1, sizeW := 3, outH := 1, outW := 3, hScale := 0x3F800000, wScale := 0x3F2AAAAB, mode := 2 }

/-- The input of `row`. -/
def rowMem : Memory := put 0x1000 [0x3F800000, 0x40400000]

/-- The same input with an output of its own size. -/
def same : Regs := { row with sizeW := 2, outW := 2, wScale := 0x3F800000 }

/-! ### One step of each command -/

/-- Vector T2. -/
theorem test_gettab : regsOf (exec .gettab (started 1 { Regs.reset with mode := 1, tabIdx := 1024 }))
    [.tabSel, .result, .status] = [1, 0x3F100000, 0x0000000A] := by decide +kernel

/-- Vector T6. -/
theorem test_gettab_index : regsOf (exec .gettab (started 1 { Regs.reset with tabIdx := 2050 }))
    [.status, .result] = [0x00000903, 0] := by decide +kernel

/-- Vector L4. -/
theorem test_locate : regsOf (exec .locate (started 2 { Regs.reset with
      lScale := 0x3F000000, mode := 1, lCoord := 0, lOutSize := 4, lLimit := 2 }))
    [.idx0, .idx1, .idx2, .idx3, .wgt0, .wgt1, .wgt2, .wgt3, .status] =
    [0, 0, 0, 1, 0, 0, 0x3F8B4B4C, 0xBDB4B4B5, 0x0000000A] := by decide +kernel

/-- Vector L22: the fraction rounds up to 1, the offset is `K`. -/
theorem test_locate_round_up : regsOf (exec .locate (started 2 { Regs.reset with
      lScale := 0xB0800000, lCoord := 1, lOutSize := 4, lLimit := 4 }))
    [.idx0, .idx1, .idx2, .idx3, .wgt0, .wgt1, .wgt2, .wgt3] = [0, 0, 0, 1, 0, 0, 0x3F800000, 0] := by decide +kernel

/-- Vector I4: the order of the sum. -/
theorem test_interp : regsOf (exec .interp (started 3 { Regs.reset with
      wgt0 := 0x3DCCCCCD, wgt1 := 0x3E4CCCCD, wgt2 := 0x3E99999A, wgt3 := 0x3ECCCCCD
      val0 := 0x4CBEBC20, val1 := 0x3F800000, val2 := 0xCCBEBC20, val3 := 0x3F800000 }))
    [.result, .status] = [0xCB989681, 0x00000002] := by decide +kernel

/-- Vector I6: the sign of a zero is lost. -/
theorem test_interp_zero : regsOf (exec .interp (started 3 { Regs.reset with
      wgt1 := 0x3F800000, val0 := 0x40A00000, val1 := 0x80000000, val2 := 0x40E00000, val3 := 0x41100000 }))
    [.result] = [0] := by decide +kernel

/-- Vector V14: `RESIZE` has no identity bypass, `-0.0` comes out as `+0.0`. -/
theorem test_resize : elemsOf (exec .resize (started 4 { Regs.reset with
      inAddr := 0x1000, outAddr := 0x2000, inDim0 := 1, inDim1 := 1, inDim2 := 2, inDim3 := 2, outH := 2, outW := 2
      hScale := 0x3F800000, wScale := 0x3F800000, mode := 1 } (put 0x1000 [0x3F800000, 0x80000000, 0x40400000, 0x40800000])))
    0x2000 4 = [0x3F800000, 0, 0x40400000, 0x40800000] := by decide +kernel

/-- Vector E20: the size is checked before the mode. -/
theorem test_resize_size : regsOf (exec .resize (started 4 { row with outH := 0, mode := 3 })) [.status] = [0x00000303] := by
  decide +kernel

/-- Vector V10, its first batch. -/
theorem test_run : elemsOf (exec .run (started 5 row rowMem)) 0x2000 3 = [0x3F5380E0, 0x40000000, 0x404B1FC0] ∧
    regsOf (exec .run (started 5 row rowMem)) [.hScale, .wScale, .outW, .status] = [0x3F800000, 0x3F2AAAAB, 3, 0x00000006] := by
  decide +kernel

/-- As program P2: the identity copy moves patterns, a NaN and `-0.0` among them. -/
theorem test_run_copy : elemsOf (exec .run (started 5 same (put 0x1000 [0x7FC12345, 0x80000000]))) 0x2000 2 =
    [0x7FC12345, 0x80000000] := by decide +kernel

/-! ### The invariant, on states of each kind -/

/-- A state between commands is good when its memory and its status are. -/
theorem good_idle {s : State} (hm : s.mem.wf) (hi : s.inflight = none) (hb : s.status.state ≠ .busy)
    (he : s.status.state = .error ↔ s.status.errCode ≠ 0) (hc : s.status.errCode.toNat ≤ 0x0A)
    (ht : s.regs.tabSel.toNat ≤ 1) (hg : s.guard = Guard.none) : GoodState s where
  memory := hm
  busy := by rw [hi]; exact ⟨fun h => absurd h hb, fun h => by cases h⟩
  errored := he
  errCode := hc
  tabSel := ht
  desc := fun f h => by rw [hi] at h; cases h
  tick := fun f h => by rw [hi] at h; cases h
  work := fun f w h => by rw [hi] at h; cases h
  guard := fun f h => by rw [hi] at h; cases h
  unguarded := fun _ => hg

/-- A `RUN` just accepted. -/
def running (r : Regs) : State := started 5 r rowMem

/-- The job of a `RUN` on `row`. -/
def rowJob : Job := runJob row .pytorchHalfPixel 1 3

/-- The job of a `RUN` on `same`. -/
def sameJob : Job := runJob same .pytorchHalfPixel 1 2

/-- That `RUN` after its fork. -/
def forked (j : Job) (r : Regs) : State := forkJob j (running r)

/-- A forked `RUN` on `row` whose worker has taken the first element. -/
def taken : State :=
  withWork ⟨5, row, 0, none⟩
    ⟨rowJob, rowJob.order, [.located 0 0 0 0 (rowSample Params.default rowJob 0) (colSample Params.default rowJob 0)]⟩
    (forked rowJob row)

/-- The same state with moves to come. -/
def next (s : State) (ms : List Move) : State := { s with moves := ms }

/-- The invariant does not look at the moves to come. -/
theorem good_next {s : State} (ms : List Move) (h : GoodState s) : GoodState (next s ms) := by
  obtain ⟨a, b, c, d, e, f, g, w, x, y⟩ := h
  exact ⟨a, b, c, d, e, f, g, fun f v hf hv => by
    obtain ⟨a, b, c, d, e, g, k, i, o⟩ := w f v hf hv
    exact ⟨a, b, c, d, e, g, k, i, o⟩, x, y⟩

theorem rowMem_wf : rowMem.wf := by unfold Memory.wf; decide +kernel

theorem good_ready : GoodState (idle row rowMem) :=
  good_idle rowMem_wf rfl (by decide) (by decide) (by decide) (by decide) rfl

theorem good_failed : GoodState (raise .illegalCmd (idle row rowMem)) :=
  good_idle rowMem_wf rfl (by decide) (by decide) (by decide) (by decide) rfl

theorem rowJob_ok : JobOk rowJob :=
  ⟨by decide +kernel, by decide +kernel, by decide +kernel, .inr (by decide +kernel), fun h => absurd h (by decide +kernel)⟩

theorem sameJob_ok : JobOk sameJob :=
  ⟨by decide +kernel, by decide +kernel, by decide +kernel, .inl (by decide +kernel), fun _ => by decide +kernel⟩

/-- A command in progress is a good state when its hidden state is. -/
theorem good_busy {s : State} {f : InFlight} (hm : s.mem.wf) (hi : s.inflight = some f) (hb : s.status.state = .busy)
    (he : s.status.errCode = 0) (ht : s.regs.tabSel.toNat ≤ 1) (hd : f.desc = s.regs) (hf : f.tick < s.free)
    (hw : ∀ w, f.work = some w → WorkOk s f w)
    (hg : f.work = none → (wordTensors f.word f.desc s.params s.mem).noStore ⊆ s.guard.noStore ∧
      (wordTensors f.word f.desc s.params s.mem).noLoad ⊆ s.guard.noLoad) : GoodState s where
  memory := hm
  busy := by rw [hi, hb]; simp
  errored := by rw [hb, he]; simp
  errCode := by rw [he]; decide
  tabSel := ht
  desc := fun g h => by rw [hi] at h; cases h; exact hd
  tick := fun g h => by rw [hi] at h; cases h; exact hf
  work := fun g w h hw' => by rw [hi] at h; cases h; exact hw w hw'
  guard := fun g h hw' => by rw [hi] at h; cases h; exact hg hw'
  unguarded := fun h => by rw [hb] at h; cases h

theorem good_running : GoodState (running row) :=
  good_busy rowMem_wf rfl rfl rfl (by decide +kernel) rfl (by decide +kernel) (fun _ h => by cases h)
    fun _ => by decide +kernel

theorem good_forked : GoodState (forked rowJob row) := by
  refine good_busy rowMem_wf rfl rfl rfl (by decide +kernel) rfl (by decide +kernel) (fun w h => ?_)
    fun h => by cases h
  cases h
  refine ⟨.inr rfl, rowJob_ok, List.Sublist.refl _, fun _ => by decide +kernel, rfl, fun v hv => ?_, by decide +kernel,
    by decide +kernel, by decide +kernel⟩
  cases List.mem_singleton.1 hv
  trivial

theorem good_forked_copy : GoodState (forked sameJob same) := by
  refine good_busy rowMem_wf rfl rfl rfl (by decide +kernel) rfl (by decide +kernel) (fun w h => ?_)
    fun h => by cases h
  cases h
  refine ⟨.inr rfl, sameJob_ok, List.Sublist.refl _, fun h => absurd h (by decide +kernel), rfl, fun v hv => ?_,
    by decide +kernel, by decide +kernel, by decide +kernel⟩
  cases List.mem_singleton.1 hv
  trivial

theorem good_taken : GoodState taken := by
  refine good_busy rowMem_wf rfl rfl rfl (by decide +kernel) rfl (by decide +kernel) (fun w h => ?_)
    fun h => by cases h
  cases h
  refine ⟨.inr rfl, rowJob_ok, List.Sublist.refl _, fun _ => by decide +kernel, rfl, fun v hv => ?_, by decide +kernel,
    by decide +kernel, by decide +kernel⟩
  cases List.mem_singleton.1 hv
  exact ⟨by decide +kernel, rfl, rfl⟩

/-! ### Witnesses: for every statement with hypotheses, a state and operands that meet them all together, at the
boundary of each clause -/

/-- The outcome is a next state. -/
def goes (o : Host.Outcome State Fault Refusal) : Bool :=
  match o with
  | .next _ => true
  | .fault _ => false
  | .refused _ => false

theorem of_goes {o : Host.Outcome State Fault Refusal} (h : goes o = true) : ∃ t, o = .next t := by
  cases o with
  | next t => exact ⟨t, rfl⟩
  | fault r => cases h
  | refused r => cases h

/-- `READY`, with moves to come. -/
abbrev readyAt (ms : List Move) : State := next (idle row rowMem) ms

/-- `DONE`, with moves to come. -/
abbrev doneAt (ms : List Move) : State := next (completed (idle row rowMem)) ms

/-- `ERROR`, with moves to come. -/
abbrev errorAt (ms : List Move) : State := next (raise .illegalCmd (idle row rowMem)) ms

/-- The command has ended, its tensors still guarded (R166), with moves to come. -/
abbrev unreadAt (ms : List Move) : State := next (raise .illegalCmd (started 5 { row with mode := 3 } rowMem)) ms

/-- `BUSY`, with moves to come. -/
abbrev busyAt (ms : List Move) : State := next (running row) ms

theorem witness_DecodeAndEncodeAgree : Instr.gettab.wellFormed = true ∧ Instr.run.wellFormed = true := by decide

theorem witness_IllegalWordEndsInError_reserved :
    ((0x00000100 : Word).extractLsb' 8 24 ≠ 0 ∧ (0x80000001 : Word).extractLsb' 8 24 ≠ 0) ∧
      (readyAt [.regWrite 0 0x100, .complete]).status.state = .ready ∧
      (readyAt [.regWrite 0 0x100, .complete]).moves = .regWrite 0x00 0x100 :: .complete :: [] := by decide

theorem witness_IllegalWordEndsInError_opcode :
    (0x00000000 : Word).extractLsb' 0 8 = 0 ∧ 5 < ((0x00000006 : Word).extractLsb' 0 8).toNat ∧
      (doneAt [.regWrite 0 6, .complete]).status.state = .done ∧
      (doneAt [.regWrite 0 6, .complete]).moves = .regWrite 0x00 6 :: .complete :: [] := by decide

theorem witness_UnmappedIndexIsInert : 0x24 < (0x25 : BitVec 8).toNat ∧ 0x24 < (0xFF : BitVec 8).toNat ∧
    (busyAt [.regRead 0x25]).moves = .regRead 0x25 :: [] ∧ (readyAt [.regWrite 0xFF 7]).moves = .regWrite 0xFF 7 :: [] := by
  decide

theorem witness_HostWriteStoresTheRegister : Reg.ofIndex 0x05 = some .cfg ∧ Reg.cfg.access = .rw ∧
    Reg.ofIndex 0x23 = some .tabIdx ∧ Reg.tabIdx.access = .rw ∧ (errorAt [.regWrite 0x05 7]).status.state ≠ .busy ∧
    (errorAt [.regWrite 0x05 7]).moves = .regWrite 0x05 7 :: [] ∧ (readyAt [.regWrite 0x23 7]).status.state ≠ .busy ∧
    (readyAt [.regWrite 0x23 7]).moves = .regWrite 0x23 7 :: [] := by decide

theorem witness_WritesWhileBusyAreLost : (busyAt [.regWrite 0x00 3]).status.state = .busy ∧
    (busyAt [.regWrite 0x00 3]).moves = .regWrite 0x00 3 :: [] := by decide

theorem witness_ReadOnlyRegistersIgnoreWrites : Reg.ofIndex 0x01 = some .status ∧ Reg.status.access = .ro ∧
    Reg.ofIndex 0x24 = some .tabSel ∧ Reg.tabSel.access = .ro ∧ (readyAt [.regWrite 0x24 1]).moves = .regWrite 0x24 1 :: [] ∧
    (readyAt [.regWrite 0x01 1]).moves = .regWrite 0x01 1 :: [] := by decide

theorem witness_CommandWriteStartsTheCommand_accepted : (readyAt [.regWrite 0 5, .complete]).status.state = .ready ∧
    (doneAt [.regWrite 0 5, .complete]).status.state = .done ∧ decode 5 = .ok .run ∧
    (doneAt [.regWrite 0 5, .complete]).moves = .regWrite 0x00 5 :: .complete :: [] := by decide

theorem witness_CommandWriteStartsTheCommand_ignored : (busyAt [.regWrite 0 5]).status.state = .busy ∧
    (errorAt [.regWrite 0 5]).status.state = .error ∧ (errorAt [.regWrite 0 5]).moves = .regWrite 0x00 5 :: [] := by decide

theorem witness_HostReadReturnsTheRegister_unread : (unreadAt [.regRead 0x01]).inflight = none ∧
    (unreadAt [.regRead 0x01]).moves = .regRead 0x01 :: [] ∧ (unreadAt [.regRead 0x01]).status.state = .error ∧
    (unreadAt [.regRead 0x01]).guard ≠ Guard.none := by decide

theorem witness_HostReadReturnsTheRegister : (errorAt [.regRead 0x01]).inflight = none ∧ Reg.ofIndex 0x00 = some .cmd ∧
    Reg.ofIndex 0x01 = some .status ∧ (errorAt [.regRead 0x01]).moves = .regRead 0x01 :: [] := by decide

theorem witness_BusyReadIsOldOrNew : ∃ f, (busyAt [.regRead 0x0F]).inflight = some f ∧ Reg.ofIndex 0x0F = some .outW ∧
    decode f.word = .ok .run ∧ Reg.outW ∈ resultRegs .run ∧ (busyAt [.regRead 0x0F]).moves = .regRead 0x0F :: [] :=
  ⟨_, rfl, by decide⟩

theorem witness_ResetEventFromAnyState : (busyAt [.reset]).moves = .reset :: [] ∧ (errorAt [.reset]).moves = .reset :: [] := by
  decide

theorem witness_StepRunsTheDecodedCommand : ∃ f, (busyAt []).inflight = some f ∧ (busyAt [.complete]).inflight = some f ∧
    decode f.word = .ok .run ∧ Instr.run.wellFormed = true ∧ (busyAt []).moves = [] ∧
    (busyAt [.complete]).moves = .complete :: [] := ⟨_, rfl, rfl, by decide⟩

theorem witness_FetchWordRunsNext : decode (fetchedWord 32 1) = .ok .gettab ∧ decode (fetchedWord 32 5) = .ok .run := by decide

theorem witness_StepKeepsTheInvariant_idle : GoodState (readyAt [.regWrite 0x00 5]) ∧
    ∃ t, step (readyAt [.regWrite 0x00 5]) = .next t := ⟨good_next _ good_ready, of_goes (by decide +kernel)⟩

theorem witness_StepKeepsTheInvariant_fork : GoodState (busyAt [.fork]) ∧ ∃ t, step (busyAt [.fork]) = .next t :=
  ⟨good_next _ good_running, of_goes (by decide +kernel)⟩

theorem witness_StepKeepsTheInvariant_worker : GoodState (next (forked rowJob row) [.workerTake 0 2]) ∧
    ∃ t, step (next (forked rowJob row) [.workerTake 0 2]) = .next t :=
  ⟨good_next _ good_forked, of_goes (by decide +kernel)⟩

theorem witness_StepKeepsParametersAndTables : (∃ t, step (next (forked rowJob row) [.complete]) = .next t) ∧
    (∀ ms, (next (forked rowJob row) [.complete]).moves ≠ .reset :: ms) ∧
    (next (forked rowJob row) [.complete]).status.valid .tab0 = true :=
  ⟨of_goes (by decide +kernel), fun ms h => (by cases h), by decide +kernel⟩

theorem witness_ErrorIsLeftOnlyByReset : GoodState (errorAt [.regWrite 0x00 3]) ∧
    (errorAt [.regWrite 0x00 3]).status.state = .error ∧ (∀ ms, (errorAt [.regWrite 0x00 3]).moves ≠ .reset :: ms) ∧
    ∃ t, step (errorAt [.regWrite 0x00 3]) = .next t :=
  ⟨good_next _ good_failed, by decide, fun ms h => (by cases h), of_goes (by decide)⟩

theorem witness_ErrorChangesOnlyStatus : ∃ f t, (started 5 Regs.reset).inflight = some f ∧
    completeMove (started 5 Regs.reset) = .next t ∧ t.status.state = .error := ⟨_, _, rfl, rfl, by decide⟩

/-- The operands of a `GETTAB` at the edge of its clauses, with the default `K`. -/
def gettabAt (mode idx : Word) : State := started 1 { Regs.reset with mode := mode, tabIdx := idx }

theorem witness_GettabReadsTheTable : (gettabAt 3 0).inflight = some ⟨1, (gettabAt 3 0).regs, 0, none⟩ ∧
    2 < u32 (gettabAt 3 0).operands.mode ∧
    (u32 (gettabAt 2 2050).operands.mode ≤ 2 ∧
      2 * (gettabAt 2 2050).params.K + 1 < u32 (gettabAt 2 2050).operands.tabIdx) ∧
    (u32 (gettabAt 2 2049).operands.mode ≤ 2 ∧
      u32 (gettabAt 2 2049).operands.tabIdx ≤ 2 * (gettabAt 2 2049).params.K + 1) ∧
    u32 (gettabAt 1 0).operands.mode = 1 := by decide

theorem witness_TableLayout : 0 ≤ Params.default.K ∧ Params.default.K ≤ Params.default.K := by decide

/-- The operands of a `LOCATE`. -/
def locateAt (mode scale coord size limit : Word) : State := started 2 { Regs.reset with
  mode := mode, lScale := scale, lCoord := coord, lOutSize := size, lLimit := limit }

theorem witness_LocateErrors : 2 < u32 (locateAt 3 0 0 0 0).operands.mode ∧
    (u32 (locateAt 2 0 0 0 0).operands.mode ≤ 2 ∧ s32 (locateAt 2 0 0 0 0).operands.lLimit < 1) ∧
    (Mode.ofWord (locateAt 0 0x7F800000 1 4 1).operands.mode = some .none ∧
      1 ≤ s32 (locateAt 0 0x7F800000 1 4 1).operands.lLimit ∧ isFinite (mapCoord .none 0x7F800000 1 4) = false) := by
  decide +kernel

theorem witness_LocateGivesIndicesAndWeights : Mode.ofWord (locateAt 1 0x3F000000 0 4 1).operands.mode = some .halfPixel ∧
    1 ≤ s32 (locateAt 1 0x3F000000 0 4 1).operands.lLimit ∧ isFinite (mapCoord .halfPixel 0x3F000000 0 4) = true := by
  decide +kernel

theorem witness_LocateGivesIndicesAndWeights_plain : Mode.ofWord (locateAt 2 0x3F000000 0 1 1).operands.mode =
      some .pytorchHalfPixel ∧ Mode.pytorchHalfPixel ≠ .halfPixel ∧ 1 ≤ s32 (locateAt 2 0x3F000000 0 1 1).operands.lLimit ∧
    isFinite (mapCoord .pytorchHalfPixel 0x3F000000 0 1) = true := by decide +kernel

theorem witness_LocateIndicesInRange : (1 : Int) ≤ 1 ∧ (1 : Int) ≤ 2 ^ 31 - 1 := by decide

theorem witness_TableOffsetInRange : isFinite 0xB0800000 = true ∧ isFinite 0x80000000 = true ∧ isFinite 0x7F7FFFFF = true := by
  decide

/-- The default parameters with the other tie rule. -/
def awayParams : Params := { Params.default with tie := .away }

/-- At `2^-11` and `3 * 2^-11` (R93 with `K = 1024`) the offset is an exact half: `0.5` and `1.5`. -/
theorem witness_TableOffsetInRange_tie :
    realOf (fmul (fsub 0x3A000000 (i2f (floorF 0x3A000000))) (i2f Params.default.K)) = 1 / 2 ∧
    realOf (fmul (fsub 0x3AC00000 (i2f (floorF 0x3AC00000))) (i2f awayParams.K)) = 3 / 2 ∧
    Params.default.tie = .even ∧ awayParams.tie = .away := by decide +kernel

/-- R93: the exact half `0.5` goes to 0 under `even` (vector L10) and to 1 under `away`, and `1.5` to 2 under both. -/
theorem test_offset_tie : tabOffset Params.default 0x3A000000 = 0 ∧ tabOffset awayParams 0x3A000000 = 1 ∧
    tabOffset Params.default 0x3AC00000 = 2 ∧ tabOffset awayParams 0x3AC00000 = 2 := by decide +kernel

theorem witness_WeightsAreFinite : isFinite 0xB0800000 = true := by decide

theorem witness_UnclampedWeightsSumToOne : Params.default.K = 1024 ∧ isFinite 0x3F800000 = true ∧
    ∀ v ∈ (tapPos (floorF 0x3F800000)).toList, clamp v 4 = v := by decide +kernel

theorem witness_UnitScaleSelectsTheTap : ((0 : Int) ≤ 0 ∧ (0 : Int) < 2 ^ 23 ∧ (0 : Int) < 1) ∧
    (0 : Int) ≤ 2 ^ 23 - 1 ∧ (2 : Int) ^ 23 - 1 < 2 ^ 23 := by decide

theorem witness_AllTapsClampedGivesZeroWeights :
    ∀ v ∈ (tapPos (floorF 0xC0400000)).toList, clamp v 4 ≠ v := by decide +kernel

theorem witness_ForcedCoordinate : (1 : Int) ≤ 1 ∧ (1 : Int) < 2 := by decide

/-- The dot product of the operands of a state's `INTERP`. -/
def dotOf (s : State) : Word :=
  interp1D ⟨s.operands.wgt0, s.operands.wgt1, s.operands.wgt2, s.operands.wgt3⟩
    ⟨s.operands.val0, s.operands.val1, s.operands.val2, s.operands.val3⟩

theorem witness_InterpIsTheDotProduct :
    (started 3 Regs.reset).inflight = some ⟨3, Regs.reset, 0, none⟩ ∧ isNaN (dotOf (started 3 Regs.reset)) = false ∧
    isNaN (dotOf (started 3 { Regs.reset with val0 := 0x7F800000 })) = true := by decide +kernel

theorem witness_UnitWeightsSelectTheTap : isFinite 0x40A00000 = true ∧ isFinite 0x80000000 = true := by decide

theorem witness_ResizeErrors_operands :
    (started 4 row).work = none ∧ s32 (started 4 { row with outH := 0 }).operands.outH < 1 ∧
    (¬ s32 (started 4 { row with mode := 3 }).operands.outH < 1 ∧ 2 < u32 (started 4 { row with mode := 3 }).operands.mode) ∧
    u32 (started 4 { row with inDim3 := 0 }).operands.inDim3 = 0 := by decide

theorem witness_ResizeErrors_tensors :
    (checkGeometry (resizeJob { row with inAddr := 0xFFFFFFFF } .none) = some .addrRange) ∧
    (checkGeometry (resizeJob { row with outAddr := 0x1001 } .none) = some .overlap) ∧
    (Mode.ofWord 0 = some .none ∧ checkGeometry (resizeJob { row with hScale := 0x7F800000 } .none) = none ∧
      ((0 : Nat) : Int) < s32 row.outH ∧ isFinite (mapCoord .none 0x7F800000 0 1) = false) := by decide +kernel

theorem witness_ResizeWritesTheOutput : (started 4 row rowMem).mem.wf ∧ (started 4 row rowMem).work = none ∧
    1 ≤ s32 row.outH ∧ 1 ≤ s32 row.outW ∧
    Mode.ofWord row.mode = some .pytorchHalfPixel ∧ ¬ badDims row ∧
    checkGeometry (resizeJob row .pytorchHalfPixel) = none ∧ coordsFinite (resizeJob row .pytorchHalfPixel) = true ∧
    ∀ it ∈ (resizeJob row .pytorchHalfPixel).order, it.backed Params.default (resizeJob row .pytorchHalfPixel) = true :=
  ⟨rowMem_wf, rfl, by decide +kernel⟩

/-- The same state on a platform that does not back one address. -/
def without (a : Nat) (s : State) : State :=
  let p : Params := { Params.default with holes := [(a, a + 1)] }
  { s with params := p }

theorem witness_UnbackedResizeStops : (without 0x2000 (started 4 row rowMem)).work = none ∧
    planResize (without 0x2000 (started 4 row rowMem)) = .job (resizeJob row .pytorchHalfPixel) ∧
    Item.pixel 0 0 0 0 ∈ (resizeJob row .pytorchHalfPixel).order ∧
    0x2000 = (Item.pixel 0 0 0 0).addr (resizeJob row .pytorchHalfPixel) ∧
    (0x2000, 0x2001) ∈ (without 0x2000 (started 4 row rowMem)).params.holes := by decide +kernel

theorem witness_UnbackedResizeStops_forked : ∃ w,
    (without 0x2002 (forkJob (resizeJob row .pytorchHalfPixel) (started 4 row rowMem))).work = some w ∧
    Item.pixel 0 0 2 0 ∈ w.todo ∧ 0x2002 = (Item.pixel 0 0 2 0).addr w.job := ⟨_, rfl, by decide +kernel⟩

/-- A `RUN` on `row` whose size comes from the last two elements of the address space. -/
def sized : Regs := { row with sizeW := 0, cfg := 2, sizeAddr := 0xFFFFFFFE }

theorem witness_UnbackedRunStops_size : (without 0xFFFFFFFF (started 5 sized)).work = none ∧ u32 sized.inRank = 4 ∧
    ¬ (0 < s32 sized.sizeH ∧ 0 < s32 sized.sizeW) ∧ sized.cfg.getLsbD 1 = true ∧ u32 sized.sizeAddr + 2 ≤ 2 ^ 32 ∧
    0xFFFFFFFF = u32 sized.sizeAddr + 1 ∧ (0xFFFFFFFF, 0x100000000) ∈ (without 0xFFFFFFFF (started 5 sized)).params.holes := by
  decide +kernel

theorem witness_UnbackedRunStops_tensors : planRun (without 0x2000 (started 5 row rowMem)) = .job rowJob ∧
    Item.pixel 0 0 0 0 ∈ rowJob.order ∧ 0x2000 = (Item.pixel 0 0 0 0).addr rowJob ∧
    planRun (without 0x1001 (started 5 same rowMem)) = .job sameJob ∧ Item.copied 1 ∈ sameJob.order ∧
    0x1001 ∈ (Item.copied 1).reads (without 0x1001 (started 5 same rowMem)).params sameJob := by decide +kernel

theorem witness_UnbackedRunStops_forked : ∃ w, (without 0x2001 (forked sameJob same)).work = some w ∧
    Item.copied 1 ∈ w.todo ∧ 0x2001 = (Item.copied 1).addr w.job := ⟨_, rfl, by decide +kernel⟩

theorem witness_UnbackedHostAccessStops : (without 0xFFFFFFFF (readyAt [.memRead 0xFFFFFFFF])).status.state ≠ .busy ∧
    (0xFFFFFFFF, 0x100000000) ∈ (without 0xFFFFFFFF (readyAt [.memRead 0xFFFFFFFF])).params.holes ∧
    u32 (0xFFFFFFFF : Word) < 0x100000000 ∧
    (without 0xFFFFFFFF (readyAt [.memRead 0xFFFFFFFF])).moves = .memRead 0xFFFFFFFF :: [] ∧
    (without 0xFFFFFFFF (errorAt [.memWrite 0xFFFFFFFF 7])).moves = .memWrite 0xFFFFFFFF 7 :: [] := by decide +kernel

theorem witness_ModesSelectTheirTables : u32 (0 : Word) = 0 ∧ u32 (1 : Word) = 1 ∧ u32 (2 : Word) = 2 ∧ 2 < u32 (3 : Word) ∧
    Mode.none ≠ .halfPixel ∧ Mode.pytorchHalfPixel ≠ .halfPixel := by decide

theorem witness_SizeResolution : (∃ f, (started 5 row).inflight = some f ∧ f.desc = row) ∧
    (0 < s32 row.sizeH ∧ 0 < s32 row.sizeW) ∧
    (¬ (0 < s32 { row with sizeW := 0 }.sizeW) ∧ { row with sizeW := 0 }.cfg.getLsbD 1 = false) ∧
    2 ^ 32 < u32 (0xFFFFFFFF : Word) + 2 :=
  ⟨⟨_, rfl, rfl⟩, by decide, by decide, by decide⟩

theorem witness_SizeResolution_tensor : (∃ f, (without 0xFFFFFFFD (started 5 sized)).inflight = some f ∧ f.desc = sized) ∧
    ¬ 0 < s32 sized.sizeW ∧ sized.cfg.getLsbD 1 = true ∧ ¬ 2 ^ 32 < u32 sized.sizeAddr + 2 ∧
    ∀ h ∈ (without 0xFFFFFFFD (started 5 sized)).params.holes,
      ∀ a, a = u32 sized.sizeAddr ∨ a = u32 sized.sizeAddr + 1 → ¬ (h.1 ≤ a ∧ a < h.2) := by
  refine ⟨⟨_, rfl, rfl⟩, by decide, by decide, by decide, fun h hh a ha => ?_⟩
  cases List.mem_singleton.1 hh
  rcases ha with rfl | rfl <;> decide

theorem witness_RunErrors_first : (started 5 row).work = none ∧ u32 (started 5 { row with inRank := 3 }).operands.inRank ≠ 4 ∧
    u32 (started 5 row).operands.inRank = 4 ∧ resolveSize (started 5 { row with sizeW := 0 }) = .error .noSize := by decide

theorem witness_RunErrors_second :
    resolveSize (started 5 { row with sizeW := 0, cfg := 2, sizeAddr := 0x3000 } (put 0x3000 [0, 4])) = .size 0 4 ∧
    resolveSize (started 5 { row with mode := 3 }) = .size 1 3 ∧ 2 < u32 { row with mode := 3 }.mode ∧
    resolveSize (started 5 { row with inDim0 := 0 }) = .size 1 3 ∧
    checkGeometry (runJob { row with outAddr := 0xFFFFFFFE } .none 1 3) = some .addrRange ∧
    checkGeometry (runJob { row with outAddr := 0x0FFE } .none 1 3) = some .overlap ∧
    checkGeometry (runJob { row with outAddr := 0x0FFD } .none 1 3) = none := by decide +kernel

theorem witness_RunErrors_last : resolveSize (started 5 row rowMem) = .size 1 3 ∧
    checkGeometry (runJob row .pytorchHalfPixel 1 3) = none ∧ ∃ t, exec .run (started 5 row rowMem) = .next t :=
  ⟨by decide, by decide, of_goes (by decide +kernel)⟩

theorem witness_RunCopiesEqualSizes : (started 5 same rowMem).mem.wf ∧ (started 5 same rowMem).work = none ∧
    u32 same.inRank = 4 ∧ resolveSize (started 5 same rowMem) = .size 1 2 ∧
    Mode.ofWord same.mode = some .pytorchHalfPixel ∧ ¬ badDims same ∧ (1 : Int) = u32 same.inDim2 ∧
    (2 : Int) = u32 same.inDim3 ∧ checkGeometry sameJob = none ∧
    ∀ it ∈ sameJob.order, it.backed Params.default sameJob = true := ⟨rowMem_wf, rfl, by decide +kernel⟩

theorem witness_RunResizes : (started 5 row rowMem).mem.wf ∧ (started 5 row rowMem).work = none ∧
    u32 row.inRank = 4 ∧ resolveSize (started 5 row rowMem) = .size 1 3 ∧
    Mode.ofWord row.mode = some .pytorchHalfPixel ∧ ¬ badDims row ∧
    ¬ ((1 : Int) = u32 row.inDim2 ∧ (3 : Int) = u32 row.inDim3) ∧
    checkGeometry rowJob = none ∧ coordsFinite rowJob = true ∧
    ∀ it ∈ rowJob.order, it.backed Params.default rowJob = true := ⟨rowMem_wf, rfl, by decide +kernel⟩

theorem witness_EqualSizesScaleByOne : ((1 : Int) ≤ 1 ∧ (1 : Int) < 2 ^ 32) ∧ (1 : Int) ≤ 2 ^ 32 - 1 ∧
    (2 : Int) ^ 32 - 1 < 2 ^ 32 := by decide

theorem witness_RunIsNeverNonfinite : (started 5 row rowMem).work = none ∧ ∃ t, exec .run (started 5 row rowMem) = .next t :=
  ⟨rfl, of_goes (by decide +kernel)⟩

theorem witness_GeometryCheckMeansDisjoint : 0 < rowJob.nIn ∧ 0 < rowJob.nOut ∧ checkGeometry rowJob = none ∧
    0 < (runJob { row with inAddr := 0xFFFFFFFE } .none 1 3).nIn ∧
    checkGeometry (runJob { row with inAddr := 0xFFFFFFFE } .none 1 3) = none ∧
    checkGeometry (runJob { row with outAddr := 0x1002 } .none 1 3) = none ∧
    checkGeometry (runJob { row with outAddr := 0x1001 } .none 1 3) ≠ none := by decide +kernel

theorem witness_WriteOrderDoesNotMatter : JobOk rowJob ∧ rowMem.wf ∧ rowJob.order.reverse.Perm rowJob.order ∧
    rowJob.order.reverse ≠ rowJob.order := ⟨rowJob_ok, rowMem_wf, List.reverse_perm _, by decide +kernel⟩

theorem witness_InnerMovesKeepTheOutcome_fork : GoodState (running row) ∧ Move.fork.inner = true ∧
    (∃ t, perform .fork (running row) = .next t) ∧ ∃ u, completeMove (running row) = .next u :=
  ⟨good_running, rfl, of_goes (by decide +kernel), of_goes (by decide +kernel)⟩

theorem witness_InnerMovesKeepTheOutcome_copy : GoodState (forked sameJob same) ∧ (Move.copyElement 1).inner = true ∧
    (∃ t, perform (.copyElement 1) (forked sameJob same) = .next t) ∧
    ∃ u, completeMove (forked sameJob same) = .next u :=
  ⟨good_forked_copy, rfl, of_goes (by decide +kernel), of_goes (by decide +kernel)⟩

theorem witness_InnerMovesKeepTheOutcome_worker : GoodState taken ∧ (Move.workerPass 0).inner = true ∧
    (∃ t, perform (.workerPass 0) taken = .next t) ∧ ∃ u, completeMove taken = .next u :=
  ⟨good_taken, rfl, of_goes (by decide +kernel), of_goes (by decide +kernel)⟩

theorem witness_EveryCommandEnds : GoodState taken ∧ allBacked taken.params ∧ ∃ f, taken.inflight = some f :=
  ⟨good_taken, rfl, _, rfl⟩

theorem witness_StepsStopOnlyForTheHost : GoodState (busyAt [.memRead 0]) ∧ allBacked (busyAt [.memRead 0]).params ∧
    step (busyAt [.memRead 0]) = .refused .hostMemoryWhileBusy := ⟨good_next _ good_running, rfl, rfl⟩

theorem good_unread (ms : List Move) : GoodState (unreadAt ms) :=
  good_next ms ⟨rowMem_wf, by decide +kernel, by decide +kernel, by decide +kernel, by decide +kernel,
    fun f h => (by cases h), fun f h => (by cases h), fun f w h => (by cases h), fun f h => (by cases h),
    fun h => (by cases h)⟩

theorem witness_StepsStopOnlyForTheHost_unread : GoodState (unreadAt [.memRead 0x2000]) ∧
    allBacked (unreadAt [.memRead 0x2000]).params ∧
    step (unreadAt [.memRead 0x2000]) = .refused .hostMemoryBeforeRead := ⟨good_unread _, rfl, rfl⟩

theorem witness_HostStoreThenLoad :
    (readyAt [.memWrite 0xFFFFFFFF 7, .memRead 0xFFFFFFFF]).mem.wf ∧
    (errorAt [.memWrite 0xFFFFFFFF 7, .memRead 0]).status.state ≠ .busy ∧
    allBacked (readyAt [.memWrite 0xFFFFFFFF 7, .memRead 0xFFFFFFFF]).params ∧
    inRanges (readyAt []).guard.noStore 0xFFFFFFFF = false ∧ inRanges (readyAt []).guard.noLoad 0xFFFFFFFF = false ∧
    (readyAt [.memWrite 0xFFFFFFFF 7, .memRead 0xFFFFFFFF]).moves = .memWrite 0xFFFFFFFF 7 :: .memRead 0xFFFFFFFF :: [] :=
  ⟨rowMem_wf, by decide, rfl, rfl, rfl, rfl⟩

/-- Just after the output, and in the input, which the host may read. -/
theorem witness_HostStoreThenLoad_unread :
    (unreadAt [.memWrite 0x2003 7, .memRead 0x1000]).mem.wf ∧
    (unreadAt [.memWrite 0x2003 7, .memRead 0x1000]).status.state ≠ .busy ∧
    allBacked (unreadAt [.memWrite 0x2003 7, .memRead 0x1000]).params ∧
    inRanges (unreadAt []).guard.noStore 0x2003 = false ∧ inRanges (unreadAt []).guard.noLoad 0x1000 = false ∧
    (unreadAt [.memWrite 0x2003 7, .memRead 0x1000]).moves = .memWrite 0x2003 7 :: .memRead 0x1000 :: [] :=
  ⟨rowMem_wf, by decide, rfl, by decide +kernel, by decide +kernel, rfl⟩

theorem witness_HostMemoryRefusedWhileBusy : (busyAt [.memWrite 0 7]).status.state = .busy ∧
    (busyAt [.memWrite 0 7]).moves = .memWrite 0 7 :: [] ∧ (busyAt [.memRead 0]).moves = .memRead 0 :: [] := by decide

theorem witness_HostMemoryRefusedWhileBusy_unread : (unreadAt [.memWrite 0x1001 7]).status.state ≠ .busy ∧
    (unreadAt []).params.holes = [] ∧ (0x1000, 0x1002) ∈ (unreadAt []).guard.noStore ∧
    (0x2000, 0x2003) ∈ (unreadAt []).guard.noLoad ∧ (unreadAt [.memWrite 0x1001 7]).moves = .memWrite 0x1001 7 :: [] ∧
    (unreadAt [.memRead 0x2002]).moves = .memRead 0x2002 :: [] := by decide +kernel

theorem witness_TensorsAreGuardedUntilTheEndIsRead_accepted :
    (readyAt [.regWrite 0 5]).status.state = .ready ∧ (readyAt [.regWrite 0 5]).moves = .regWrite 0x00 5 :: [] ∧
    (doneAt [.regWrite 0 4]).status.state = .done ∧ (doneAt [.regWrite 0 4]).moves = .regWrite 0x00 4 :: [] ∧
    u32 (readyAt []).regs.inRank = 4 ∧
    (readyAt []).regs.resolveSize (readyAt []).params (readyAt []).mem = .size 1 3 ∧
    u32 Regs.reset.inRank ≠ 4 ∧ (3 : Word) ≠ 4 ∧ (3 : Word) ≠ 5 := by decide +kernel

/-- With the size tensor in use. -/
theorem witness_TensorsAreGuardedUntilTheEndIsRead_size :
    ({ row with sizeW := 0, cfg := 2, sizeAddr := 0x3000 } : Regs).resolveSize Params.default (put 0x3000 [1, 3]) =
      .size 1 3 ∧ ¬ (0 < s32 { row with sizeW := 0 }.sizeH ∧ 0 < s32 { row with sizeW := 0 }.sizeW) := by decide +kernel

theorem witness_TensorsAreGuardedUntilTheEndIsRead_kept : (∃ t, step (busyAt []) = .next t) ∧
    (∃ t, step (busyAt [.regRead 0x01]) = .next t) ∧ (busyAt [.regRead 0x01]).status.state = .busy ∧
    (∀ ms, (busyAt [.regRead 0x01]).moves ≠ .reset :: ms) ∧
    (busyAt []).guard.noStore = [(0x1000, 0x1002), (0x2000, 0x2003)] :=
  ⟨of_goes (by decide +kernel), of_goes (by decide +kernel), rfl, fun ms h => (by cases h), by decide +kernel⟩

theorem witness_TensorsAreGuardedUntilTheEndIsRead_read : (unreadAt [.regRead 0x01]).status.state = .error ∧
    (unreadAt [.regRead 0x01]).moves = .regRead 0x01 :: [] := by decide

/-- R166: a store to the input is refused until `STATUS` has been read. -/
theorem test_unread : step (unreadAt [.memWrite 0x1000 7]) = .refused .hostMemoryBeforeRead := rfl

/-- After that read it acts. -/
theorem test_read : ∃ t u, step (unreadAt [.regRead 0x01, .memWrite 0x1000 7]) = .next t ∧ step t = .next u ∧
    u.mem.readElem 0x1000 = 7 := ⟨_, _, rfl, rfl, by decide +kernel⟩

theorem witness_RoundingIsToNearestEven : isFinite (0x4B800000 : Word) = true ∧ isFinite (0x3F800000 : Word) = true ∧
    isFinite (0x7F7FFFFF : Word) = true ∧ isFinite (0x00000001 : Word) = true ∧ realOf 0x00000001 ≠ 0 ∧
    realOf 0x40400000 ≠ 0 := by decide +kernel

/-- R7 by hand: `2^24 + 1` is a tie and stays, `2^24 + 3` is one and goes up; the largest number doubled overflows; and
`1 / (2^24 - 1)` is above the tie `2^-24 * (1 + 2^-24)` by far less than the bits of the quotient show. -/
theorem test_rounding : fadd 0x4B800000 0x3F800000 = 0x4B800000 ∧ fadd 0x4B800000 0x40400000 = 0x4B800002 ∧
    fmul 0x7F7FFFFF 0x40000000 = 0x7F800000 ∧ fdiv 0x00000001 0x00FFFFFF = 0x33800001 := by decide +kernel

theorem witness_RoundingKeepsNumbers : isFinite 0x00000001 = true ∧ isFinite 0x80000000 = true ∧ isFinite 0x7F7FFFFF = true := by
  decide

theorem witness_SmallIntegersConvertExactly : (-(2 ^ 24) : Int) ≤ -(2 ^ 24) ∧ (2 ^ 24 : Int) ≤ 2 ^ 24 := by decide

theorem witness_NanResultsAreNans : isNaN 0x7F800001 = true ∧ isNaN 0xFFFFFFFF = true ∧ isNaN 0x7F800000 = false := by decide

end Sys2Proof.Tests
end

