-- ==== Sys2Proof/Proofs/UnmappedIndex.lean ====
section
/-! PROOFS. The indices that select no register (R24): nothing is read and nothing is written there. -/

namespace Sys2Proof.Machine

/-- The register map of R11 ends at `0x24`: every row that selects a register contradicts `h`. -/
theorem Reg.ofIndex_eq_none {idx : BitVec 8} (h : 0x24 < idx.toNat) : Reg.ofIndex idx = none := by
  unfold Reg.ofIndex
  split
  case h_38 => rfl
  all_goals omega

/-- A host read of an index that selects no register records the datum 0 and does nothing else. -/
theorem regReadMove_unmapped {idx : BitVec 8} (h : Reg.ofIndex idx = none) (s : State) :
    regReadMove idx s = { s with reads := 0 :: s.reads } := by
  simp only [regReadMove, h, returned]

/-- A host write to an index that selects no register does nothing. -/
theorem writeIndex_unmapped {idx : BitVec 8} (h : Reg.ofIndex idx = none) (data : Word) (s : State) :
    writeIndex idx data s = s := by
  simp only [writeIndex, h]

/-- Settles O4: above `0x24` no register is selected, and the step is then the read or the write of no register. -/
theorem unmappedIndexIsInert : Obligations.UnmappedIndexIsInert := by
  intro s idx data ms hidx
  have hnone : Reg.ofIndex idx = none := Reg.ofIndex_eq_none hidx
  constructor
  · intro hmoves
    rw [step_cons hmoves, perform, regReadMove_unmapped hnone]
  · intro hmoves
    rw [step_cons hmoves, perform, writeIndex_unmapped hnone]

end Sys2Proof.Machine
end

