-- ==== Sys2Proof/Proofs/IllegalWord.lean ====
section
/-! PROOFS. The command words that select no command (R62, R63): the decoder rejects them, and the command they start ends
in `ERROR`. -/

namespace Sys2Proof.Machine

/-- The decoder rejects an opcode outside `0x01 .. 0x05`: each row of R62 that selects a command contradicts `h`. -/
theorem decodeOp_reserved {op : BitVec 8} (h : op = 0 ∨ 5 < op.toNat) : decodeOp op = .error (.reservedOpcode op) := by
  have hrange : op.toNat = 0 ∨ 5 < op.toNat := h.imp_left fun hzero => by rw [hzero]; rfl
  unfold decodeOp
  split
  case h_6 => rfl
  all_goals omega

/-- The decoder rejects the three kinds of illegal word of R63. -/
theorem decode_illegal {w : Word}
    (h : w.extractLsb' 8 24 ≠ 0 ∨ w.extractLsb' 0 8 = 0 ∨ 5 < (w.extractLsb' 0 8).toNat) :
    ∃ e, decode w = .error e := by
  rw [decode_fields]
  by_cases hzero : w.extractLsb' 8 24 = 0
  · have hop : w.extractLsb' 0 8 = 0 ∨ 5 < (w.extractLsb' 0 8).toNat := h.resolve_left (not_not_intro hzero)
    exact ⟨_, by rw [if_pos hzero, decodeOp_reserved hop]⟩
  · exact ⟨_, if_neg hzero⟩

/-- An illegal word describes no tensors, so its acceptance bans the host from none (R63, R166). -/
theorem wordTensors_illegal {w : Word} {e : DecodeError} (h : decode w = .error e) (d : Regs) (p : Params) (m : Memory) :
    wordTensors w d p m = Guard.none := by
  simp only [wordTensors, h]

/-- The step that writes a command word to `CMD` in `READY` or `DONE` accepts it (R13). -/
theorem step_accepts {s : State} {w : Word} {ms : List Move} (hstate : s.status.state = .ready ∨ s.status.state = .done)
    (hmoves : s.moves = .regWrite 0x00 w :: ms) : step s = .next (accept w { s with moves := ms }) := by
  rw [step_cons hmoves, perform, writeIndex_cmd, if_pos hstate]

/-- The step that completes an illegal word is the error entry with `ERR_ILLEGAL_CMD` (R63, R143). -/
theorem step_complete_illegal {s : State} {f : InFlight} {e : DecodeError} {ms : List Move}
    (hmoves : s.moves = .complete :: ms) (hinflight : s.inflight = some f) (hword : decode f.word = .error e) :
    step s = .next (raise .illegalCmd { s with moves := ms }) := by
  rw [step_cons hmoves, perform, @completeMove_eq { s with moves := ms } f hinflight, hword]

/-- Settles O3: the first step accepts the word, the second is the error entry, and neither touches anything else; the
guard is kept because an illegal word describes no tensors. -/
theorem illegalWordEndsInError : Obligations.IllegalWordEndsInError := by
  intro s w ms hillegal hstate hmoves
  obtain ⟨e, hdecode⟩ := decode_illegal hillegal
  have haccept : step s = .next (accept w { s with moves := .complete :: ms }) := step_accepts hstate hmoves
  have hguard : (accept w { s with moves := .complete :: ms }).guard = s.guard := by
    rw [accept_guard, wordTensors_illegal hdecode, Guard.add_none]
  have hend := step_complete_illegal (accept_moves { s with moves := .complete :: ms } w) (accept_inflight _ w) hdecode
  exact ⟨_, _, haccept, rfl, hend, rfl, rfl, rfl, rfl, hguard, rfl, rfl, rfl⟩

end Sys2Proof.Machine
end

