-- ==== Sys2Proof/Proofs/FreeNaN.lean ====
section
/-! PROOFS. The free value of a NaN result (R7, U5, log 4): the pattern drawn is a NaN, and what is not a NaN is kept. -/

namespace Sys2Proof.Machine

/-- A pattern is a NaN when its exponent is all ones and its fraction is not 0 (R7). -/
theorem isNaN_iff {a : Word} : isNaN a = true ↔ expField a = 255 ∧ fracField a ≠ 0 := by
  simp [isNaN]

theorem expField_or (a b : Word) : expField (a ||| b) = expField a ||| expField b := by
  simp only [expField, BitVec.toNat_or, Nat.or_div_two_pow, show 256 = 2 ^ 8 from rfl, Nat.or_mod_two_pow]

theorem fracField_or (a b : Word) : fracField (a ||| b) = fracField a ||| fracField b := by
  simp only [fracField, BitVec.toNat_or, Nat.or_mod_two_pow]

/-- Setting the eight exponent bits makes the exponent all ones. -/
theorem expField_or_infinity (a : Word) : expField (a ||| 0x7F800000) = 255 := by
  have hlt : expField a < 256 := Nat.mod_lt _ (by decide)
  have hle : expField a ||| 255 < 2 ^ 8 := Nat.or_lt_two_pow hlt (by decide)
  rw [expField_or, show expField 0x7F800000 = 255 by decide]
  exact Nat.le_antisymm (Nat.le_of_lt_succ hle) Nat.right_le_or

/-- The pattern drawn for a NaN is one: its exponent is all ones, and a zero fraction gets bit 22 (R7, U5). -/
theorem isNaN_someNaN (tick site : Nat) : isNaN (someNaN tick site) = true := by
  rw [isNaN_iff, someNaN]
  have hexp : expField (Config.nanBits tick site ||| 0x7F800000) = 255 := expField_or_infinity _
  split
  next hfrac =>
    rw [expField_or, hexp, fracField_or, hfrac]
    decide
  next hfrac => exact ⟨hexp, hfrac⟩

theorem resolveNaN_of_isNaN {v : Word} (h : isNaN v = true) (tick site : Nat) :
    isNaN (resolveNaN tick site v) = true := by
  rw [resolveNaN, if_pos h, isNaN_someNaN]

theorem resolveNaN_of_not_isNaN {v : Word} (h : isNaN v = false) (tick site : Nat) : resolveNaN tick site v = v := by
  simp [resolveNaN, h]

end Sys2Proof.Machine
end

