-- ==== Sys2Proof/Proofs/CoefficientTable.lean ====
section
/-! PROOFS. The coefficient tables (R81 to R84): the layout of the generated table, the table each mode selects, and the
entry that `GETTAB` reads (R85). -/

namespace Sys2Proof.Machine

/-! ### The layout of the generated table -/

/-- Pairs laid one after another: an even place holds the first part of its pair, an odd place the second. -/
theorem getElem?_flatMap_pair {α : Type} (f g : Nat → α) {n j : Nat} (h : j < 2 * n) :
    ((List.range n).flatMap fun i => [f i, g i])[j]? = some (if j % 2 = 0 then f (j / 2) else g (j / 2)) := by
  induction n with
  | zero => omega
  | succ n ih =>
    have hlen : ((List.range n).flatMap fun i => [f i, g i]).length = 2 * n := by simp [mul_comm]
    rw [List.range_succ, List.flatMap_append, List.flatMap_singleton]
    rcases lt_or_ge j (2 * n) with hold | hnew
    · rw [List.getElem?_append_left (hlen ▸ hold), ih hold]
    · rw [List.getElem?_append_right (hlen ▸ hnew), hlen]
      obtain rfl | rfl : j = 2 * n ∨ j = 2 * n + 1 := by omega
      · simp
      · simp [Nat.add_mod, Nat.mul_add_div]

theorem tgen_length (K : Nat) (A : Word) : (tgen K A).length = 2 * (K + 1) := by
  simp [tgen, mul_comm]

/-- What stands at each place of the generated table (R82). -/
theorem tgen_getElem? {K j : Nat} (A : Word) (h : j ≤ 2 * K + 1) :
    (tgen K A)[j]? = some (if j % 2 = 0 then branch1 A (tabArg K (j / 2)) else branch2 A (tabArg K (j / 2))) :=
  getElem?_flatMap_pair (fun i => branch1 A (tabArg K i)) (fun i => branch2 A (tabArg K i)) (by omega)

/-- The entries of a valid table are those of the table generated with its shape parameter (R23, R84). -/
theorem tgen_getElem?_tabEntry {K j : Nat} (t : Table) (h : j ≤ 2 * K + 1) :
    (tgen K t.shape)[j]? = some (tabEntry K t j) :=
  tgen_getElem? t.shape h

/-- Settles O23: places `2i` and `2i+1` of the table have quotient `i` and remainders 0 and 1. -/
theorem tableLayout : Obligations.TableLayout := by
  intro K A
  refine ⟨tgen_length K A, fun i hi => ⟨?_, ?_⟩⟩
  · rw [tgen_getElem? A (by omega), if_pos (by omega), Nat.mul_div_cancel_left i (by decide)]
  · rw [tgen_getElem? A (by omega), if_neg (by omega), show (2 * i + 1) / 2 = i by omega]

/-! ### The modes and the tables they select -/

theorem Mode.ofWord_zero {w : Word} (h : u32 w = 0) : Mode.ofWord w = some .none := by
  unfold u32 at h; simp only [Mode.ofWord, h]

theorem Mode.ofWord_one {w : Word} (h : u32 w = 1) : Mode.ofWord w = some .halfPixel := by
  unfold u32 at h; simp only [Mode.ofWord, h]

theorem Mode.ofWord_two {w : Word} (h : u32 w = 2) : Mode.ofWord w = some .pytorchHalfPixel := by
  unfold u32 at h; simp only [Mode.ofWord, h]

/-- The values of `MODE` above 2 are reserved (R65). -/
theorem Mode.ofWord_reserved {w : Word} (h : 2 < u32 w) : Mode.ofWord w = Option.none := by
  unfold u32 at h
  unfold Mode.ofWord
  split
  case h_4 => rfl
  all_goals omega

/-- `HALF_PIXEL` alone selects table 1 (R83). -/
theorem sel_eq (m : Mode) : sel m = if m = .halfPixel then .tab1 else .tab0 := by cases m <;> rfl

/-- Settles O56: the values of `MODE` one by one, then `SEL` of `HALF_PIXEL` and of the two other modes. -/
theorem modesSelectTheirTables : Obligations.ModesSelectTheirTables := by
  refine ⟨fun w => ⟨Mode.ofWord_zero, Mode.ofWord_one, Mode.ofWord_two, Mode.ofWord_reserved⟩, ⟨rfl, rfl⟩, ?_⟩
  intro m hm
  rw [sel_eq, if_neg hm]
  exact ⟨rfl, rfl⟩

/-- A legal word is a mode, and only the word 1 selects table 1 (R65, R83). -/
theorem Mode.exists_ofWord_sel {w : Word} (h : u32 w ≤ 2) :
    ∃ m, Mode.ofWord w = some m ∧ sel m = if u32 w = 1 then .tab1 else .tab0 := by
  obtain h0 | h1 | h2 : u32 w = 0 ∨ u32 w = 1 ∨ u32 w = 2 := by omega
  · exact ⟨_, Mode.ofWord_zero h0, by rw [h0]; rfl⟩
  · exact ⟨_, Mode.ofWord_one h1, by rw [h1]; rfl⟩
  · exact ⟨_, Mode.ofWord_two h2, by rw [h2]; rfl⟩

/-! ### The outcomes of `GETTAB` (R85) -/

/-- The descriptor copy is what a command in progress reads (R27). -/
theorem operands_of_inflight {s : State} {f : InFlight} (h : s.inflight = some f) : s.operands = f.desc := by
  simp only [State.operands, h]

theorem exec_gettab_badMode {s : State} (hmode : Mode.ofWord s.operands.mode = none) :
    exec .gettab s = .next (raise .badMode s) := by
  simp only [exec, execGettab, hmode]

theorem exec_gettab_badIndex {s : State} {m : Mode} (hmode : Mode.ofWord s.operands.mode = some m)
    (hidx : 2 * s.params.K + 1 < u32 s.operands.tabIdx) : exec .gettab s = .next (raise .badIndex s) := by
  simp only [exec, execGettab, hmode, if_pos hidx]

theorem exec_gettab_reads {s : State} {m : Mode} (hmode : Mode.ofWord s.operands.mode = some m)
    (hidx : u32 s.operands.tabIdx ≤ 2 * s.params.K + 1) :
    exec .gettab s = .next (completed { ensureTable (sel m) s with
      regs := { s.regs with
        tabSel := (sel m).number
        result := resolveNaN s.tick 0 (tabEntry s.params.K (sel m) (u32 s.operands.tabIdx)) } }) := by
  simp only [exec, execGettab, hmode, if_neg (Nat.not_lt.2 hidx)]

/-- `STATUS` after a command that needed table `t` has completed (R84, R168). -/
theorem Status.completed_setValid (st : Status) (t : Table) :
    (st.setValid t).completed =
      ⟨.done, st.tabValid0 || decide (t = .tab0), st.tabValid1 || decide (t = .tab1), 0⟩ := by
  cases t <;> simp [Status.setValid, Status.completed]

/-- Settles O22: the two checks in their order, then the entry of the table that `MODE` selects. -/
theorem gettabReadsTheTable : Obligations.GettabReadsTheTable := by
  refine ⟨rfl, fun s f hf => ?_⟩
  rw [← operands_of_inflight hf]
  refine ⟨fun hmode => exec_gettab_badMode (Mode.ofWord_reserved hmode), fun hmode hidx => ?_, fun hmode hidx => ?_⟩
  · obtain ⟨m, hm, -⟩ := Mode.exists_ofWord_sel hmode
    exact exec_gettab_badIndex hm hidx
  · obtain ⟨m, hm, hsel⟩ := Mode.exists_ofWord_sel hmode
    have hshape : (sel m).shape = if u32 s.operands.mode = 1 then 0xBF000000 else 0xBF400000 := by
      rw [hsel, apply_ite Table.shape]; rfl
    have hnumber : (sel m).number = if u32 s.operands.mode = 1 then 1 else 0 := by
      rw [hsel, apply_ite Table.number]; rfl
    refine ⟨_, _, _, exec_gettab_reads hm hidx, hshape ▸ tgen_getElem?_tabEntry (sel m) hidx,
      fun h => resolveNaN_of_not_isNaN h s.tick 0, fun h => resolveNaN_of_isNaN h s.tick 0, ?_, ?_,
      fun _ => rfl, rfl, rfl, rfl, rfl, rfl, rfl⟩
    · rw [← hnumber]; rfl
    · rw [completed_status, ensureTable_status, Status.completed_setValid, hsel]
      split
      next h1 => simp [h1]
      next h1 => simp [h1]

end Sys2Proof.Machine
end

