-- ==== Sys2Proof/Proofs/Interp.lean ====
section
/-! PROOFS. `INTERP` (R106): its one outcome, the dot product of R105 in `RESULT`. -/

namespace Sys2Proof.Machine

/-- `INTERP` has no check: it completes, whatever its operands. -/
theorem exec_interp (s : State) :
    exec .interp s = .next (completed { s with
      regs := { s.regs with
        result := resolveNaN s.tick 0 (interp1D
          ⟨s.operands.wgt0, s.operands.wgt1, s.operands.wgt2, s.operands.wgt3⟩
          ⟨s.operands.val0, s.operands.val1, s.operands.val2, s.operands.val3⟩) } }) := rfl

/-- Settles O34: the dot product of the descriptor's operands, with a NaN resolved to some NaN pattern, is the only
register `INTERP` writes. -/
theorem interpIsTheDotProduct : Obligations.InterpIsTheDotProduct := by
  refine ⟨rfl, fun s f hf => ?_⟩
  rw [← operands_of_inflight hf]
  exact ⟨_, _, exec_interp s, fun hnum => resolveNaN_of_not_isNaN hnum s.tick 0,
    fun hnan => resolveNaN_of_isNaN hnan s.tick 0,
    completed_regs _, completed_status _, fun _ => rfl, completed_inflight _,
    completed_guard _, completed_params _, completed_free _, completed_moves _, completed_reads _⟩

end Sys2Proof.Machine
end

