-- ==== Sys2Proof/Proofs/Size.lean ====
section
/-! PROOFS. `ResolveSize` (R127): one equation per outcome, and the outcome of the command in progress. -/

namespace Sys2Proof.Machine

/-- What the platform backs (R41), as a proposition about its holes. -/
theorem addrBacked_iff {p : Params} {a : Nat} :
    addrBacked p a = true ↔ a < 2 ^ 32 ∧ ∀ h ∈ p.holes, ¬ (h.1 ≤ a ∧ a < h.2) := by
  simp only [addrBacked, Bool.and_eq_true, List.all_eq_true, Bool.not_eq_true', ← Bool.not_eq_true, decide_eq_true_eq]

section
variable {d : Regs} {p : Params} {m : Memory}

/-- A usable static size is the size, whatever `CFG`, the platform and memory are. -/
theorem Regs.resolveSize_static (hstatic : d.staticSize) : d.resolveSize p m = .size (s32 d.sizeH) (s32 d.sizeW) :=
  if_pos hstatic

theorem Regs.resolveSize_noSize (hstatic : ¬ d.staticSize) (hcfg : d.hasSizeInput = false) :
    d.resolveSize p m = .error .noSize :=
  (if_neg hstatic).trans (if_pos hcfg)

theorem Regs.resolveSize_addrRange (hstatic : ¬ d.staticSize) (hcfg : d.hasSizeInput ≠ false)
    (hrange : 2 ^ 32 < u32 d.sizeAddr + 2) : d.resolveSize p m = .error .addrRange :=
  (if_neg hstatic).trans ((if_neg hcfg).trans (if_pos hrange))

/-- The size tensor decides only where there is one, inside the address space and backed. -/
theorem Regs.resolveSize_tensor (hstatic : ¬ d.staticSize) (hcfg : d.hasSizeInput ≠ false)
    (hrange : ¬ 2 ^ 32 < u32 d.sizeAddr + 2) (hh : addrBacked p (u32 d.sizeAddr) = true)
    (hw : addrBacked p (u32 d.sizeAddr + 1) = true) :
    d.resolveSize p m = .size (s32 (m.readElem (u32 d.sizeAddr))) (s32 (m.readElem (u32 d.sizeAddr + 1))) := by
  simp only [Regs.resolveSize, if_neg hstatic, if_neg hcfg, if_neg hrange, hh, hw, Bool.and_self, if_true]

end

/-- Settles O39: the four outcomes in the order of R127; past the range check both addresses of the size tensor lie
inside the address space, so that outside the holes they are backed. -/
theorem sizeResolution : Obligations.SizeResolution := by
  intro s f hf
  rw [← operands_of_inflight hf]
  intro d
  split_ifs with hstatic hcfg hrange
  · exact Regs.resolveSize_static hstatic
  · exact Regs.resolveSize_noSize hstatic hcfg
  · exact Regs.resolveSize_addrRange hstatic hcfg hrange
  · intro houtside
    have hh : addrBacked s.params (u32 d.sizeAddr) = true :=
      addrBacked_iff.2 ⟨by omega, fun h hmem => houtside h hmem _ (.inl rfl)⟩
    have hw : addrBacked s.params (u32 d.sizeAddr + 1) = true :=
      addrBacked_iff.2 ⟨by omega, fun h hmem => houtside h hmem _ (.inr rfl)⟩
    exact Regs.resolveSize_tensor hstatic hcfg hrange hh hw

end Sys2Proof.Machine
end

