-- ==== Sys2Proof/Proofs/BusyWrite.lean ====
section
/-! PROOFS. Host writes while a command is in progress (R165): they are lost, `CMD` among them. -/

namespace Sys2Proof.Machine

/-- While `BUSY` a host write to any index does nothing: a write that acts either starts a command, which needs `READY`
or `DONE`, or stores an `RW` register, which needs a state other than `BUSY`. -/
theorem writeIndex_busy (idx : BitVec 8) (data : Word) (s : State) (hbusy : s.status.state = .busy) :
    writeIndex idx data s = s := by
  obtain hlost | ⟨-, hstarts⟩ | ⟨_, -, -, hidle, -⟩ := writeIndex_cases idx data s
  · exact hlost
  · simp [hbusy] at hstarts
  · exact absurd hbusy hidle

/-- Settles O8: the step consumes the write, and the write does nothing. -/
theorem writesWhileBusyAreLost : Obligations.WritesWhileBusyAreLost := by
  intro s idx data ms hbusy hmoves
  have hlost : writeIndex idx data { s with moves := ms } = { s with moves := ms } :=
    writeIndex_busy idx data { s with moves := ms } hbusy
  rw [step_cons hmoves, perform, hlost]

end Sys2Proof.Machine
end

