-- ==== Sys2Proof/Proofs/CommandWord.lean ====
section
/-! PROOFS. The five command words (R61, R62): each is read back as its command, and no other word is. -/

namespace Sys2Proof.Machine

/-- Settles O1: each word is closed, so the decoder computes. -/
theorem commandWordsDecode : Obligations.CommandWordsDecode := by
  unfold Obligations.CommandWordsDecode
  decide

/-- Only the opcode of a command selects it (R62). -/
theorem eq_opcode_of_decodeOp {op : BitVec 8} {i : Instr} (h : decodeOp op = .ok i) : op = i.opcode := by
  unfold decodeOp at h
  apply BitVec.eq_of_toNat_eq
  split at h <;> cases h
  all_goals assumption

/-- A word is its two fields (R61). -/
theorem CmdWord.toWord_ofWord (w : Word) : (CmdWord.ofWord w).toWord = w :=
  BitVec.extractLsb'_append_extractLsb'_eq_extractLsb' rfl |>.trans BitVec.extractLsb'_eq_self

/-- A word that selects a command is the word of that command. -/
theorem eq_encode_of_decode {w : Word} {i : Instr} (h : decode w = .ok i) : w = encode i := by
  rw [decode_fields] at h
  split at h
  next hzero =>
    have hop : w.extractLsb' 0 8 = i.opcode := eq_opcode_of_decodeOp h
    have hfields : CmdWord.ofWord w = ⟨i.opcode, 0⟩ := by rw [CmdWord.ofWord, hzero, hop]
    rw [encode, ← hfields, CmdWord.toWord_ofWord]
  next => cases h

/-- Settles O2: a command word decodes to its command, opcode by opcode, and the two fields of a word that decodes to it
are those of its word. -/
theorem decodeAndEncodeAgree : Obligations.DecodeAndEncodeAgree := by
  intro i _
  refine ⟨?_, fun w hw => eq_encode_of_decode hw⟩
  cases i
  case gettab => exact Laws.CommandWord.gettab.2.2
  case locate => exact Laws.CommandWord.locate.2.2
  case interp => exact Laws.CommandWord.interp.2.2
  case resize => exact Laws.CommandWord.resize.2.2
  case run => exact Laws.CommandWord.run.2.2

end Sys2Proof.Machine
end

