-- ==== Sys2Proof/Proofs/Registers.lean ====
section
/-! PROOFS. The register file under the host's transactions (R11, R13, R16, R25, R60) and the reset event (R160, R161). -/

namespace Sys2Proof.Machine

/-! ### The step that runs a command -/

/-- The block's own move, next in the list, executes the command in progress. -/
theorem step_complete {s : State} {f : InFlight} {i : Instr} {ms : List Move} (hmoves : s.moves = .complete :: ms)
    (hf : s.inflight = some f) (hdecode : decode f.word = .ok i) : step s = exec i { s with moves := ms } := by
  rw [step_cons hmoves, perform, @completeMove_eq { s with moves := ms } f hf, hdecode]

/-- Settles O15: with no move listed, or with the block's own move next, the step completes the command in progress. -/
theorem stepRunsTheDecodedCommand : Obligations.StepRunsTheDecodedCommand := by
  intro s f i hf hdecode _
  refine ⟨fun hmoves => ?_, fun ms hmoves => step_complete hmoves hf hdecode⟩
  rw [step_nil hmoves, completeMove_eq hf, hdecode]

/-- Settles O16: the block's own move stands first after the word has been placed. -/
theorem fetchWordRunsNext : Obligations.FetchWordRunsNext := fun s nbits w _ hdecode =>
  step_complete (s := s.withFetchWord nbits w) rfl rfl hdecode

/-! ### The register map and the status word (R11, R14) -/

/-- An index selects only the register whose index it is. -/
theorem Reg.index_of_ofIndex {idx : BitVec 8} {n : Reg} (h : Reg.ofIndex idx = some n) : n.index = idx := by
  unfold Reg.ofIndex at h
  apply BitVec.eq_of_toNat_eq
  split at h <;> cases h
  all_goals exact Eq.symm ‹_›

theorem Reg.ofIndex_eq_some_iff {idx : BitVec 8} {n : Reg} : Reg.ofIndex idx = some n ↔ n.index = idx :=
  ⟨Reg.index_of_ofIndex, fun h => h ▸ Reg.ofIndex_index n⟩

/-- Settles O5: the index map is injective by its own rows, and each row of R11 is read off the definitions. -/
theorem registerIndicesAreTheMap : Obligations.RegisterIndicesAreTheMap := by
  refine ⟨fun idx n => Reg.ofIndex_eq_some_iff, fun s => ⟨fun n => ?_, ?_⟩⟩
  · cases n <;> simp
  · simp only [List.forall_mem_cons]
    repeat' constructor
    exact fun _ h => nomatch h

/-- The bits of `STATUS`, from the lowest field up (R14). -/
theorem Status.word_getLsbD (st : Status) (i : Nat) :
    st.word.getLsbD i =
      if i < 2 then st.state.code.getLsbD i
      else if i = 2 then st.tabValid0
      else if i = 3 then st.tabValid1
      else if i < 8 then false
      else st.errCode.getLsbD (i - 8) := by
  change ((0 : BitVec 16) ++ st.errCode ++ (0 : BitVec 4) ++ BitVec.ofBool st.tabValid1 ++ BitVec.ofBool st.tabValid0 ++
    st.state.code).getLsbD i = _
  simp only [BitVec.getLsbD_append]
  rcases lt_or_ge i 8 with hlow | hhigh
  · interval_cases i <;> simp
  · have hplace : i - 2 - 1 - 1 - 4 = i - 8 := by omega
    rw [hplace]
    rcases lt_or_ge i 16 with herr | hzero
    · simp [show ¬ i < 2 by omega, show ¬ i - 2 < 1 by omega, show ¬ i - 2 - 1 < 1 by omega,
        show ¬ i - 2 - 1 - 1 < 4 by omega, show i - 8 < 8 by omega, show i ≠ 2 by omega, show i ≠ 3 by omega,
        show ¬ i < 8 by omega]
    · simp [show ¬ i < 2 by omega, show ¬ i - 2 < 1 by omega, show ¬ i - 2 - 1 < 1 by omega,
        show ¬ i - 2 - 1 - 1 < 4 by omega, show ¬ i - 8 < 8 by omega, show i ≠ 2 by omega, show i ≠ 3 by omega,
        show ¬ i < 8 by omega, BitVec.getLsbD_of_ge st.errCode (i - 8) (by omega)]

/-- Settles O6: each field is cut out of `STATUS` bit by bit. -/
theorem statusWordLayout : Obligations.StatusWordLayout := by
  refine ⟨fun _ => rfl, fun st => ⟨?_, ?_, ?_, ?_, ?_, ?_⟩, rfl, rfl, rfl, rfl, rfl, rfl, rfl, rfl, rfl, rfl⟩
  · have hstate : st.word.extractLsb' 0 2 = st.state.code := by
      ext i hi
      simp [Status.word_getLsbD, hi]
    rw [hstate]
    cases st.state <;> rfl
  · exact st.word_getLsbD 2
  · exact st.word_getLsbD 3
  · ext i hi
    simp [Status.word_getLsbD, show ¬ 4 + i < 2 by omega, show 4 + i ≠ 2 by omega, show 4 + i ≠ 3 by omega,
      show ¬ 8 ≤ 4 + i by omega]
  · ext i hi
    simp [Status.word_getLsbD, show ¬ 8 + i < 2 by omega, show 8 + i ≠ 2 by omega, show 8 + i ≠ 3 by omega,
      BitVec.getLsbD_eq_getElem hi]
  · ext i hi
    simp [Status.word_getLsbD, show ¬ 16 + i < 2 by omega, show 16 + i ≠ 2 by omega, show 16 + i ≠ 3 by omega,
      BitVec.getLsbD_of_ge st.errCode (16 + i - 8) (by omega)]

/-! ### Host writes (R11, R13, R16) -/

/-- A write to a read-only register does nothing. -/
theorem writeIndex_ro {idx : BitVec 8} {n : Reg} (hidx : Reg.ofIndex idx = some n) (hro : n.access = .ro) (data : Word)
    (s : State) : writeIndex idx data s = s := by
  simp only [writeIndex, hidx, hro]

/-- A write to a read-write register outside `BUSY` sets it. -/
theorem writeIndex_rw {idx : BitVec 8} {n : Reg} (hidx : Reg.ofIndex idx = some n) (hrw : n.access = .rw) {s : State}
    (hidle : s.status.state ≠ .busy) (data : Word) : writeIndex idx data s = { s with regs := s.regs.set n data } := by
  simp only [writeIndex, hidx, hrw, if_neg hidle]

/-- `CFG` keeps the two low bits of a word (R16). -/
theorem setWidth_two_eq_and_three (v : Word) : (v.setWidth 2).setWidth 32 = v &&& 3 := by
  apply BitVec.eq_of_toNat_eq
  simp [BitVec.toNat_and, Nat.and_two_pow_sub_one_eq_mod v.toNat 2]
  omega

/-- A read-write register reads what was stored, `CFG` its two low bits. -/
theorem Regs.get_set_rw (r : Regs) {n : Reg} (hrw : n.access = .rw) (v : Word) :
    (r.set n v).get n = if n = .cfg then v &&& 3 else v := by
  rw [Regs.get_set_self]
  cases n <;> first | exact setWidth_two_eq_and_three v | rfl | cases hrw

/-- A read of any register but `STATUS` is a read of the register file. -/
theorem readReg_of_ne_status (s : State) {n : Reg} (h : n ≠ .status) : readReg s n = s.regs.get n := by
  cases n <;> first | rfl | exact absurd rfl h

theorem Reg.ne_status_of_rw {n : Reg} (h : n.access = .rw) : n ≠ .status := by
  rintro rfl
  cases h

/-- Storing a register leaves every other one as it reads. -/
theorem readReg_set_other (s : State) {n k : Reg} (h : k ≠ n) (v : Word) :
    readReg { s with regs := s.regs.set n v } k = readReg s k := by
  by_cases hk : k = .status
  · subst hk; rfl
  · rw [readReg_of_ne_status _ hk, readReg_of_ne_status _ hk]
    exact Regs.get_set_other _ _ _ _ h

/-- Settles O7: outside `BUSY` the step sets the register, and each other component of the state is kept. -/
theorem hostWriteStoresTheRegister : Obligations.HostWriteStoresTheRegister := by
  intro s idx n data ms hidx hrw hidle hmoves
  refine ⟨{ s with moves := ms, regs := s.regs.set n data }, ?_, ?_, fun k hk => readReg_set_other s hk data, fun _ => rfl,
    rfl, rfl, rfl, rfl, rfl, rfl, rfl⟩
  · rw [step_cons hmoves, perform]
    exact congrArg _ (writeIndex_rw (s := { s with moves := ms }) hidx hrw hidle data)
  · rw [readReg_of_ne_status _ (Reg.ne_status_of_rw hrw)]
    exact Regs.get_set_rw s.regs hrw data

/-- Settles O9: the write is dropped in every state. -/
theorem readOnlyRegistersIgnoreWrites : Obligations.ReadOnlyRegistersIgnoreWrites := by
  intro s idx n data ms hidx hro hmoves
  rw [step_cons hmoves, perform, writeIndex_ro hidx hro]

/-- Settles O10: `READY` and `DONE` accept the word (`step_accepts`), `BUSY` and `ERROR` drop it. -/
theorem commandWriteStartsTheCommand : Obligations.CommandWriteStartsTheCommand := by
  intro s w ms
  refine ⟨fun hstate hmoves => ⟨accept w { s with moves := ms }, _, step_accepts hstate hmoves, rfl, rfl, rfl, rfl, rfl, rfl,
    rfl, rfl, rfl, rfl, rfl, ?_⟩, fun hstate hmoves => ?_, rfl⟩
  · intro i ns hdecode hms
    exact step_complete (hms ▸ accept_moves _ w) (accept_inflight _ w) hdecode
  · have hdropped : ¬ (s.status.state = .ready ∨ s.status.state = .done) := by
      rcases hstate with h | h <;> simp [h]
    rw [step_cons hmoves, perform, writeIndex_cmd, if_neg hdropped]

/-! ### Host reads (R11, R60, R167) -/

/-- No register is about to change where no command is in progress. -/
theorem racing_of_idle {s : State} (h : s.inflight = none) (n : Reg) : racing s n = false := by
  simp only [racing, h]

/-- With a command in progress, the registers about to change are the result registers it selects. -/
theorem racing_iff {s : State} {f : InFlight} (h : s.inflight = some f) (n : Reg) :
    racing s n = true ↔ ∃ i, decode f.word = .ok i ∧ n ∈ resultRegs i := by
  simp only [racing, h]
  cases decode f.word with
  | error e => simp
  | ok i => simp

theorem regReadMove_settled {idx : BitVec 8} {n : Reg} (hidx : Reg.ofIndex idx = some n) {s : State}
    (h : racing s n = false) : regReadMove idx s = returned (readReg s n) (endSeen n s) := by
  simp only [regReadMove, hidx, h, Bool.false_eq_true, if_false]

theorem regReadMove_racing {idx : BitVec 8} {n : Reg} (hidx : Reg.ofIndex idx = some n) {s : State}
    (h : racing s n = true) : regReadMove idx s =
      returned (if Config.busyReadsNew s.free idx.toNat then futureReg s n else readReg s n) { s with free := s.free + 1 } := by
  simp only [regReadMove, hidx, h, if_true]

/-- The value a register will have is the one it has, or the one the command in progress leaves there. -/
theorem futureReg_cases {s : State} {f : InFlight} {i : Instr} (hf : s.inflight = some f) (hi : decode f.word = .ok i)
    (n : Reg) : futureReg s n = readReg s n ∨ ∃ u, exec i s = .next u ∧ futureReg s n = readReg u n := by
  have hcomplete : completeMove s = exec i s := by rw [completeMove_eq hf, hi]
  simp only [futureReg, hcomplete]
  cases exec i s with
  | next u => exact .inr ⟨u, rfl, rfl⟩
  | fault r => exact .inl rfl
  | refused r => exact .inl rfl

/-- Settles O11: between commands no register is about to change, so the read is settled. -/
theorem hostReadReturnsTheRegister : Obligations.HostReadReturnsTheRegister := by
  intro s idx n ms hidle hidx hmoves
  have hsettled := racing_of_idle (s := { s with moves := ms }) hidle n
  rw [step_cons hmoves, perform, regReadMove_settled hidx hsettled]
  simp only [returned, endSeen]
  split_ifs <;> cases n <;> rfl

/-- Settles O12: a register that is not about to change reads as it is; for a result register of the command the datum
is one of the two values. -/
theorem busyReadIsOldOrNew : Obligations.BusyReadIsOldOrNew := by
  intro s f idx n ms hf hidx hmoves
  rw [step_cons hmoves, perform]
  have hread : readReg { s with moves := ms } n = readReg s n := by cases n <;> rfl
  cases hr : racing { s with moves := ms } n with
  | false =>
    rw [regReadMove_settled hidx hr]
    refine ⟨_, _, rfl, ?_, .inl hread, ?_, ?_, ?_, ?_, ?_, ?_, fun hbusy => ?_⟩ <;> simp
    simp [hbusy]
  | true =>
    rw [regReadMove_racing hidx hr]
    refine ⟨_, _, rfl, rfl, ?_, rfl, rfl, rfl, rfl, rfl, rfl, fun _ => rfl⟩
    obtain ⟨i, hi, hn⟩ := (racing_iff (s := { s with moves := ms }) hf n).1 hr
    split
    next =>
      rcases futureReg_cases (s := { s with moves := ms }) hf hi n with hold | ⟨u, hu, hnew⟩
      · exact .inl (hold.trans hread)
      · exact .inr ⟨i, hi, hn, u, hu, hnew⟩
    next => exact .inl hread

/-! ### Reset (R160, R161, R163) -/

/-- What every register reads with the register file and `STATUS` at their reset values. -/
theorem readReg_of_reset {s : State} (hregs : s.regs = Regs.reset) (hstatus : s.status = Status.reset) (n : Reg) :
    readReg s n = if n = .sizeH ∨ n = .sizeW then 0xFFFFFFFF else 0 := by
  cases n <;> simp only [readReg, hregs, hstatus] <;> rfl

/-- Settles O13: with no move and no command in progress the step changes nothing. -/
theorem resetStateHoldsTheSpecsValues : Obligations.ResetStateHoldsTheSpecsValues :=
  ⟨readReg_of_reset rfl rfl, rfl, rfl, rfl⟩

/-- Settles O14: the step is the reset event. -/
theorem resetEventFromAnyState : Obligations.ResetEventFromAnyState := by
  intro s ms hmoves
  refine ⟨resetEvent { s with moves := ms }, ?_, readReg_of_reset rfl rfl, rfl, rfl, rfl, rfl, rfl, rfl, rfl⟩
  rw [step_cons hmoves, perform]

end Sys2Proof.Machine
end

