-- ==== Sys2Proof/Proofs/Moves.lean ====
section
/-! PROOFS. What the moves can do, said once: the end of a command (R143, R168), and each move inside one (R116 to R121);
and from them what every step keeps (R5, R84, R166). -/

namespace Sys2Proof.Machine

/-! ### The end of a command -/

/-- What a command that ends in `DONE` does to the parts of the state its own rules do not fix: no valid bit is cleared
(R84), `TAB_SEL` is kept or a table's number (R22), memory stays canonical. -/
structure EndsDone (s t : State) : Prop where
  state : t.status.state = .done
  errCode : t.status.errCode = 0
  valid : ∀ k, s.status.valid k = true → t.status.valid k = true
  tabSel : t.regs.tabSel = s.regs.tabSel ∨ ∃ k : Table, t.regs.tabSel = k.number
  memory : s.mem.wf → t.mem.wf

/-- A fork clears no valid bit. -/
theorem forkJob_valid {s : State} {k : Table} (j : Job) (h : s.status.valid k = true) :
    (forkJob j s).status.valid k = true := by
  rw [forkJob_status]
  split
  · exact h
  · simp [h]

/-- The outstanding elements are written, and either join ends in `DONE`. -/
theorem finishWork_endsDone {j : Job} {todo : List Item} {join : Job → State → State} {s t : State}
    (hjoin : join = joinResize ∨ join = joinRun) (h : finishWork j todo join s = .next t) : EndsDone s t := by
  obtain ⟨hbacked, rfl⟩ := finishWork_next.1 h
  rcases hjoin with rfl | rfl
  · exact ⟨rfl, rfl, fun k hk => hk, .inl rfl, fun hm => writeItems_wf hm hbacked⟩
  · exact ⟨rfl, rfl, fun k hk => hk, .inl rfl, fun hm => writeItems_wf hm hbacked⟩

theorem runPlan_ends {plan : State → Plan} {join : Job → State → State} {s t : State}
    (hjoin : join = joinResize ∨ join = joinRun) (h : runPlan plan join s = .next t) :
    (∃ e, t = raise e s) ∨ EndsDone s t := by
  rcases runPlan_next h with ⟨w, -, h⟩ | ⟨-, e, -, rfl⟩ | ⟨-, j, -, h⟩
  · exact .inr (finishWork_endsDone hjoin h)
  · exact .inl ⟨e, rfl⟩
  · obtain ⟨hstate, herr, hvalid, htab, hmem⟩ := finishWork_endsDone hjoin h
    exact .inr ⟨hstate, herr, fun k hk => hvalid k (forkJob_valid j hk), htab, hmem⟩

/-- A completed command that has made a table valid and written registers. -/
theorem endsDone_completed {s : State} (k : Table) {regs : Regs}
    (htab : regs.tabSel = s.regs.tabSel ∨ ∃ k : Table, regs.tabSel = k.number) :
    EndsDone s (completed { ensureTable k s with regs := regs }) :=
  ⟨rfl, rfl, fun u hu => by simp [hu], htab, id⟩

/-- Whatever a command does, it raises an error or ends in `DONE`. -/
theorem exec_ends {i : Instr} {s t : State} (h : exec i s = .next t) : (∃ e, t = raise e s) ∨ EndsDone s t := by
  cases i with
  | gettab =>
    simp only [exec, execGettab] at h
    split at h
    · cases h; exact .inl ⟨_, rfl⟩
    · split at h <;> cases h
      · exact .inl ⟨_, rfl⟩
      · exact .inr (endsDone_completed _ (.inr ⟨_, rfl⟩))
  | locate =>
    simp only [exec, execLocate] at h
    split at h
    · cases h; exact .inl ⟨_, rfl⟩
    · split at h
      · cases h; exact .inl ⟨_, rfl⟩
      · split at h <;> cases h
        · exact .inr (endsDone_completed _ (.inl rfl))
        · exact .inl ⟨_, rfl⟩
  | interp =>
    cases h
    exact .inr ⟨rfl, rfl, fun k hk => hk, .inl rfl, id⟩
  | resize => exact runPlan_ends (.inl rfl) h
  | run => exact runPlan_ends (.inr rfl) h

/-- What completing can come to: nothing between commands; else an error or the end of the command (R62, R63, R143). -/
theorem completeMove_ends {s t : State} (h : completeMove s = .next t) :
    (s.inflight = none ∧ t = s) ∨
      s.inflight ≠ none ∧ ((∃ e, t = raise e s) ∨ Ended s t ∧ EndsDone s t) := by
  cases hf : s.inflight with
  | none =>
    simp only [completeMove, hf] at h
    cases h
    exact .inl ⟨rfl, rfl⟩
  | some f =>
    refine .inr ⟨by simp, ?_⟩
    rw [completeMove_eq hf] at h
    cases hd : decode f.word with
    | error e =>
      simp only [hd] at h
      cases h
      exact .inl ⟨_, rfl⟩
    | ok i =>
      simp only [hd] at h
      exact (exec_ends h).imp_right fun hdone => ⟨exec_next h, hdone⟩

/-- Settles O21: a command that ends in `ERROR` has raised an error, which changes `STATUS` and ends the command. -/
theorem errorChangesOnlyStatus : Obligations.ErrorChangesOnlyStatus := by
  intro s t f hf h herror
  rcases completeMove_ends h with ⟨hidle, -⟩ | ⟨-, ⟨e, rfl⟩ | ⟨-, hdone⟩⟩
  · rw [hf] at hidle
    cases hidle
  · exact ⟨e, rfl⟩
  · rw [hdone.state] at herror
    cases herror

/-! ### The moves inside a forked command -/

/-- Inside a forked command a move that is not its agent's does nothing; `act` says what it does otherwise. -/
theorem copyMove_next {k : Nat} {s t : State} (h : copyMove k s = .next t) :
    t = s ∨ ∃ f w n, s.inflight = some f ∧ f.work = some w ∧ w.todo[k]? = some (.copied n) ∧
      t = withWork f { w with todo := w.todo.eraseIdx k }
        { s with mem := writeItem s.params w.job f.tick s.mem (.copied n) } := by
  rcases forkedMove_cases h with h | ⟨f, w, hf, hw, h⟩
  · cases h; exact .inl rfl
  · split at h
    next n hk =>
      split at h <;> cases h
      exact .inr ⟨f, w, n, hf, hw, hk, rfl⟩
    next => cases h; exact .inl rfl

/-- A take gives an idle worker an outstanding element that no worker holds. -/
theorem takeMove_next {n k : Nat} {s t : State} (h : takeMove n k s = .next t) :
    t = s ∨ ∃ f w b y x c, s.inflight = some f ∧ f.work = some w ∧ w.workers[n]? = some .idle ∧
      w.todo[k]? = some (.pixel b y x c) ∧ (∀ v ∈ w.workers, v.holds ≠ some (.pixel b y x c)) ∧
      t = withWork f { w with
        workers := w.workers.set n (.located b y x c (rowSample s.params w.job y) (colSample s.params w.job x)) } s := by
  rcases forkedMove_cases h with h | ⟨f, w, hf, hw, h⟩
  · cases h; exact .inl rfl
  · split at h
    next b y x c hn hk =>
      split at h <;> cases h
      next => exact .inl rfl
      next hfree => exact .inr ⟨f, w, b, y, x, c, hf, hw, hn, hk, by simpa using hfree, rfl⟩
    next => cases h; exact .inl rfl

/-- A pass computes the x-passes of the element a worker has located. -/
theorem passMove_next {n : Nat} {s t : State} (h : passMove n s = .next t) :
    t = s ∨ ∃ f w b y x c row col, s.inflight = some f ∧ f.work = some w ∧
      w.workers[n]? = some (.located b y x c row col) ∧
      t = withWork f { w with
        workers := w.workers.set n (.passed b y x c row col
          (xPasses s.mem.readElem w.job.inBase w.job.C w.job.ih w.job.iw b c row col)) } s := by
  rcases forkedMove_cases h with h | ⟨f, w, hf, hw, h⟩
  · cases h; exact .inl rfl
  · split at h
    next b y x c row col hn =>
      dsimp only at h
      split at h <;> cases h
      exact .inr ⟨f, w, b, y, x, c, row, col, hf, hw, hn, rfl⟩
    next => cases h; exact .inl rfl

/-- A write stores the element whose x-passes a worker holds, and the worker is idle. -/
theorem writeMove_next {n : Nat} {s t : State} (h : writeMove n s = .next t) :
    t = s ∨ ∃ f w b y x c row col coeff, s.inflight = some f ∧ f.work = some w ∧
      w.workers[n]? = some (.passed b y x c row col coeff) ∧
      t = withWork f { w with todo := w.todo.erase (.pixel b y x c), workers := w.workers.set n .idle }
        { s with
          mem := s.mem.writeElem ((Item.pixel b y x c).addr w.job)
            (elementBits w.job f.tick b y x c (interp1D row.wgt coeff)) } := by
  rcases forkedMove_cases h with h | ⟨f, w, hf, hw, h⟩
  · cases h; exact .inl rfl
  · split at h
    next b y x c row col coeff hn =>
      dsimp only at h
      split at h <;> cases h
      exact .inr ⟨f, w, b, y, x, c, row, col, coeff, hf, hw, hn, rfl⟩
    next => cases h; exact .inl rfl

/-- A move inside a command does nothing, raises an error, forks, or changes memory and the forked work alone. -/
theorem inner_next {mv : Move} {s t : State} (hinner : mv.inner = true) (h : perform mv s = .next t) :
    t = s ∨ s.inflight ≠ none ∧
      ((∃ e, t = raise e s) ∨ (∃ j, t = forkJob j s) ∨ ∃ f w m, t = withWork f w { s with mem := m }) := by
  cases mv with
  | fork =>
    rcases forkMove_cases h with rfl | ⟨f, i, plan, hf, -, -, -, ⟨e, -, rfl⟩ | ⟨j, -, rfl⟩⟩
    · exact .inl rfl
    · exact .inr ⟨by simp [hf], .inl ⟨e, rfl⟩⟩
    · exact .inr ⟨by simp [hf], .inr (.inl ⟨j, rfl⟩)⟩
  | copyElement k =>
    rcases copyMove_next h with rfl | ⟨f, w, n, hf, -, -, rfl⟩
    · exact .inl rfl
    · exact .inr ⟨by simp [hf], .inr (.inr ⟨_, _, _, rfl⟩)⟩
  | workerTake n k =>
    rcases takeMove_next h with rfl | ⟨f, w, b, y, x, c, hf, -, -, -, -, rfl⟩
    · exact .inl rfl
    · exact .inr ⟨by simp [hf], .inr (.inr ⟨_, _, s.mem, rfl⟩)⟩
  | workerPass n =>
    rcases passMove_next h with rfl | ⟨f, w, b, y, x, c, row, col, hf, -, -, rfl⟩
    · exact .inl rfl
    · exact .inr ⟨by simp [hf], .inr (.inr ⟨_, _, s.mem, rfl⟩)⟩
  | workerWrite n =>
    rcases writeMove_next h with rfl | ⟨f, w, b, y, x, c, row, col, coeff, hf, -, -, rfl⟩
    · exact .inl rfl
    · exact .inr ⟨by simp [hf], .inr (.inr ⟨_, _, _, rfl⟩)⟩
  | _ => cases hinner

/-! ### What every move keeps -/

/-- The host's store, where it answers next. -/
theorem memWriteMove_next {a v : Word} {s t : State} (h : memWriteMove a v s = .next t) :
    s.status.state ≠ .busy ∧ u32 a < 2 ^ 32 ∧ t = { s with mem := s.mem.writeElem (u32 a) v } := by
  unfold memWriteMove at h
  split_ifs at h with hbusy _ _
  cases h
  exact ⟨hbusy, a.isLt, rfl⟩

/-- The host's load, where it answers next. -/
theorem memReadMove_next {a : Word} {s t : State} (h : memReadMove a s = .next t) :
    t = returned (s.mem.readElem (u32 a)) s := by
  unfold memReadMove at h
  split_ifs at h
  cases h
  rfl

/-- What no move but the reset event takes away: the parameters, the valid bits, and, unless the move shows the host the
end of a command, the guarded tensors. -/
structure Keeps (m : Move) (s t : State) : Prop where
  params : t.params = s.params
  valid : ∀ k, s.status.valid k = true → t.status.valid k = true
  guard : (s.guard.noStore ⊆ t.guard.noStore ∧ s.guard.noLoad ⊆ t.guard.noLoad) ∨
    ∃ idx, m = .regRead idx ∧ Reg.ofIndex idx = some .status ∧ (s.status.state = .done ∨ s.status.state = .error)

/-- A move that leaves parameters and guarded tensors as they are and clears no valid bit. -/
theorem Keeps.of_eq {m : Move} {s t : State} (hparams : t.params = s.params) (hguard : t.guard = s.guard)
    (hvalid : ∀ k, s.status.valid k = true → t.status.valid k = true) : Keeps m s t :=
  ⟨hparams, hvalid, .inl (by simp [hguard])⟩

theorem Keeps.refl (m : Move) (s : State) : Keeps m s s := .of_eq rfl rfl fun _ h => h

theorem keeps_raise (m : Move) (e : ErrCode) (s : State) : Keeps m s (raise e s) :=
  .of_eq rfl rfl fun k h => by simpa using h

theorem keeps_regWrite (idx : BitVec 8) (data : Word) (s : State) :
    Keeps (.regWrite idx data) s (writeIndex idx data s) := by
  rcases writeIndex_cases idx data s with h | ⟨h, -⟩ | ⟨n, -, -, -, h⟩ <;> rw [h]
  · exact .refl _ s
  · exact ⟨rfl, fun k hk => by simpa using hk, .inl (by simp)⟩
  · exact .of_eq rfl rfl fun _ hk => hk

theorem keeps_regRead (idx : BitVec 8) (s : State) : Keeps (.regRead idx) s (regReadMove idx s) := by
  obtain ⟨d, k, g, h, hg⟩ := regReadMove_spec idx s
  rw [h]
  refine ⟨rfl, fun _ hk => hk, ?_⟩
  rcases hg with rfl | ⟨rfl, hidx, hstate⟩
  · exact .inl ⟨List.Subset.refl _, List.Subset.refl _⟩
  · exact .inr ⟨idx, rfl, hidx, hstate⟩

theorem keeps_complete {s t : State} (h : completeMove s = .next t) (m : Move) : Keeps m s t := by
  rcases completeMove_ends h with ⟨-, rfl⟩ | ⟨-, ⟨e, rfl⟩ | ⟨hended, hdone⟩⟩
  · exact .refl _ _
  · exact keeps_raise _ _ _
  · obtain ⟨-, hguard, hparams, -⟩ := hended
    exact .of_eq hparams hguard hdone.valid

theorem keeps_inner {mv : Move} {s t : State} (hinner : mv.inner = true) (h : perform mv s = .next t) : Keeps mv s t := by
  rcases inner_next hinner h with rfl | ⟨-, ⟨e, rfl⟩ | ⟨j, rfl⟩ | ⟨f, w, m, rfl⟩⟩
  · exact .refl _ _
  · exact keeps_raise _ _ _
  · exact .of_eq rfl rfl fun _ hk => forkJob_valid j hk
  · exact .of_eq rfl rfl fun _ hk => hk

theorem perform_keeps {m : Move} {s t : State} (hm : m ≠ .reset) (h : perform m s = .next t) : Keeps m s t := by
  cases m with
  | regWrite idx data => cases h; exact keeps_regWrite idx data s
  | regRead idx => cases h; exact keeps_regRead idx s
  | memWrite a v =>
    obtain ⟨-, -, rfl⟩ := memWriteMove_next h
    exact .of_eq rfl rfl fun _ hk => hk
  | memRead a =>
    cases memReadMove_next h
    exact .of_eq rfl rfl fun _ hk => hk
  | reset => exact absurd rfl hm
  | complete => exact keeps_complete h _
  | fork => exact keeps_inner rfl h
  | copyElement k => exact keeps_inner rfl h
  | workerTake n k => exact keeps_inner rfl h
  | workerPass n => exact keeps_inner rfl h
  | workerWrite n => exact keeps_inner rfl h

/-- Where no move is listed the step is the block's own move. -/
theorem step_cases (s : State) : (s.moves = [] ∧ step s = completeMove s) ∨
    ∃ m ms, s.moves = m :: ms ∧ step s = perform m { s with moves := ms } := by
  cases hm : s.moves with
  | nil => exact .inl ⟨rfl, step_nil hm⟩
  | cons m ms => exact .inr ⟨m, ms, rfl, step_cons hm⟩

/-- Settles O19: every move but the reset event keeps both, and the reset event keeps the parameters. -/
theorem stepKeepsParametersAndTables : Obligations.StepKeepsParametersAndTables := by
  intro s t h
  rcases step_cases s with ⟨-, hstep⟩ | ⟨m, ms, hmoves, hstep⟩ <;> rw [hstep] at h
  · exact ⟨(keeps_complete h .complete).params, fun _ => (keeps_complete h .complete).valid⟩
  · by_cases hm : m = .reset
    · subst hm
      cases h
      exact ⟨rfl, fun hreset => absurd hmoves (hreset ms)⟩
    · exact ⟨(perform_keeps hm h).params, fun _ => (perform_keeps hm h).valid⟩

end Sys2Proof.Machine
end

