-- ==== Sys2Proof/Proofs/JobOrder.lean ====
section
/-! PROOFS. The output elements of a job in any order (R118, R119): what an element gets does not depend on the elements
written before it, and so memory after the join does not depend on the order. -/

namespace Sys2Proof.Machine

/-! ### The jobs whose checks pass -/

/-- A size of at least 1 counts at least one row or column. -/
theorem toNat_pos_of_one_le {n : Int} (h : ¬ n < 1) : 0 < n.toNat := by omega

/-- A job that passes the last checks is a good one, where its dimensions are. -/
theorem jobOk_of_checkJob {j k : Job} (h : checkJob j = .job k) (hin : 0 < j.B ∧ 0 < j.C ∧ 0 < j.ih ∧ 0 < j.iw)
    (hout : 0 < j.oh ∧ 0 < j.ow) (hcopy : j.copy = true → j.oh = j.ih ∧ j.ow = j.iw) : JobOk k := by
  obtain ⟨rfl, hgeometry, hfinite⟩ := checkJob_job h
  exact ⟨hin, hout, hgeometry, hfinite, hcopy⟩

/-- The four input dimensions of a command past the check of R141 `ERR_BAD_DIM`. -/
theorem dims_pos {d : Regs} (h : ¬ badDims d) :
    0 < u32 d.inDim0 ∧ 0 < u32 d.inDim1 ∧ 0 < u32 d.inDim2 ∧ 0 < u32 d.inDim3 := by
  simp only [badDims, not_or] at h
  omega

/-- The checks of `RESIZE` pass only for a legal size, a legal mode and good dimensions (R114). -/
theorem planResize_job {s : State} {j : Job} (h : planResize s = .job j) :
    ∃ m, j = resizeJob s.operands m ∧ 1 ≤ s32 s.operands.outH ∧ 1 ≤ s32 s.operands.outW ∧
      Mode.ofWord s.operands.mode = some m ∧ ¬ badDims s.operands ∧ checkJob (resizeJob s.operands m) = .job j := by
  unfold planResize at h
  dsimp only at h
  split at h
  · cases h
  next hsize =>
    split at h
    · cases h
    next m hm =>
      split at h
      · cases h
      next hdims =>
        obtain ⟨hh, hw⟩ := not_or.1 hsize
        exact ⟨m, (checkJob_job h).1, Int.not_lt.1 hh, Int.not_lt.1 hw, hm, hdims, h⟩

/-- The checks of `RUN` pass only for rank 4, a resolved legal size, a legal mode and good dimensions (R133). -/
theorem planRun_job {s : State} {j : Job} (h : planRun s = .job j) :
    ∃ m oh ow, j = runJob s.operands m oh ow ∧ u32 s.operands.inRank = 4 ∧ resolveSize s = .size oh ow ∧ 1 ≤ oh ∧ 1 ≤ ow ∧
      Mode.ofWord s.operands.mode = some m ∧ ¬ badDims s.operands ∧ checkJob (runJob s.operands m oh ow) = .job j := by
  unfold planRun at h
  dsimp only at h
  split at h
  · cases h
  next hrank =>
    split at h
    · cases h
    · cases h
    next oh ow hsize =>
      split at h
      · cases h
      next hpos =>
        split at h
        · cases h
        next m hm =>
          split at h
          · cases h
          next hdims =>
            obtain ⟨hh, hw⟩ := not_or.1 hpos
            exact ⟨m, oh, ow, (checkJob_job h).1, not_not.1 hrank, hsize, Int.not_lt.1 hh, Int.not_lt.1 hw, hm, hdims, h⟩

theorem jobOk_of_planResize {s : State} {j : Job} (h : planResize s = .job j) : JobOk j := by
  obtain ⟨m, -, hh, hw, -, hdims, hcheck⟩ := planResize_job h
  refine jobOk_of_checkJob hcheck (dims_pos hdims) ⟨?_, ?_⟩ (by simp [resizeJob])
  · exact toNat_pos_of_one_le (Int.not_lt.2 hh)
  · exact toNat_pos_of_one_le (Int.not_lt.2 hw)

theorem jobOk_of_planRun {s : State} {j : Job} (h : planRun s = .job j) : JobOk j := by
  obtain ⟨m, oh, ow, -, -, -, hh, hw, -, hdims, hcheck⟩ := planRun_job h
  refine jobOk_of_checkJob hcheck (dims_pos hdims) ⟨?_, ?_⟩ fun hcopy => ?_
  · exact toNat_pos_of_one_le (Int.not_lt.2 hh)
  · exact toNat_pos_of_one_le (Int.not_lt.2 hw)
  · simp only [runJob, decide_eq_true_eq] at hcopy ⊢
    omega

/-! ### What an element reads, and where it is stored -/

theorem addr_lt {j : Job} (hj : JobOk j) {it : Item} (h : it ∈ j.order) : it.addr j < 2 ^ 32 := by
  have := addr_in_output h
  have := hj.ranges
  omega

/-- No output element is stored where one is read from (R49). -/
theorem ne_addr_of_reads {p : Params} {j : Job} (hj : JobOk j) {it it' : Item} (h : it ∈ j.order) (h' : it' ∈ j.order)
    {a : Nat} (ha : a ∈ it.reads p j) : a ≠ it'.addr j := by
  have := reads_in_input hj h ha
  have := addr_in_output h'
  have := hj.ranges
  omega

/-- The coordinates of a driver's output element. -/
theorem pixel_mem_order {j : Job} {b y x c : Nat} (h : Item.pixel b y x c ∈ j.order) :
    j.copy = false ∧ b < j.B ∧ y < j.oh ∧ x < j.ow ∧ c < j.C := by
  cases hc : j.copy with
  | true =>
    obtain ⟨k, -, hk⟩ := (mem_order_copied hc).1 h
    cases hk
  | false =>
    obtain ⟨b', y', x', c', hb, hy, hx, hcc, hit⟩ := (mem_order_pixel hc).1 h
    cases hit
    exact ⟨rfl, hb, hy, hx, hcc⟩

/-- A driver lists no element of an identity copy. -/
theorem copied_mem_order {j : Job} {k : Nat} (h : Item.copied k ∈ j.order) : j.copy = true := by
  cases hc : j.copy with
  | true => rfl
  | false =>
    obtain ⟨_, _, _, _, -, -, -, -, hit⟩ := (mem_order_pixel hc).1 h
    cases hit

theorem Quad.map_congr {α β : Type} {f g : α → β} {q : Quad α} (h : ∀ v ∈ q.toList, f v = g v) : q.map f = q.map g := by
  simp only [Quad.toList, List.forall_mem_cons] at h
  obtain ⟨h0, h1, h2, h3, -⟩ := h
  rw [Quad.map, Quad.map, h0, h1, h2, h3]

/-- The x-passes depend only on the addresses they read (R107). -/
theorem xPasses_congr {rd rd' : Nat → Word} {inBase C ih iw b c : Nat} {row col : AxisSample}
    (h : ∀ a ∈ pixelReads inBase C ih iw b c row.idx col.idx, rd a = rd' a) :
    xPasses rd inBase C ih iw b c row col = xPasses rd' inBase C ih iw b c row col :=
  Quad.map_congr fun yi hy => congrArg (interp1D col.wgt) (Quad.map_congr fun xj hx =>
    h _ (List.mem_flatMap.2 ⟨yi, hy, List.mem_map.2 ⟨xj, hx, rfl⟩⟩))

/-! ### Stores commute (R119) -/

/-- What an element of memory lists, byte by byte, after an element has been stored. -/
theorem Memory.lookup_writeElem {m : Memory} (hm : m.wf) {a : Nat} (ha : a < 2 ^ 32) (v : Word) (b : Nat) :
    (m.writeElem a v).lookup b =
      if b = 4 * a + 3 then some (v.extractLsb' 24 8)
      else if b = 4 * a + 2 then some (v.extractLsb' 16 8)
      else if b = 4 * a + 1 then some (v.extractLsb' 8 8)
      else if b = 4 * a then some (v.extractLsb' 0 8)
      else m.lookup b := by
  have h0 : (m.writeByte (4 * a) (v.extractLsb' 0 8)).wf := Memory.wf_writeByte hm (by omega)
  have h1 := Memory.wf_writeByte (v := v.extractLsb' 8 8) h0 (a := 4 * a + 1) (by omega)
  have h2 := Memory.wf_writeByte (v := v.extractLsb' 16 8) h1 (a := 4 * a + 2) (by omega)
  unfold Memory.writeElem
  rw [Memory.lookup_writeByte _ _ _ _ h2, Memory.lookup_writeByte _ _ _ _ h1, Memory.lookup_writeByte _ _ _ _ h0,
    Memory.lookup_writeByte _ _ _ _ hm]

/-- Two elements are stored in either order. -/
theorem Memory.writeElem_comm {m : Memory} {a b : Nat} (hab : a ≠ b) (ha : a < 2 ^ 32) (hb : b < 2 ^ 32) (hm : m.wf)
    (v w : Word) : (m.writeElem a v).writeElem b w = (m.writeElem b w).writeElem a v := by
  have hma : (m.writeElem a v).wf := Memory.wf_writeElem hm ha
  have hmb : (m.writeElem b w).wf := Memory.wf_writeElem hm hb
  refine Memory.ext_lookup (Memory.wf_writeElem hma hb) (Memory.wf_writeElem hmb ha) fun c => ?_
  rw [Memory.lookup_writeElem hma hb, Memory.lookup_writeElem hm ha, Memory.lookup_writeElem hmb ha,
    Memory.lookup_writeElem hm hb]
  by_cases hc : c / 4 = a
  · simp only [show c ≠ 4 * b + 3 by omega, show c ≠ 4 * b + 2 by omega, show c ≠ 4 * b + 1 by omega,
      show c ≠ 4 * b by omega, if_false]
  · simp only [show c ≠ 4 * a + 3 by omega, show c ≠ 4 * a + 2 by omega, show c ≠ 4 * a + 1 by omega,
      show c ≠ 4 * a by omega, if_false]

section
variable {p : Params} {j : Job} {tick : Nat} {m : Memory}

theorem writeItem_wf (hj : JobOk j) (hm : m.wf) {it : Item} (h : it ∈ j.order) : (writeItem p j tick m it).wf :=
  Memory.wf_writeElem hm (addr_lt hj h)

/-- Writing one element changes no element that another is computed from. -/
theorem readElem_writeItem_of_reads (hj : JobOk j) (hm : m.wf) {it it' : Item} (h : it ∈ j.order) (h' : it' ∈ j.order)
    {a : Nat} (ha : a ∈ it.reads p j) : (writeItem p j tick m it').readElem a = m.readElem a := by
  rw [writeItem, Memory.readElem_writeElem _ _ _ _ hm (addr_lt hj h'), if_neg (ne_addr_of_reads hj h h' ha)]

/-- What an element gets does not depend on another that was written before it. -/
theorem value_writeItem (hj : JobOk j) (hm : m.wf) {it it' : Item} (h : it ∈ j.order) (h' : it' ∈ j.order) :
    it.value p j tick (writeItem p j tick m it') = it.value p j tick m :=
  value_congr fun _ ha => readElem_writeItem_of_reads hj hm h h' ha

/-- Two output elements are written in either order. -/
theorem writeItem_comm (hj : JobOk j) (hm : m.wf) {it it' : Item} (h : it ∈ j.order) (h' : it' ∈ j.order) :
    writeItem p j tick (writeItem p j tick m it) it' = writeItem p j tick (writeItem p j tick m it') it := by
  by_cases hne : it = it'
  · rw [hne]
  · rw [writeItem, value_writeItem hj hm h' h, writeItem, writeItem, value_writeItem hj hm h h', writeItem]
    exact Memory.writeElem_comm (fun e => hne (addr_inj h h' e)) (addr_lt hj h) (addr_lt hj h') hm _ _

theorem writeItems_cons (it : Item) (l : List Item) :
    writeItems p j tick (it :: l) m = writeItems p j tick l (writeItem p j tick m it) := rfl

/-- The elements of a job are written in any order. -/
theorem writeItems_perm (hj : JobOk j) {l l' : List Item} (h : l.Perm l') (hl : ∀ it ∈ l, it ∈ j.order) (hm : m.wf) :
    writeItems p j tick l m = writeItems p j tick l' m := by
  induction h generalizing m with
  | nil => rfl
  | cons it _ ih =>
    rw [List.forall_mem_cons] at hl
    rw [writeItems_cons, writeItems_cons, ih hl.2 (writeItem_wf hj hm hl.1)]
  | swap it it' l =>
    simp only [List.forall_mem_cons] at hl
    rw [writeItems_cons, writeItems_cons, writeItems_cons, writeItems_cons, writeItem_comm hj hm hl.1 hl.2.1]
  | trans h₁ _ ih₁ ih₂ => rw [ih₁ hl hm, ih₂ (fun it hit => hl it (h₁.mem_iff.2 hit)) hm]

end

/-- Settles O46: a permutation of the sequential order lists only elements of the job. -/
theorem writeOrderDoesNotMatter : Obligations.WriteOrderDoesNotMatter := fun _ _ _ _ _ hj hm hperm =>
  writeItems_perm hj hperm (fun _ h => hperm.mem_iff.1 h) hm

end Sys2Proof.Machine
end

