-- ==== Sys2Proof/Proofs/Invariant.lean ====
section
/-! PROOFS. The invariant `GoodState`: it holds after reset, and every step keeps it. One lemma per move, each of them about
the parts of the state the move touches. -/

namespace Sys2Proof.Machine

/-! ### Parts of the invariant -/

/-- Settles O17: no command is in progress after reset, so that what the invariant says of one holds vacuously. -/
theorem resetMeetsTheInvariant : Obligations.ResetMeetsTheInvariant where
  memory := reset_memory_wf
  busy := by decide
  errored := by decide
  errCode := by decide
  tabSel := by decide
  desc := nofun
  tick := nofun
  work := nofun
  guard := nofun
  unguarded := fun _ => rfl

theorem ErrCode.code_ne_zero (e : ErrCode) : e.code ≠ 0 := by cases e <;> decide

theorem ErrCode.code_le (e : ErrCode) : e.code.toNat ≤ 0x0A := by cases e <;> decide

theorem Table.number_le (k : Table) : k.number.toNat ≤ 1 := by cases k <;> decide

/-- The host may not write `TAB_SEL` (R11). -/
theorem Regs.tabSel_set_rw (r : Regs) {n : Reg} (hrw : n.access = .rw) (v : Word) : (r.set n v).tabSel = r.tabSel := by
  cases n <;> first | rfl | cases hrw

section
variable {s : State}

theorem GoodState.inflight_of_not_busy (hs : GoodState s) (h : s.status.state ≠ .busy) : s.inflight = none := by
  rw [Ne, hs.busy, Bool.not_eq_true, Option.isSome_eq_false_iff, Option.isNone_iff_eq_none] at h
  exact h

theorem GoodState.busy_of_inflight (hs : GoodState s) {f : InFlight} (hf : s.inflight = some f) :
    s.status.state = .busy := hs.busy.2 (by rw [hf]; rfl)

/-- The invariant speaks neither of the moves to come nor of what reads returned, and free values may be used up. -/
theorem GoodState.of_record (hs : GoodState s) (k : Nat) (ms : List Move) (ds : List Word) :
    GoodState { s with free := s.free + k, moves := ms, reads := ds } where
  memory := hs.memory
  busy := hs.busy
  errored := hs.errored
  errCode := hs.errCode
  tabSel := hs.tabSel
  desc := hs.desc
  tick f hf := Nat.lt_add_right k (hs.tick f hf)
  work f w hf hw := by
    obtain ⟨hcommand, hjob, htodo, htable, hpool, hheld, halone, hin, hout⟩ := hs.work f w hf hw
    exact ⟨hcommand, hjob, htodo, htable, hpool, hheld, halone, hin, hout⟩
  guard := hs.guard
  unguarded := hs.unguarded

/-- Between commands the invariant is about memory, `STATUS`, `TAB_SEL` and the guarded tensors alone. -/
theorem GoodState.of_idle (hidle : s.inflight = none) (hmem : s.mem.wf) (hbusy : s.status.state ≠ .busy)
    (herrored : s.status.state = .error ↔ s.status.errCode ≠ 0) (herr : s.status.errCode.toNat ≤ 0x0A)
    (htab : s.regs.tabSel.toNat ≤ 1) (hguard : s.status.state = .ready → s.guard = Guard.none) : GoodState s where
  memory := hmem
  busy := by simp [hidle, hbusy]
  errored := herrored
  errCode := herr
  tabSel := htab
  desc := by simp [hidle]
  tick := by simp [hidle]
  work := by simp [hidle]
  guard := by simp [hidle]
  unguarded := hguard

theorem good_raise (hs : GoodState s) (e : ErrCode) : GoodState (raise e s) :=
  .of_idle rfl hs.memory (by simp) (iff_of_true rfl e.code_ne_zero) e.code_le hs.tabSel (by simp)

/-! ### The host's moves and the reset event -/

theorem good_accept (hs : GoodState s) (w : Word) : GoodState (accept w s) where
  memory := hs.memory
  busy := by simp
  errored := by simp
  errCode := by simp
  tabSel := hs.tabSel
  desc := by simp
  tick := by simp
  work := by
    rintro f v hf hv
    cases hf
    cases hv
  guard := by simp
  unguarded := by simp

theorem good_writeIndex (hs : GoodState s) (idx : BitVec 8) (data : Word) : GoodState (writeIndex idx data s) := by
  rcases writeIndex_cases idx data s with h | ⟨h, -⟩ | ⟨n, -, hrw, hidle, h⟩ <;> rw [h]
  · exact hs
  · exact good_accept hs data
  · exact .of_idle (hs.inflight_of_not_busy hidle) hs.memory hidle hs.errored hs.errCode
      (Regs.tabSel_set_rw s.regs hrw data ▸ hs.tabSel) hs.unguarded

theorem good_regRead (hs : GoodState s) (idx : BitVec 8) : GoodState (regReadMove idx s) := by
  obtain ⟨d, k, g, h, hg⟩ := regReadMove_spec idx s
  rw [h]
  rcases hg with rfl | ⟨rfl, -, hend⟩
  · exact hs.of_record k s.moves (d :: s.reads)
  · have hidle : s.status.state ≠ .busy := by rcases hend with h | h <;> simp [h]
    exact .of_idle (hs.inflight_of_not_busy hidle) hs.memory hidle hs.errored hs.errCode hs.tabSel fun _ => rfl

theorem good_memWrite (hs : GoodState s) {a v : Word} {t : State} (h : memWriteMove a v s = .next t) : GoodState t := by
  obtain ⟨hidle, ha, rfl⟩ := memWriteMove_next h
  exact .of_idle (hs.inflight_of_not_busy hidle) (Memory.wf_writeElem hs.memory ha) hidle hs.errored hs.errCode hs.tabSel
    hs.unguarded

theorem good_reset (hs : GoodState s) : GoodState (resetEvent s) :=
  have hregs : (resetEvent s).regs = Regs.reset := rfl
  have hstatus : (resetEvent s).status = Status.reset := rfl
  .of_idle rfl hs.memory (hstatus ▸ by decide) (hstatus ▸ by decide) (hstatus ▸ by decide) (hregs ▸ by decide)
    fun _ => rfl

theorem good_complete (hs : GoodState s) {t : State} (h : completeMove s = .next t) : GoodState t := by
  rcases completeMove_ends h with ⟨-, rfl⟩ | ⟨-, ⟨e, rfl⟩ | ⟨⟨hidle, -⟩, hdone⟩⟩
  · exact hs
  · exact good_raise hs e
  · have htab : t.regs.tabSel.toNat ≤ 1 := by
      rcases hdone.tabSel with h | ⟨k, h⟩ <;> rw [h]
      · exact hs.tabSel
      · exact k.number_le
    exact .of_idle hidle (hdone.memory hs.memory) (by simp [hdone.state]) (by simp [hdone.state, hdone.errCode])
      (by simp [hdone.errCode]) htab (by simp [hdone.state])

/-! ### The fork (R116) -/

/-- The commands that fork, with their checks. -/
theorem forkPlan_eq_some {i : Instr} {plan : State → Plan} (h : forkPlan i = some plan) :
    i = .resize ∧ plan = planResize ∨ i = .run ∧ plan = planRun := by
  cases i <;> cases h
  · exact .inl ⟨rfl, rfl⟩
  · exact .inr ⟨rfl, rfl⟩

theorem jobOk_of_forkPlan {i : Instr} {plan : State → Plan} (hplan : forkPlan i = some plan) {j : Job}
    (h : plan s = .job j) : JobOk j := by
  rcases forkPlan_eq_some hplan with ⟨-, rfl⟩ | ⟨-, rfl⟩
  · exact jobOk_of_planResize h
  · exact jobOk_of_planRun h

/-- The tensors of a command whose checks pass are its input and its output (R42, R166). -/
theorem tensors_of_plan {i : Instr} {plan : State → Plan} (hplan : forkPlan i = some plan) {j : Job}
    (h : plan s = .job j) :
    (j.inBase, j.inBase + j.nIn) ∈ (commandTensors i s.operands s.params s.mem).noStore ∧
      (j.outBase, j.outBase + j.nOut) ∈ (commandTensors i s.operands s.params s.mem).noStore ∧
      (j.outBase, j.outBase + j.nOut) ∈ (commandTensors i s.operands s.params s.mem).noLoad := by
  rcases forkPlan_eq_some hplan with ⟨rfl, rfl⟩ | ⟨rfl, rfl⟩
  · obtain ⟨m, rfl, -⟩ := planResize_job h
    exact ⟨List.mem_cons_self, List.mem_cons_of_mem _ List.mem_cons_self, List.mem_cons_self⟩
  · obtain ⟨m, oh, ow, rfl, hrank, hsize, -⟩ := planRun_job h
    unfold resolveSize at hsize
    simp only [commandTensors, hrank, hsize, ne_eq, not_true_eq_false, if_false]
    exact ⟨List.mem_cons_self, List.mem_cons_of_mem _ List.mem_cons_self, List.mem_cons_self⟩

theorem good_forkJob (hs : GoodState s) {f : InFlight} {i : Instr} {plan : State → Plan} {j : Job}
    (hf : s.inflight = some f) (hw : f.work = none) (hi : decode f.word = .ok i) (hplan : forkPlan i = some plan)
    (h : plan s = .job j) : GoodState (forkJob j s) := by
  have hoperands : s.operands = f.desc := operands_of_inflight hf
  have htick : s.tick = f.tick := by simp only [State.tick, hf]
  have hword : (s.inflight.map (·.word)).getD 0 = f.word := by rw [hf]; rfl
  obtain ⟨hnoStore, hnoLoad⟩ := hs.guard f hf hw
  simp only [wordTensors, hi, ← hoperands] at hnoStore hnoLoad
  obtain ⟨hin, hout, hload⟩ := tensors_of_plan hplan h
  have hbusy := hs.busy_of_inflight hf
  have hstate : (forkJob j s).status.state = s.status.state ∧ (forkJob j s).status.errCode = s.status.errCode := by
    rw [forkJob_status]; split <;> simp
  refine {
    memory := hs.memory
    busy := iff_of_true (hstate.1.trans hbusy) rfl
    errored := by rw [hstate.1, hstate.2]; exact hs.errored
    errCode := by rw [hstate.2]; exact hs.errCode
    tabSel := hs.tabSel
    desc := ?_
    tick := ?_
    work := ?_
    guard := ?_
    unguarded := fun hready => absurd (hready.symm.trans (hstate.1.trans hbusy)) (by decide) }
  · rintro g hg
    cases hg
    exact hoperands.trans (hs.desc f hf)
  · rintro g hg
    cases hg
    exact htick ▸ hs.tick f hf
  · rintro g w hg hgw
    cases hg
    cases hgw
    refine ⟨?_, jobOk_of_forkPlan hplan h, List.Sublist.refl _, fun hcopy => ?_, List.length_replicate, ?_, ?_,
      hnoStore hin, hnoStore hout, hnoLoad hload⟩
    · rw [hword, hi]
      rcases forkPlan_eq_some hplan with ⟨rfl, rfl⟩ | ⟨rfl, rfl⟩
      · obtain ⟨m, rfl, -⟩ := planResize_job h
        exact .inl ⟨rfl, rfl⟩
      · exact .inr rfl
    · dsimp only at hcopy
      simp [hcopy]
    · intro v hv
      cases List.eq_of_mem_replicate hv
      trivial
    · have hidle : Worker.holds .idle = none := rfl
      simp [List.filterMap_replicate_of_none hidle]
  · rintro g hg hgw
    cases hg
    cases hgw

/-! ### The moves of the sequencer and the workers (R117, R118) -/

/-- A place in a list, and the list with another element there. -/
theorem exists_append_of_getElem? {α : Type} {l : List α} {n : Nat} {a : α} (h : l[n]? = some a) :
    ∃ l₁ l₂, l = l₁ ++ a :: l₂ ∧ ∀ b, l.set n b = l₁ ++ b :: l₂ := by
  obtain ⟨hn, rfl⟩ := List.getElem?_eq_some_iff.1 h
  exact ⟨l.take n, l.drop (n + 1), by simp, fun b => by simp [List.set_eq_take_append_cons_drop, hn]⟩

/-- A worker keeps good order when its element stays outstanding and memory reads the same where it read. -/
theorem WorkerOk.mono {p : Params} {w : Work} {m m' : Memory} {todo : List Item} {workers : List Worker} {v : Worker}
    (h : WorkerOk p w m v) (htodo : ∀ it, v.holds = some it → it ∈ w.todo → it ∈ todo)
    (hmem : ∀ b y x c, Item.pixel b y x c ∈ w.todo → ∀ a ∈ (Item.pixel b y x c).reads p w.job,
      m'.readElem a = m.readElem a) :
    WorkerOk p { w with todo := todo, workers := workers } m' v := by
  cases v with
  | idle => trivial
  | located b y x c row col =>
    obtain ⟨hit, hrow, hcol⟩ := h
    exact ⟨htodo _ rfl hit, hrow, hcol⟩
  | passed b y x c row col coeff =>
    obtain ⟨hit, rfl, rfl, rfl⟩ := h
    exact ⟨htodo _ rfl hit, rfl, rfl, (xPasses_congr (hmem b y x c hit)).symm⟩

/-- Forked work that makes progress: memory canonical and the work in good order are all that has to be shown. -/
theorem good_withWork (hs : GoodState s) {f : InFlight} {w w' : Work} {m : Memory} (hf : s.inflight = some f)
    (hw : f.work = some w) (hm : m.wf) (hjob : w'.job = w.job) (htodo : w'.todo.Sublist w.todo)
    (hpool : w'.workers.length = w.workers.length) (hheld : ∀ v ∈ w'.workers, WorkerOk s.params w' m v)
    (halone : (w'.workers.filterMap Worker.holds).Nodup) : GoodState (withWork f w' { s with mem := m }) := by
  obtain ⟨hcommand, hjobOk, hold, htable, hlength, -, -, hin, hout⟩ := hs.work f w hf hw
  have hbusy := hs.busy_of_inflight hf
  refine {
    memory := hm
    busy := by simp [hbusy]
    errored := hs.errored
    errCode := hs.errCode
    tabSel := hs.tabSel
    desc := ?_
    tick := ?_
    work := ?_
    guard := ?_
    unguarded := by simp [hbusy] }
  · rintro g hg
    cases hg
    exact hs.desc f hf
  · rintro g hg
    cases hg
    exact hs.tick f hf
  · rintro g v hg hgw
    cases hg
    cases hgw
    exact ⟨hjob ▸ hcommand, hjob ▸ hjobOk, hjob ▸ htodo.trans hold, hjob ▸ htable, hpool.trans hlength, hheld, halone,
      hjob ▸ hin, hjob ▸ hout⟩
  · rintro g hg hgw
    cases hg
    cases hgw

/-- An element outstanding is one of the job's. -/
theorem WorkOk.mem_order {f : InFlight} {w : Work} (h : WorkOk s f w) {it : Item} (hit : it ∈ w.todo) :
    it ∈ w.job.order := h.todo.subset hit

theorem good_copy (hs : GoodState s) {k : Nat} {t : State} (h : copyMove k s = .next t) : GoodState t := by
  rcases copyMove_next h with rfl | ⟨f, w, n, hf, hw, hk, rfl⟩
  · exact hs
  have hwork := hs.work f w hf hw
  have hcopied : Item.copied n ∈ w.job.order := hwork.mem_order (List.mem_of_getElem? hk)
  have hcopy : w.job.copy = true := copied_mem_order hcopied
  -- an identity copy lists no pixel, so that no worker holds anything
  have hpixel : ∀ b y x c, Item.pixel b y x c ∉ w.todo := by
    intro b y x c hit
    obtain ⟨hno, -⟩ := pixel_mem_order (hwork.mem_order hit)
    rw [hcopy] at hno
    cases hno
  have hholds : ∀ v ∈ w.workers, v.holds = none := by
    intro v hv
    have hok := hwork.held v hv
    cases v with
    | idle => rfl
    | located b y x c row col => exact absurd hok.1 (hpixel b y x c)
    | passed b y x c row col coeff => exact absurd hok.1 (hpixel b y x c)
  refine good_withWork hs hf hw (writeItem_wf hwork.job hs.memory hcopied) rfl (List.eraseIdx_sublist ..) rfl
    (fun v hv => ?_) hwork.alone
  refine (hwork.held v hv).mono (fun it hit => ?_) fun b y x c hit => absurd hit (hpixel b y x c)
  rw [hholds v hv] at hit
  cases hit

theorem good_take (hs : GoodState s) {n k : Nat} {t : State} (h : takeMove n k s = .next t) : GoodState t := by
  rcases takeMove_next h with rfl | ⟨f, w, b, y, x, c, hf, hw, hn, hk, hfree, rfl⟩
  · exact hs
  have hwork := hs.work f w hf hw
  obtain ⟨l₁, l₂, hsplit, hset⟩ := exists_append_of_getElem? hn
  refine good_withWork (m := s.mem) hs hf hw hs.memory rfl (List.Sublist.refl _) List.length_set (fun v hv => ?_) ?_
  · rcases List.mem_or_eq_of_mem_set hv with hv | rfl
    · exact (hwork.held v hv).mono (fun _ _ hit => hit) fun _ _ _ _ _ _ _ => rfl
    · exact ⟨List.mem_of_getElem? hk, rfl, rfl⟩
  · have halone := hwork.alone
    change (List.filterMap Worker.holds (w.workers.set n _)).Nodup
    rw [hset]
    simp only [hsplit, List.filterMap_append, List.filterMap_cons, Worker.holds] at halone ⊢
    rw [List.nodup_middle, List.nodup_cons, ← List.filterMap_append]
    refine ⟨fun hmem => ?_, List.filterMap_append ▸ halone⟩
    obtain ⟨v, hv, hholds⟩ := List.mem_filterMap.1 hmem
    refine hfree v ?_ hholds
    rw [hsplit]
    rcases List.mem_append.1 hv with hv | hv <;> simp [hv]

theorem good_pass (hs : GoodState s) {n : Nat} {t : State} (h : passMove n s = .next t) : GoodState t := by
  rcases passMove_next h with rfl | ⟨f, w, b, y, x, c, row, col, hf, hw, hn, rfl⟩
  · exact hs
  have hwork := hs.work f w hf hw
  obtain ⟨hit, hrow, hcol⟩ := hwork.held _ (List.mem_of_getElem? hn)
  obtain ⟨l₁, l₂, hsplit, hset⟩ := exists_append_of_getElem? hn
  refine good_withWork (m := s.mem) hs hf hw hs.memory rfl (List.Sublist.refl _) List.length_set (fun v hv => ?_) ?_
  · rcases List.mem_or_eq_of_mem_set hv with hv | rfl
    · exact (hwork.held v hv).mono (fun _ _ hit => hit) fun _ _ _ _ _ _ _ => rfl
    · exact ⟨hit, hrow, hcol, rfl⟩
  · have halone := hwork.alone
    change (List.filterMap Worker.holds (w.workers.set n _)).Nodup
    rw [hset]
    simpa only [hsplit, List.filterMap_append, List.filterMap_cons, Worker.holds] using halone

/-- What a worker writes is the element's value of memory as it is (R107, R117). -/
theorem writeElem_passed {p : Params} {w : Work} {tick : Nat} {m : Memory} {b y x c : Nat} {row col : AxisSample}
    {coeff : Quad Word} (h : WorkerOk p w m (.passed b y x c row col coeff)) :
    m.writeElem ((Item.pixel b y x c).addr w.job) (elementBits w.job tick b y x c (interp1D row.wgt coeff)) =
      writeItem p w.job tick m (.pixel b y x c) := by
  obtain ⟨-, rfl, rfl, rfl⟩ := h
  rfl

theorem good_write (hs : GoodState s) {n : Nat} {t : State} (h : writeMove n s = .next t) : GoodState t := by
  rcases writeMove_next h with rfl | ⟨f, w, b, y, x, c, row, col, coeff, hf, hw, hn, rfl⟩
  · exact hs
  have hwork := hs.work f w hf hw
  have hpassed := hwork.held _ (List.mem_of_getElem? hn)
  have hit : Item.pixel b y x c ∈ w.job.order := hwork.mem_order hpassed.1
  obtain ⟨l₁, l₂, hsplit, hset⟩ := exists_append_of_getElem? hn
  -- no other worker holds the element written
  have halone := hwork.alone
  simp only [hsplit, List.filterMap_append, List.filterMap_cons, Worker.holds] at halone
  rw [List.nodup_middle, List.nodup_cons, ← List.filterMap_append] at halone
  obtain ⟨hother, hnodup⟩ := halone
  rw [writeElem_passed hpassed]
  refine good_withWork hs hf hw (writeItem_wf hwork.job hs.memory hit) rfl List.erase_sublist List.length_set
    (fun v hv => ?_) ?_
  · simp only [hset, List.mem_append, List.mem_cons] at hv
    by_cases hidle : v = .idle
    · subst hidle; trivial
    · have hv' : v ∈ l₁ ++ l₂ := by simpa [hidle] using hv
      have hvw : v ∈ w.workers := by
        rw [hsplit]
        rcases List.mem_append.1 hv' with hv | hv <;> simp [hv]
      refine (hwork.held v hvw).mono (fun it hheld hmem => ?_) fun b' y' x' c' hmem a ha =>
        readElem_writeItem_of_reads hwork.job hs.memory (hwork.mem_order hmem) hit ha
      refine (List.mem_erase_of_ne fun heq => hother ?_).2 hmem
      exact List.mem_filterMap.2 ⟨v, hv', heq ▸ hheld⟩
  · simpa only [hset, List.filterMap_append, List.filterMap_cons, Worker.holds] using hnodup

/-! ### Every step -/

theorem good_fork (hs : GoodState s) {t : State} (h : forkMove s = .next t) : GoodState t := by
  rcases forkMove_cases h with rfl | ⟨f, i, plan, hf, hw, hi, hplan, ⟨e, -, rfl⟩ | ⟨j, hj, rfl⟩⟩
  · exact hs
  · exact good_raise hs e
  · exact good_forkJob hs hf hw hi hplan hj

theorem good_perform (hs : GoodState s) {m : Move} {t : State} (h : perform m s = .next t) : GoodState t := by
  cases m with
  | regWrite idx data => cases h; exact good_writeIndex hs idx data
  | regRead idx => cases h; exact good_regRead hs idx
  | memWrite a v => exact good_memWrite hs h
  | memRead a =>
    cases memReadMove_next h
    exact hs.of_record 0 s.moves (s.mem.readElem (u32 a) :: s.reads)
  | reset => cases h; exact good_reset hs
  | fork => exact good_fork hs h
  | copyElement k => exact good_copy hs h
  | workerTake n k => exact good_take hs h
  | workerPass n => exact good_pass hs h
  | workerWrite n => exact good_write hs h
  | complete => exact good_complete hs h

/-- Settles O18: the step is a move, or the completion of the command in progress. -/
theorem stepKeepsTheInvariant : Obligations.StepKeepsTheInvariant := by
  intro s t hs h
  rcases step_cases s with ⟨-, hstep⟩ | ⟨m, ms, -, hstep⟩ <;> rw [hstep] at h
  · exact good_complete hs h
  · exact good_perform (hs.of_record 0 ms s.reads) h

end

end Sys2Proof.Machine
end

