-- ==== Sys2Proof/Proofs/Outcome.lean ====
section
/-! PROOFS. What a command in progress comes to: the same state whatever moves are made inside it (R118 to R121), and on a
platform that backs every address always a state (R122, R170). -/

namespace Sys2Proof.Machine

/-! ### The outcome of a command that forks -/

/-- A command that forks, as the frame of its checks and its join (R114, R133). -/
theorem exec_of_forkPlan {i : Instr} {plan : State → Plan} (h : forkPlan i = some plan) :
    ∃ join, (join = joinResize ∨ join = joinRun) ∧ ∀ s, exec i s = runPlan plan join s := by
  rcases forkPlan_eq_some h with ⟨rfl, rfl⟩ | ⟨rfl, rfl⟩
  · exact ⟨joinResize, .inl rfl, fun _ => rfl⟩
  · exact ⟨joinRun, .inr rfl, fun _ => rfl⟩

theorem runPlan_of_work {s : State} {w : Work} (h : s.work = some w) (plan : State → Plan) (join : Job → State → State) :
    runPlan plan join s = finishWork w.job w.todo join s := by
  simp only [runPlan, h]

theorem runPlan_of_error {s : State} {plan : State → Plan} {e : ErrCode} (hwork : s.work = none) (h : plan s = .error e)
    (join : Job → State → State) : runPlan plan join s = .next (raise e s) := by
  simp only [runPlan, hwork, h]

theorem runPlan_of_unbacked {s : State} {plan : State → Plan} (hwork : s.work = none) (h : plan s = .unbacked)
    (join : Job → State → State) : runPlan plan join s = .fault .unbacked := by
  simp only [runPlan, hwork, h]

theorem runPlan_of_job {s : State} {plan : State → Plan} {j : Job} (hwork : s.work = none) (h : plan s = .job j)
    (join : Job → State → State) : runPlan plan join s = finishWork j j.order join (forkJob j s) := by
  simp only [runPlan, hwork, h]

theorem work_of_inflight {s : State} {f : InFlight} (h : s.inflight = some f) : s.work = f.work := by
  simp only [State.work, h]

theorem tick_of_inflight {s : State} {f : InFlight} (h : s.inflight = some f) : s.tick = f.tick := by
  simp only [State.tick, h]

theorem completeMove_of_decode {s : State} {f : InFlight} {i : Instr} (hf : s.inflight = some f)
    (hi : decode f.word = .ok i) : completeMove s = exec i s := by
  rw [completeMove_eq hf, hi]

/-- A forked command in good order is one of the two that fork. -/
theorem WorkOk.exists_forkPlan {s : State} {f : InFlight} {w : Work} (h : WorkOk s f w) :
    ∃ i plan, decode f.word = .ok i ∧ forkPlan i = some plan := by
  rcases h.command with ⟨hi, -⟩ | hi
  · exact ⟨_, _, hi, rfl⟩
  · exact ⟨_, _, hi, rfl⟩

/-- Completing a forked command writes what is outstanding and joins. -/
theorem completeMove_of_work {s : State} {f : InFlight} {w : Work} (h : WorkOk s f w) : ∃ join, (join = joinResize ∨ join = joinRun) ∧
      ∀ t g v, t.inflight = some g → g.word = f.word → g.work = some v →
        completeMove t = finishWork v.job v.todo join t := by
  obtain ⟨i, plan, hi, hplan⟩ := h.exists_forkPlan
  obtain ⟨join, hjoin, hexec⟩ := exec_of_forkPlan hplan
  refine ⟨join, hjoin, fun t g v hg hword hv => ?_⟩
  rw [completeMove_of_decode hg (hword ▸ hi), hexec, runPlan_of_work (by rw [work_of_inflight hg, hv])]

/-! ### Inner moves keep the outcome (R118 to R121) -/

/-- A join does not see the hidden state it ends. -/
theorem join_withWork {join : Job → State → State} (hjoin : join = joinResize ∨ join = joinRun) (j : Job) (f : InFlight)
    (w : Work) (m m' : Memory) (s : State) :
    join j { withWork f w { s with mem := m } with mem := m' } = join j { s with mem := m' } := by
  rcases hjoin with rfl | rfl <;> rfl

/-- Progress keeps the outcome when what is still outstanding, written to the memory it left, gives the memory that what
was outstanding gives. -/
theorem completeMove_withWork {s u : State} (hs : GoodState s) {f : InFlight} {w w' : Work} {m : Memory}
    (hf : s.inflight = some f) (hw : f.work = some w) (hjob : w'.job = w.job) (htodo : w'.todo ⊆ w.todo)
    (hmem : writeItems s.params w.job f.tick w'.todo m = writeItems s.params w.job f.tick w.todo s.mem)
    (h : completeMove s = .next u) : completeMove (withWork f w' { s with mem := m }) = .next u := by
  obtain ⟨join, hjoin, hcomplete⟩ := completeMove_of_work (hs.work f w hf hw)
  rw [hcomplete s f w hf rfl hw, finishWork_next, tick_of_inflight hf] at h
  obtain ⟨hbacked, rfl⟩ := h
  rw [hcomplete _ _ w' (withWork_inflight _ f w') rfl rfl, finishWork_next, hjob, tick_of_inflight (withWork_inflight _ f w')]
  refine ⟨List.all_eq_true.2 fun it hit => List.all_eq_true.1 hbacked it (htodo hit), ?_⟩
  rw [join_withWork hjoin, ← hmem]
  rfl

/-- An element that is written early need not be written at the end. -/
theorem writeItems_early {s : State} {f : InFlight} {w : Work} (hs : GoodState s) (h : WorkOk s f w) {it : Item}
    {todo : List Item} (hperm : w.todo.Perm (it :: todo)) :
    writeItems s.params w.job f.tick todo (writeItem s.params w.job f.tick s.mem it) =
      writeItems s.params w.job f.tick w.todo s.mem := by
  rw [← writeItems_cons, writeItems_perm h.job hperm (fun it hit => h.mem_order hit) hs.memory]

theorem completeMove_raise (e : ErrCode) (s : State) : completeMove (raise e s) = .next (raise e s) := rfl

theorem fork_keeps_outcome {s t u : State} (h : forkMove s = .next t) (hu : completeMove s = .next u) :
    completeMove t = .next u := by
  rcases forkMove_cases h with rfl | ⟨f, i, plan, hf, hw, hi, hplan, hcase⟩
  · exact hu
  obtain ⟨join, -, hexec⟩ := exec_of_forkPlan hplan
  have hwork : s.work = none := by rw [work_of_inflight hf, hw]
  rw [completeMove_of_decode hf hi, hexec] at hu
  rcases hcase with ⟨e, he, rfl⟩ | ⟨j, hj, rfl⟩
  · rw [runPlan_of_error hwork he] at hu
    rw [completeMove_raise]
    exact hu
  · rw [runPlan_of_job hwork hj] at hu
    have hword : decode ((s.inflight.map (·.word)).getD 0) = .ok i := by rw [hf]; exact hi
    rw [completeMove_of_decode (forkJob_inflight s j) hword, hexec]
    exact hu

/-- Settles O47: the fork is the first part of the command; a take and a pass touch neither what is outstanding nor memory;
a copy and a write make one element's store early. -/
theorem innerMovesKeepTheOutcome : Obligations.InnerMovesKeepTheOutcome := by
  intro s t u mv hs hinner h hu
  cases mv with
  | fork => exact fork_keeps_outcome h hu
  | copyElement k =>
    rcases copyMove_next h with rfl | ⟨f, w, n, hf, hw, hk, rfl⟩
    · exact hu
    · obtain ⟨hlt, hget⟩ := List.getElem?_eq_some_iff.1 hk
      have hperm : w.todo.Perm (.copied n :: w.todo.eraseIdx k) := hget ▸ (List.getElem_cons_eraseIdx_perm hlt).symm
      exact completeMove_withWork hs hf hw rfl (List.eraseIdx_sublist ..).subset
        (writeItems_early hs (hs.work f w hf hw) hperm) hu
  | workerTake n k =>
    rcases takeMove_next h with rfl | ⟨f, w, b, y, x, c, hf, hw, -, -, -, rfl⟩
    · exact hu
    · exact completeMove_withWork (m := s.mem) hs hf hw rfl (List.Subset.refl _) rfl hu
  | workerPass n =>
    rcases passMove_next h with rfl | ⟨f, w, b, y, x, c, row, col, hf, hw, -, rfl⟩
    · exact hu
    · exact completeMove_withWork (m := s.mem) hs hf hw rfl (List.Subset.refl _) rfl hu
  | workerWrite n =>
    rcases writeMove_next h with rfl | ⟨f, w, b, y, x, c, row, col, coeff, hf, hw, hn, rfl⟩
    · exact hu
    · have hwork := hs.work f w hf hw
      have hpassed := hwork.held _ (List.mem_of_getElem? hn)
      rw [writeElem_passed hpassed]
      exact completeMove_withWork hs hf hw rfl List.erase_subset
        (writeItems_early hs hwork (List.perm_cons_erase hpassed.1)) hu
  | _ => cases hinner

/-! ### On a platform that backs every address a command ends (R122, R170) -/

theorem finishWork_of_backed {p : Params} {j : Job} {todo : List Item} {s : State} (hp : allBacked p) (hs : s.params = p)
    (hj : JobOk j) (htodo : ∀ it ∈ todo, it ∈ j.order) (join : Job → State → State) :
    ∃ t, finishWork j todo join s = .next t :=
  ⟨_, finishWork_next.2 ⟨List.all_eq_true.2 fun it hit => hs ▸ item_backed hp hj (htodo it hit), rfl⟩⟩

/-- The size tensor that R127 reads lies inside the address space. -/
theorem resolveSize_ne_unbacked {p : Params} (hp : allBacked p) (d : Regs) (m : Memory) : d.resolveSize p m ≠ .unbacked := by
  unfold Regs.resolveSize
  dsimp only
  split
  · simp
  · split
    · simp
    · split
      · simp
      next hrange =>
        have hh : addrBacked p (u32 d.sizeAddr) = true := backed_of_allBacked hp (by omega)
        have hw : addrBacked p (u32 d.sizeAddr + 1) = true := backed_of_allBacked hp (by omega)
        simp [hh, hw]

/-- Only the size tensor is read before the checks are over. -/
theorem planResize_ne_unbacked (s : State) : planResize s ≠ .unbacked := by
  unfold planResize
  dsimp only
  split
  · simp
  · split
    · simp
    · split
      · simp
      · exact checkJob_ne_unbacked _

theorem planRun_unbacked {s : State} (h : planRun s = .unbacked) : resolveSize s = .unbacked := by
  unfold planRun at h
  dsimp only at h
  split at h
  · cases h
  · split at h
    · cases h
    · assumption
    · split at h
      · cases h
      · split at h
        · cases h
        · split at h
          · cases h
          · exact absurd h (checkJob_ne_unbacked _)

theorem forkPlan_ne_unbacked {s : State} (hp : allBacked s.params) {i : Instr} {plan : State → Plan}
    (hplan : forkPlan i = some plan) : plan s ≠ .unbacked := by
  rcases forkPlan_eq_some hplan with ⟨-, rfl⟩ | ⟨-, rfl⟩
  · exact planResize_ne_unbacked s
  · exact fun h => resolveSize_ne_unbacked hp _ _ (planRun_unbacked h)

/-- A command that forks answers next: what it has still to touch are elements of its tensors. -/
theorem runPlan_answers {s : State} (hp : allBacked s.params) {i : Instr} {plan : State → Plan}
    (hplan : forkPlan i = some plan) (hwork : ∀ w, s.work = some w → JobOk w.job ∧ w.todo ⊆ w.job.order)
    (join : Job → State → State) : ∃ t, runPlan plan join s = .next t := by
  cases hw : s.work with
  | some w =>
    obtain ⟨hjob, htodo⟩ := hwork w hw
    rw [runPlan_of_work hw]
    exact finishWork_of_backed hp rfl hjob htodo join
  | none =>
    cases hplanned : plan s with
    | error e => exact ⟨_, runPlan_of_error hw hplanned join⟩
    | unbacked => exact absurd hplanned (forkPlan_ne_unbacked hp hplan)
    | job j =>
      rw [runPlan_of_job hw hplanned]
      exact finishWork_of_backed hp (forkJob_params s j) (jobOk_of_forkPlan hplan hplanned) (fun _ h => h) join

theorem gettab_answers (s : State) : ∃ t, exec .gettab s = .next t := by
  simp only [exec, execGettab]
  split
  · exact ⟨_, rfl⟩
  · split <;> exact ⟨_, rfl⟩

theorem locate_answers (s : State) : ∃ t, exec .locate s = .next t := by
  simp only [exec, execLocate]
  split
  · exact ⟨_, rfl⟩
  · split
    · exact ⟨_, rfl⟩
    · split <;> exact ⟨_, rfl⟩

theorem completeMove_answers {s : State} (hs : GoodState s) (hp : allBacked s.params) : ∃ t, completeMove s = .next t := by
  cases hf : s.inflight with
  | none => exact ⟨s, by simp only [completeMove, hf]⟩
  | some f =>
    cases hd : decode f.word with
    | error e => exact ⟨_, by rw [completeMove_eq hf, hd]⟩
    | ok i =>
      have hwork : ∀ w, s.work = some w → JobOk w.job ∧ w.todo ⊆ w.job.order := by
        intro w hw
        have hok := hs.work f w hf (by rw [← work_of_inflight hf, hw])
        exact ⟨hok.job, hok.todo.subset⟩
      rw [completeMove_of_decode hf hd]
      cases i with
      | gettab => exact gettab_answers s
      | locate => exact locate_answers s
      | interp => exact ⟨_, exec_interp s⟩
      | resize => exact runPlan_answers hp (i := .resize) rfl hwork joinResize
      | run => exact runPlan_answers hp (i := .run) rfl hwork joinRun

/-- Settles O48: completing answers next, and every way a command ends is `DONE` or `ERROR`. -/
theorem everyCommandEnds : Obligations.EveryCommandEnds := by
  intro s f hs hp hf
  obtain ⟨t, ht⟩ := completeMove_answers hs hp
  refine ⟨t, ht, ?_⟩
  rcases completeMove_ends ht with ⟨hidle, -⟩ | ⟨-, ⟨e, rfl⟩ | ⟨⟨hidle, -⟩, hdone⟩⟩
  · rw [hf] at hidle
    cases hidle
  · exact ⟨.inr rfl, rfl⟩
  · exact ⟨.inl hdone.state, hidle⟩

/-! ### On such a platform only the host is stopped (R71, R166) -/

theorem forkMove_answers {s : State} (hp : allBacked s.params) : ∃ t, forkMove s = .next t := by
  unfold forkMove
  split
  · exact ⟨_, rfl⟩
  · split
    · split
      · exact ⟨_, rfl⟩
      next plan hplan =>
        split
        · exact ⟨_, rfl⟩
        next hunbacked => exact absurd hunbacked (forkPlan_ne_unbacked hp hplan)
        · exact ⟨_, rfl⟩
    · exact ⟨_, rfl⟩

/-- A move inside a forked command answers next where its act does. -/
theorem forkedMove_answers {s : State} {act : InFlight → Work → Host.Outcome State Fault Refusal}
    (h : ∀ f w, s.inflight = some f → f.work = some w → ∃ t, act f w = .next t) : ∃ t, forkedMove act s = .next t := by
  cases hmove : forkedMove act s with
  | next t => exact ⟨t, rfl⟩
  | fault r =>
    rcases forkedMove_cases hmove with hnext | ⟨f, w, hf, hw, hact⟩
    · cases hnext
    · obtain ⟨t, ht⟩ := h f w hf hw
      rw [hact] at ht
      cases ht
  | refused r =>
    rcases forkedMove_cases hmove with hnext | ⟨f, w, hf, hw, hact⟩
    · cases hnext
    · obtain ⟨t, ht⟩ := h f w hf hw
      rw [hact] at ht
      cases ht

section
variable {s : State}

theorem WorkOk.backed {f : InFlight} {w : Work} (h : WorkOk s f w) (hp : allBacked s.params) {it : Item}
    (hit : it ∈ w.todo) : (it.reads s.params w.job).all (addrBacked s.params) = true ∧
      addrBacked s.params (it.addr w.job) = true := by
  have := item_backed hp h.job (h.mem_order hit)
  rwa [Item.backed, Bool.and_eq_true] at this

theorem copyMove_answers (hs : GoodState s) (hp : allBacked s.params) (k : Nat) : ∃ t, copyMove k s = .next t := by
  refine forkedMove_answers fun f w hf hw => ?_
  split
  next n hk =>
    have hbacked := item_backed hp (hs.work f w hf hw).job ((hs.work f w hf hw).mem_order (List.mem_of_getElem? hk))
    exact ⟨_, if_pos hbacked⟩
  next => exact ⟨_, rfl⟩

theorem takeMove_answers (s : State) (n k : Nat) : ∃ t, takeMove n k s = .next t := by
  refine forkedMove_answers fun f w _ _ => ?_
  split
  · split <;> exact ⟨_, rfl⟩
  · exact ⟨_, rfl⟩

theorem passMove_answers (hs : GoodState s) (hp : allBacked s.params) (n : Nat) : ∃ t, passMove n s = .next t := by
  refine forkedMove_answers fun f w hf hw => ?_
  split
  next b y x c row col hn =>
    obtain ⟨hit, rfl, rfl⟩ := (hs.work f w hf hw).held _ (List.mem_of_getElem? hn)
    exact ⟨_, if_pos ((hs.work f w hf hw).backed hp hit).1⟩
  next => exact ⟨_, rfl⟩

theorem writeMove_answers (hs : GoodState s) (hp : allBacked s.params) (n : Nat) : ∃ t, writeMove n s = .next t := by
  refine forkedMove_answers fun f w hf hw => ?_
  split
  next b y x c row col coeff hn =>
    have hit := ((hs.work f w hf hw).held _ (List.mem_of_getElem? hn)).1
    exact ⟨_, if_pos ((hs.work f w hf hw).backed hp hit).2⟩
  next => exact ⟨_, rfl⟩

/-- The only stops of a host store on such a platform. -/
theorem memWriteMove_stops (hp : allBacked s.params) (a v : Word) :
    (∃ t, memWriteMove a v s = .next t) ∨
      (memWriteMove a v s = .refused .hostMemoryWhileBusy ∧ s.status.state = .busy) ∨
      (memWriteMove a v s = .refused .hostMemoryBeforeRead ∧ s.status.state ≠ .busy ∧
        inRanges s.guard.noStore (u32 a) = true) := by
  have hbacked : addrBacked s.params (u32 a) = true := backed_of_allBacked hp a.isLt
  unfold memWriteMove
  split_ifs with hbusy hunbacked hguard
  · exact .inr (.inl ⟨rfl, hbusy⟩)
  · rw [hbacked] at hunbacked
    cases hunbacked
  · exact .inr (.inr ⟨rfl, hbusy, hguard⟩)
  · exact .inl ⟨_, rfl⟩

/-- The only stops of a host load on such a platform. -/
theorem memReadMove_stops (hp : allBacked s.params) (a : Word) :
    (∃ t, memReadMove a s = .next t) ∨
      (memReadMove a s = .refused .hostMemoryWhileBusy ∧ s.status.state = .busy) ∨
      (memReadMove a s = .refused .hostMemoryBeforeRead ∧ s.status.state ≠ .busy ∧
        inRanges s.guard.noLoad (u32 a) = true) := by
  have hbacked : addrBacked s.params (u32 a) = true := backed_of_allBacked hp a.isLt
  unfold memReadMove
  split_ifs with hbusy hunbacked hguard
  · exact .inr (.inl ⟨rfl, hbusy⟩)
  · rw [hbacked] at hunbacked
    cases hunbacked
  · exact .inr (.inr ⟨rfl, hbusy, hguard⟩)
  · exact .inl ⟨_, rfl⟩

/-- Where something is guarded the host has a command's end to read: right after reset nothing is (R166). -/
theorem GoodState.ended_of_guarded (hs : GoodState s) (hidle : s.status.state ≠ .busy)
    (h : s.guard ≠ Guard.none) : s.status.state = .done ∨ s.status.state = .error := by
  cases hstate : s.status.state with
  | ready => exact absurd (hs.unguarded hstate) h
  | busy => exact absurd hstate hidle
  | done => exact .inl rfl
  | error => exact .inr rfl

/-- The stops of one move: none but of the host's accesses to tensor memory. -/
theorem perform_stops (hs : GoodState s) (hp : allBacked s.params) (m : Move) :
    (∃ t, perform m s = .next t) ∨
      (perform m s = .refused .hostMemoryWhileBusy ∧ s.status.state = .busy ∧
        ((∃ a v, m = .memWrite a v) ∨ ∃ a, m = .memRead a)) ∨
      (perform m s = .refused .hostMemoryBeforeRead ∧ (s.status.state = .done ∨ s.status.state = .error) ∧
        ((∃ a v, m = .memWrite a v ∧ inRanges s.guard.noStore (u32 a) = true) ∨
          ∃ a, m = .memRead a ∧ inRanges s.guard.noLoad (u32 a) = true)) := by
  cases m with
  | memWrite a v =>
    rcases memWriteMove_stops hp a v with h | ⟨h, hbusy⟩ | ⟨h, hidle, hguard⟩
    · exact .inl h
    · exact .inr (.inl ⟨h, hbusy, .inl ⟨a, v, rfl⟩⟩)
    · refine .inr (.inr ⟨h, hs.ended_of_guarded hidle fun hnone => ?_, .inl ⟨a, v, rfl, hguard⟩⟩)
      rw [hnone] at hguard
      cases hguard
  | memRead a =>
    rcases memReadMove_stops hp a with h | ⟨h, hbusy⟩ | ⟨h, hidle, hguard⟩
    · exact .inl h
    · exact .inr (.inl ⟨h, hbusy, .inr ⟨a, rfl⟩⟩)
    · refine .inr (.inr ⟨h, hs.ended_of_guarded hidle fun hnone => ?_, .inr ⟨a, rfl, hguard⟩⟩)
      rw [hnone] at hguard
      cases hguard
  | regWrite idx data => exact .inl ⟨_, rfl⟩
  | regRead idx => exact .inl ⟨_, rfl⟩
  | reset => exact .inl ⟨_, rfl⟩
  | fork => exact .inl (forkMove_answers hp)
  | copyElement k => exact .inl (copyMove_answers hs hp k)
  | workerTake n k => exact .inl (takeMove_answers s n k)
  | workerPass n => exact .inl (passMove_answers hs hp n)
  | workerWrite n => exact .inl (writeMove_answers hs hp n)
  | complete => exact .inl (completeMove_answers hs hp)

end

/-- Settles O49: with no move listed the command completes; any other step is a move. -/
theorem stepsStopOnlyForTheHost : Obligations.StepsStopOnlyForTheHost := by
  intro s hs hp
  rcases step_cases s with ⟨-, hstep⟩ | ⟨m, ms, hmoves, hstep⟩ <;> rw [hstep]
  · obtain ⟨t, ht⟩ := completeMove_answers hs hp
    rw [ht]
    exact ⟨nofun, nofun⟩
  · rcases perform_stops (s := { s with moves := ms }) (hs.of_record 0 ms s.reads) hp m with ⟨t, ht⟩ | ⟨ht, hbusy, hhost⟩ | ⟨ht, hend, hhost⟩ <;> rw [ht]
    · exact ⟨nofun, nofun⟩
    · refine ⟨nofun, fun r h => ?_⟩
      cases h
      refine .inl ⟨rfl, hbusy, ms, ?_⟩
      rcases hhost with ⟨a, v, rfl⟩ | ⟨a, rfl⟩
      · exact .inl ⟨a, v, hmoves⟩
      · exact .inr ⟨a, hmoves⟩
    · refine ⟨nofun, fun r h => ?_⟩
      cases h
      refine .inr ⟨rfl, hend, ms, ?_⟩
      rcases hhost with ⟨a, v, rfl, hguard⟩ | ⟨a, rfl, hguard⟩
      · exact .inl ⟨a, v, hmoves, hguard⟩
      · exact .inr ⟨a, hmoves, hguard⟩

/-! ### ERROR is left only by a reset (R146) -/

/-- With no command in progress, the host cannot leave `ERROR`: it is not let start one. -/
theorem perform_of_error {s t : State} (hidle : s.inflight = none) (herror : s.status.state = .error) {m : Move}
    (hm : m ≠ .reset) (h : perform m s = .next t) : t.status = s.status ∧ t.inflight = none := by
  have hinner : ∀ {mv : Move}, mv.inner = true → perform mv s = .next t → t.status = s.status ∧ t.inflight = none := by
    intro mv hmv hnext
    rcases inner_next hmv hnext with rfl | ⟨hbusy, -⟩
    · exact ⟨rfl, hidle⟩
    · exact absurd hidle hbusy
  cases m with
  | regWrite idx data =>
    cases h
    rcases writeIndex_cases idx data s with h | ⟨-, hstarts⟩ | ⟨n, -, -, -, h⟩
    · rw [h]; exact ⟨rfl, hidle⟩
    · simp [herror] at hstarts
    · rw [h]; exact ⟨rfl, hidle⟩
  | regRead idx =>
    cases h
    obtain ⟨d, k, g, h, -⟩ := regReadMove_spec idx s
    rw [h]
    exact ⟨rfl, hidle⟩
  | memWrite a v =>
    obtain ⟨-, -, rfl⟩ := memWriteMove_next h
    exact ⟨rfl, hidle⟩
  | memRead a =>
    cases memReadMove_next h
    exact ⟨rfl, hidle⟩
  | reset => exact absurd rfl hm
  | complete =>
    rcases completeMove_ends h with ⟨-, rfl⟩ | ⟨hbusy, -⟩
    · exact ⟨rfl, hidle⟩
    · exact absurd hidle hbusy
  | fork => exact hinner rfl h
  | copyElement k => exact hinner rfl h
  | workerTake n k => exact hinner rfl h
  | workerPass n => exact hinner rfl h
  | workerWrite n => exact hinner rfl h

/-- Settles O20: a good state in `ERROR` has no command in progress. -/
theorem errorIsLeftOnlyByReset : Obligations.ErrorIsLeftOnlyByReset := by
  intro s t hs herror hreset h
  have hidle : s.inflight = none := hs.inflight_of_not_busy (by simp [herror])
  rcases step_cases s with ⟨-, hstep⟩ | ⟨m, ms, hmoves, hstep⟩ <;> rw [hstep] at h
  · exact perform_of_error (m := .complete) hidle herror (by simp) h
  · refine perform_of_error (s := { s with moves := ms }) hidle herror ?_ h
    rintro rfl
    exact hreset ms hmoves

end Sys2Proof.Machine
end

