-- ==== Sys2Proof/Proofs/HostMemory.lean ====
section
/-! PROOFS. The host's accesses to tensor memory (R41, R71) and the tensors it has to leave alone (R166). -/

namespace Sys2Proof.Machine

/-! ### The four outcomes of a host access -/

/-- An element address is backed exactly outside the platform's holes (R5, R41). -/
theorem addrBacked_u32_iff {p : Params} {a : Word} :
    addrBacked p (u32 a) = true ↔ ∀ h ∈ p.holes, ¬ (h.1 ≤ u32 a ∧ u32 a < h.2) := by
  rw [addrBacked_iff]
  exact ⟨And.right, fun h => ⟨a.isLt, h⟩⟩

theorem not_backed_of_hole {p : Params} {a : Nat} (h : ∃ r ∈ p.holes, r.1 ≤ a ∧ a < r.2) : addrBacked p a = false := by
  obtain ⟨r, hr, hin⟩ := h
  rw [← Bool.not_eq_true, addrBacked_iff]
  exact fun hb => hb.2 r hr hin

section
variable {s : State} {a v : Word}

theorem memWriteMove_busy (h : s.status.state = .busy) : memWriteMove a v s = .refused .hostMemoryWhileBusy := if_pos h

theorem memReadMove_busy (h : s.status.state = .busy) : memReadMove a s = .refused .hostMemoryWhileBusy := if_pos h

theorem memWriteMove_unbacked (h : s.status.state ≠ .busy) (ha : addrBacked s.params (u32 a) = false) :
    memWriteMove a v s = .fault .unbacked := (if_neg h).trans (if_pos ha)

theorem memReadMove_unbacked (h : s.status.state ≠ .busy) (ha : addrBacked s.params (u32 a) = false) :
    memReadMove a s = .fault .unbacked := (if_neg h).trans (if_pos ha)

theorem memWriteMove_guarded (h : s.status.state ≠ .busy) (ha : addrBacked s.params (u32 a) = true)
    (hguard : inRanges s.guard.noStore (u32 a) = true) : memWriteMove a v s = .refused .hostMemoryBeforeRead :=
  (if_neg h).trans ((if_neg (by simp [ha])).trans (if_pos hguard))

theorem memReadMove_guarded (h : s.status.state ≠ .busy) (ha : addrBacked s.params (u32 a) = true)
    (hguard : inRanges s.guard.noLoad (u32 a) = true) : memReadMove a s = .refused .hostMemoryBeforeRead :=
  (if_neg h).trans ((if_neg (by simp [ha])).trans (if_pos hguard))

/-- The step that stores an element. -/
theorem step_memWrite {ms : List Move} (hmoves : s.moves = .memWrite a v :: ms) (h : s.status.state ≠ .busy)
    (ha : addrBacked s.params (u32 a) = true) (hguard : inRanges s.guard.noStore (u32 a) = false) :
    step s = .next { s with moves := ms, mem := s.mem.writeElem (u32 a) v } := by
  rw [step_cons hmoves]
  exact (if_neg h).trans ((if_neg (by simp [ha])).trans (if_neg (by simp [hguard])))

/-- The step that loads an element. -/
theorem step_memRead {ms : List Move} (hmoves : s.moves = .memRead a :: ms) (h : s.status.state ≠ .busy)
    (ha : addrBacked s.params (u32 a) = true) (hguard : inRanges s.guard.noLoad (u32 a) = false) :
    step s = .next { s with moves := ms, reads := s.mem.readElem (u32 a) :: s.reads } := by
  rw [step_cons hmoves]
  exact (if_neg h).trans ((if_neg (by simp [ha])).trans (if_neg (by simp [hguard])))

end

/-- Settles O51: the first test of both moves is `BUSY`, the last is the guard. -/
theorem hostMemoryRefusedWhileBusy : Obligations.HostMemoryRefusedWhileBusy := by
  intro s a v ms
  refine ⟨fun hbusy => ⟨fun hmoves => ?_, fun hmoves => ?_⟩,
    fun hidle houtside => ⟨fun hmoves hguard => ?_, fun hmoves hguard => ?_⟩⟩
  · rw [step_cons hmoves]
    exact memWriteMove_busy hbusy
  · rw [step_cons hmoves]
    exact memReadMove_busy hbusy
  · rw [step_cons hmoves]
    exact memWriteMove_guarded hidle (addrBacked_u32_iff.2 houtside) (inRanges_iff.2 hguard)
  · rw [step_cons hmoves]
    exact memReadMove_guarded hidle (addrBacked_u32_iff.2 houtside) (inRanges_iff.2 hguard)

/-- Settles O58: past the test of `BUSY`, an address in a hole is not backed. -/
theorem unbackedHostAccessStops : Obligations.UnbackedHostAccessStops := by
  intro s a v ms hidle hhole
  refine ⟨fun hmoves => ?_, fun hmoves => ?_⟩
  · rw [step_cons hmoves]
    exact memWriteMove_unbacked hidle (not_backed_of_hole hhole)
  · rw [step_cons hmoves]
    exact memReadMove_unbacked hidle (not_backed_of_hole hhole)

/-- Storing an element changes no byte outside it. -/
theorem Memory.readByte_writeElem_outside {m : Memory} (hm : m.wf) {a : Nat} (ha : a < 2 ^ 32) (v : Word) {b : Nat}
    (hb : b < 4 * a ∨ 4 * a + 4 ≤ b) : (m.writeElem a v).readByte b = m.readByte b := by
  rw [Memory.readByte_writeElem m a v b hm ha, if_neg (by omega), if_neg (by omega), if_neg (by omega), if_neg (by omega)]

/-- Settles O50: the store and the load both pass their tests, and the load reads memory after the store. -/
theorem hostStoreThenLoad : Obligations.HostStoreThenLoad := by
  intro s a b v ms hm hidle hp hstore hload hmoves
  have hbacked : ∀ c : Word, addrBacked s.params (u32 c) = true := fun c => backed_of_allBacked hp c.isLt
  have hread : (s.mem.writeElem a.toNat v).readElem b.toNat = if b = a then v else s.mem.readElem b.toNat := by
    rw [Memory.readElem_writeElem _ _ _ _ hm a.isLt]
    simp only [BitVec.toNat_inj]
  have hstored := step_memWrite hmoves hidle (hbacked a) hstore
  have hloaded := step_memRead (s := { s with moves := .memRead b :: ms, mem := s.mem.writeElem (u32 a) v }) rfl hidle
    (hbacked b) hload
  exact ⟨_, _, hstored, hloaded, congrArg (· :: s.reads) hread, rfl, Memory.wf_writeElem hm a.isLt,
    fun c hc => Memory.readByte_writeElem_outside hm a.isLt v hc, rfl, rfl, rfl, rfl, rfl, rfl, rfl⟩

/-! ### The guarded tensors (R166) -/

theorem inRanges_add_noStore (g h : Guard) (a : Nat) :
    inRanges (g.add h).noStore a = true ↔ inRanges g.noStore a = true ∨ inRanges h.noStore a = true := by
  rw [Guard.add_noStore, inRanges_append]

theorem inRanges_add_noLoad (g h : Guard) (a : Nat) :
    inRanges (g.add h).noLoad a = true ↔ inRanges g.noLoad a = true ∨ inRanges h.noLoad a = true := by
  rw [Guard.add_noLoad, inRanges_append]

theorem wordTensors_of_decode {w : Word} {i : Instr} (h : decode w = .ok i) (d : Regs) (p : Params) (m : Memory) :
    wordTensors w d p m = commandTensors i d p m := by
  simp only [wordTensors, h]

/-- A `RUN` whose size is resolved guards its input, its output and the size tensor it reads. -/
theorem commandTensors_run {d : Regs} {p : Params} {m : Memory} {oh ow : Int} (hrank : u32 d.inRank = 4)
    (hsize : d.resolveSize p m = .size oh ow) : commandTensors .run d p m =
      ⟨d.inputRange :: d.outputRange oh ow :: d.sizeRange, [d.outputRange oh ow]⟩ := by
  simp only [commandTensors, hrank, hsize, ne_eq, not_true_eq_false, if_false]

theorem commandTensors_run_rank {d : Regs} {p : Params} {m : Memory} (hrank : u32 d.inRank ≠ 4) :
    commandTensors .run d p m = Guard.none := if_pos hrank

/-- Where a size resolves, the size tensor is used exactly when the static size is not (R127). -/
theorem inRanges_sizeRange {d : Regs} {p : Params} {m : Memory} {oh ow : Int} (hsize : d.resolveSize p m = .size oh ow)
    (a : Nat) : inRanges d.sizeRange a = true ↔
      ¬ (0 < s32 d.sizeH ∧ 0 < s32 d.sizeW) ∧ u32 d.sizeAddr ≤ a ∧ a < u32 d.sizeAddr + 2 := by
  unfold Regs.sizeRange
  by_cases hstatic : d.staticSize
  · rw [if_pos (.inl hstatic)]
    simp only [inRanges_nil, Bool.false_eq_true, false_iff]
    exact fun h => h.1 hstatic
  · have hcfg : d.hasSizeInput ≠ false := by
      intro hcfg
      rw [Regs.resolveSize_noSize hstatic hcfg] at hsize
      cases hsize
    rw [if_neg (not_or.2 ⟨hstatic, hcfg⟩)]
    simp only [inRanges_cons, inRanges_nil, Bool.false_eq_true, or_false]
    exact (and_iff_right hstatic).symm

/-- The words other than those of `RESIZE` and `RUN` have no tensors (R46, R63). -/
theorem wordTensors_other {w : Word} (h4 : w ≠ 4) (h5 : w ≠ 5) (d : Regs) (p : Params) (m : Memory) :
    wordTensors w d p m = Guard.none := by
  cases hd : decode w with
  | error e => exact wordTensors_illegal hd d p m
  | ok i =>
    have hw : w = encode i := eq_encode_of_decode hd
    rw [wordTensors_of_decode hd]
    cases i with
    | resize => exact absurd hw h4
    | run => exact absurd hw h5
    | _ => rfl

/-- No command counts `STATUS` among its result registers (R25). -/
theorem racing_status (s : State) : racing s .status = false := by
  cases hf : s.inflight with
  | none => exact racing_of_idle hf _
  | some f =>
    rw [← Bool.not_eq_true, racing_iff hf]
    rintro ⟨i, -, hresult⟩
    cases i <;> simp [resultRegs] at hresult

/-- Settles O59: acceptance adds the tensors the word describes; every move but the reset event keeps what is guarded,
unless it shows the host the end of a command (`Keeps`), which frees it. -/
theorem tensorsAreGuardedUntilTheEndIsRead : Obligations.TensorsAreGuardedUntilTheEndIsRead := by
  refine ⟨?_, ?_, ?_⟩
  · intro s w ms hstate hmoves d within nIn nOut
    refine ⟨_, step_accepts hstate hmoves, ?_, ?_, ?_⟩
    · rintro rfl a
      have htensors : wordTensors 4 s.regs s.params s.mem = _ := wordTensors_of_decode (i := .resize) rfl _ _ _
      rw [accept_guard, inRanges_add_noStore, inRanges_add_noLoad, htensors]
      simp only [commandTensors, inRanges_cons, inRanges_nil, Bool.false_eq_true, or_false]
      exact ⟨Iff.rfl, Iff.rfl⟩
    · rintro rfl hrank oh ow hsize a
      have htensors : wordTensors 5 s.regs s.params s.mem = _ := wordTensors_of_decode (i := .run) rfl _ _ _
      rw [accept_guard, inRanges_add_noStore, inRanges_add_noLoad, htensors, commandTensors_run hrank hsize]
      simp only [inRanges_cons, inRanges_nil, Bool.false_eq_true, or_false, inRanges_sizeRange hsize]
      exact ⟨Iff.rfl, Iff.rfl⟩
    · intro hnone
      have htensors : wordTensors w s.regs s.params s.mem = Guard.none := by
        rcases hnone with ⟨rfl, hrank⟩ | ⟨h4, h5⟩
        · exact (wordTensors_of_decode (i := .run) rfl _ _ _).trans (commandTensors_run_rank hrank)
        · exact wordTensors_other h4 h5 _ _ _
      rw [accept_guard]
      exact (congrArg _ htensors).trans (Guard.add_none s.guard)
  · intro s t h hreset hread
    rcases step_cases s with ⟨-, hstep⟩ | ⟨m, ms, hmoves, hstep⟩ <;> rw [hstep] at h
    · rcases (keeps_complete h .complete).guard with hkept | ⟨idx, hm, -⟩
      · exact hkept
      · cases hm
    · have hm : m ≠ .reset := by rintro rfl; exact hreset ms hmoves
      rcases (perform_keeps hm h).guard with hkept | ⟨idx, rfl, hidx, hend⟩
      · exact hkept
      · obtain ⟨hdone, herror⟩ := hread ms (by rw [hmoves, ← Reg.index_of_ofIndex hidx]; rfl)
        exact absurd hend (not_or.2 ⟨hdone, herror⟩)
  · intro s ms hend hmoves
    refine ⟨_, step_cons hmoves, ?_⟩
    rw [regReadMove_settled (n := .status) rfl (racing_status _), returned_guard, endSeen_guard, if_pos ⟨rfl, hend⟩]

end Sys2Proof.Machine
end

