-- ==== Sys2Proof/Proofs/Checks.lean ====
section
/-! PROOFS. The checks of `LOCATE`, `RESIZE` and `RUN` in their order (R99, R114, R115, R133, R145), and the coordinate
mappings (R91). -/

namespace Sys2Proof.Machine

/-! ### LOCATE (R91, R99) -/

/-- Settles O33: the mapping of each mode, and the two branches of `PYTORCH_HALF_PIXEL`. -/
theorem forcedCoordinate : Obligations.ForcedCoordinate := fun _ _ _ =>
  ⟨rfl, rfl, fun h => if_neg (Int.not_lt.2 h), fun h => if_pos h⟩

theorem exec_locate_badMode {s : State} (hmode : Mode.ofWord s.operands.mode = none) :
    exec .locate s = .next (raise .badMode s) := by
  simp only [exec, execLocate, hmode]

theorem exec_locate_badDim {s : State} {m : Mode} (hmode : Mode.ofWord s.operands.mode = some m)
    (hlimit : s32 s.operands.lLimit < 1) : exec .locate s = .next (raise .badDim s) := by
  simp only [exec, execLocate, hmode, if_pos hlimit]

theorem exec_locate_nonFinite {s : State} {m : Mode} (hmode : Mode.ofWord s.operands.mode = some m)
    (hlimit : 1 ≤ s32 s.operands.lLimit)
    (hcoord : isFinite (mapCoord m s.operands.lScale (s32 s.operands.lCoord) (s32 s.operands.lOutSize)) = false) :
    exec .locate s = .next (raise .nonFinite s) := by
  simp only [exec, execLocate, hmode, if_neg (Int.not_lt.2 hlimit), hcoord, Bool.false_eq_true, if_false]

/-- Settles O25: the three checks in their order. -/
theorem locateErrors : Obligations.LocateErrors := by
  intro s
  refine ⟨fun hmode => exec_locate_badMode (Mode.ofWord_reserved hmode), fun hmode hlimit => ?_,
    fun m hmode hlimit hcoord => exec_locate_nonFinite hmode hlimit hcoord⟩
  obtain ⟨m, hm, -⟩ := Mode.exists_ofWord_sel hmode
  exact exec_locate_badDim hm hlimit

/-! ### The geometry check (R48, R49, R115) -/

theorem checkGeometry_addrRange {j : Job} (h : 2 ^ 32 < j.inBase + j.nIn ∨ 2 ^ 32 < j.outBase + j.nOut) :
    checkGeometry j = some .addrRange := if_pos h

theorem checkGeometry_overlap {j : Job} (hrange : ¬ (2 ^ 32 < j.inBase + j.nIn ∨ 2 ^ 32 < j.outBase + j.nOut))
    (h : j.inBase < j.outBase + j.nOut ∧ j.outBase < j.inBase + j.nIn) : checkGeometry j = some .overlap :=
  (if_neg hrange).trans (if_pos h)

theorem checkGeometry_eq_none_iff {j : Job} : checkGeometry j = none ↔
    ¬ (2 ^ 32 < j.inBase + j.nIn ∨ 2 ^ 32 < j.outBase + j.nOut) ∧
      ¬ (j.inBase < j.outBase + j.nOut ∧ j.outBase < j.inBase + j.nIn) := by
  unfold checkGeometry
  split_ifs with hrange hoverlap
  · exact iff_of_false nofun fun h => h.1 hrange
  · exact iff_of_false nofun fun h => h.2 hoverlap
  · exact iff_of_true rfl ⟨hrange, hoverlap⟩

/-- Settles O45: two non-empty intervals that overlap share their larger lower end. -/
theorem geometryCheckMeansDisjoint : Obligations.GeometryCheckMeansDisjoint := by
  intro j hin hout
  rw [checkGeometry_eq_none_iff]
  constructor
  · rintro ⟨hrange, hoverlap⟩
    exact ⟨by omega, by omega, fun a h1 h2 => by omega⟩
  · rintro ⟨hinside, houtside, hdisjoint⟩
    refine ⟨by omega, fun hoverlap => ?_⟩
    exact hdisjoint (max j.inBase j.outBase) (by omega) (by omega) (by omega)

/-! ### The last checks (R114, R116, R133) -/

theorem coordsFinite_iff {j : Job} : coordsFinite j = true ↔
    (∀ y < j.oh, isFinite (mapCoord j.mode j.hs y j.oh) = true) ∧
      ∀ x < j.ow, isFinite (mapCoord j.mode j.ws x j.ow) = true := by
  simp only [coordsFinite, Bool.and_eq_true, List.all_eq_true, List.mem_range]

theorem checkJob_of_geometry {j : Job} {e : ErrCode} (h : checkGeometry j = some e) : checkJob j = .error e := by
  simp only [checkJob, h]

theorem checkJob_nonFinite {j : Job} (hgeometry : checkGeometry j = none) (hcopy : j.copy = false)
    (h : coordsFinite j = false) : checkJob j = .error .nonFinite := by
  simp only [checkJob, hgeometry, hcopy, h, Bool.or_false, Bool.false_eq_true, if_false]

theorem checkJob_passes {j : Job} (hgeometry : checkGeometry j = none) (h : j.copy = true ∨ coordsFinite j = true) :
    checkJob j = .job j := by
  have hor : (j.copy || coordsFinite j) = true := by simpa using h
  simp only [checkJob, hgeometry, hor, if_true]

/-! ### RESIZE (R114) -/

section
variable {s : State}

theorem planResize_outSize (h : s32 s.operands.outH < 1 ∨ s32 s.operands.outW < 1) : planResize s = .error .outSize :=
  if_pos h

theorem planResize_badMode (hsize : ¬ (s32 s.operands.outH < 1 ∨ s32 s.operands.outW < 1))
    (h : Mode.ofWord s.operands.mode = none) : planResize s = .error .badMode := by
  simp only [planResize, if_neg hsize, h]

theorem planResize_badDim {m : Mode} (hsize : ¬ (s32 s.operands.outH < 1 ∨ s32 s.operands.outW < 1))
    (hm : Mode.ofWord s.operands.mode = some m) (h : badDims s.operands) : planResize s = .error .badDim := by
  simp only [planResize, if_neg hsize, hm, if_pos h]

/-- Past the checks of size, mode and dimensions the last checks decide. -/
theorem planResize_eq_checkJob {m : Mode} (hsize : ¬ (s32 s.operands.outH < 1 ∨ s32 s.operands.outW < 1))
    (hm : Mode.ofWord s.operands.mode = some m) (hdims : ¬ badDims s.operands) :
    planResize s = checkJob (resizeJob s.operands m) := by
  simp only [planResize, if_neg hsize, hm, if_neg hdims]

theorem exec_resize_error {e : ErrCode} (hwork : s.work = none) (h : planResize s = .error e) :
    exec .resize s = .next (raise e s) := runPlan_of_error hwork h joinResize

/-- A coordinate of the output that is not finite fails the last check (R116). -/
theorem coordsFinite_resizeJob {d : Regs} {m : Mode} (hsize : ¬ (s32 d.outH < 1 ∨ s32 d.outW < 1))
    (h : (∃ y : Nat, (y : Int) < s32 d.outH ∧ isFinite (mapCoord m d.hScale y (s32 d.outH)) = false) ∨
      ∃ x : Nat, (x : Int) < s32 d.outW ∧ isFinite (mapCoord m d.wScale x (s32 d.outW)) = false) :
    coordsFinite (resizeJob d m) = false := by
  have hh : ((s32 d.outH).toNat : Int) = s32 d.outH := Int.toNat_of_nonneg (by omega)
  have hw : ((s32 d.outW).toNat : Int) = s32 d.outW := Int.toNat_of_nonneg (by omega)
  rw [← Bool.not_eq_true, coordsFinite_iff]
  rintro ⟨hrows, hcols⟩
  simp only [resizeJob, hh, hw] at hrows hcols
  rcases h with ⟨y, hy, hnot⟩ | ⟨x, hx, hnot⟩
  · rw [hrows y (by omega)] at hnot
    cases hnot
  · rw [hcols x (by omega)] at hnot
    cases hnot

/-- Settles O36: the checks of `RESIZE` in their order, each past the ones before it. -/
theorem resizeErrors : Obligations.ResizeErrors := by
  intro s hwork d nIn nOut
  split_ifs with hsize hmode hdims hrange hoverlap
  · exact exec_resize_error hwork (planResize_outSize hsize)
  · exact exec_resize_error hwork (planResize_badMode hsize (Mode.ofWord_reserved hmode))
  · obtain ⟨m, hm, -⟩ := Mode.exists_ofWord_sel (Nat.not_lt.1 hmode)
    exact exec_resize_error hwork (planResize_badDim hsize hm hdims)
  · obtain ⟨m, hm, -⟩ := Mode.exists_ofWord_sel (Nat.not_lt.1 hmode)
    refine exec_resize_error hwork ((planResize_eq_checkJob hsize hm hdims).trans (checkJob_of_geometry ?_))
    exact checkGeometry_addrRange hrange
  · obtain ⟨m, hm, -⟩ := Mode.exists_ofWord_sel (Nat.not_lt.1 hmode)
    refine exec_resize_error hwork ((planResize_eq_checkJob hsize hm hdims).trans (checkJob_of_geometry ?_))
    exact checkGeometry_overlap hrange hoverlap
  · intro m hm hcoord
    refine exec_resize_error hwork ((planResize_eq_checkJob hsize hm hdims).trans (checkJob_nonFinite ?_ rfl ?_))
    · exact checkGeometry_eq_none_iff.2 ⟨hrange, hoverlap⟩
    · exact coordsFinite_resizeJob hsize hcoord

/-! ### RUN (R133) -/

theorem planRun_rank (h : u32 s.operands.inRank ≠ 4) : planRun s = .error .rank := if_pos h

theorem planRun_sizeError {e : ErrCode} (hrank : u32 s.operands.inRank = 4) (h : resolveSize s = .error e) :
    planRun s = .error e := by
  simp only [planRun, hrank, h, ne_eq, not_true_eq_false, if_false]

theorem planRun_sizeUnbacked (hrank : u32 s.operands.inRank = 4) (h : resolveSize s = .unbacked) :
    planRun s = .unbacked := by
  simp only [planRun, hrank, h, ne_eq, not_true_eq_false, if_false]

variable {oh ow : Int}

theorem planRun_outSize (hrank : u32 s.operands.inRank = 4) (hsize : resolveSize s = .size oh ow)
    (h : oh < 1 ∨ ow < 1) : planRun s = .error .outSize := by
  simp only [planRun, hrank, hsize, ne_eq, not_true_eq_false, if_false, if_pos h]

theorem planRun_badMode (hrank : u32 s.operands.inRank = 4) (hsize : resolveSize s = .size oh ow)
    (hpos : ¬ (oh < 1 ∨ ow < 1)) (h : Mode.ofWord s.operands.mode = none) : planRun s = .error .badMode := by
  simp only [planRun, hrank, hsize, ne_eq, not_true_eq_false, if_false, if_neg hpos, h]

theorem planRun_badDim {m : Mode} (hrank : u32 s.operands.inRank = 4) (hsize : resolveSize s = .size oh ow)
    (hpos : ¬ (oh < 1 ∨ ow < 1)) (hm : Mode.ofWord s.operands.mode = some m) (h : badDims s.operands) :
    planRun s = .error .badDim := by
  simp only [planRun, hrank, hsize, ne_eq, not_true_eq_false, if_false, if_neg hpos, hm, if_pos h]

/-- Past the checks of rank, size, mode and dimensions the last checks decide. -/
theorem planRun_eq_checkJob {m : Mode} (hrank : u32 s.operands.inRank = 4) (hsize : resolveSize s = .size oh ow)
    (hpos : ¬ (oh < 1 ∨ ow < 1)) (hm : Mode.ofWord s.operands.mode = some m) (hdims : ¬ badDims s.operands) :
    planRun s = checkJob (runJob s.operands m oh ow) := by
  simp only [planRun, hrank, hsize, ne_eq, not_true_eq_false, if_false, if_neg hpos, hm, if_neg hdims]

theorem exec_run_error {e : ErrCode} (hwork : s.work = none) (h : planRun s = .error e) :
    exec .run s = .next (raise e s) := runPlan_of_error hwork h joinRun

/-- A `RUN` whose geometry is good ends without an error, or with `ERR_NONFINITE`. -/
theorem exec_run_of_geometry {j : Job} {t : State} (hwork : s.work = none) (hplan : planRun s = checkJob j)
    (hgeometry : checkGeometry j = none) (h : exec .run s = .next t) :
    t.status.errCode = 0 ∨ t.status.errCode = ErrCode.nonFinite.code ∧ coordsFinite j = false ∧ j.copy = false := by
  rcases runPlan_next h with ⟨w, hw, -⟩ | ⟨-, e, he, rfl⟩ | ⟨-, k, -, hfinish⟩
  · rw [hwork] at hw
    cases hw
  · rcases checkJob_error (hplan.symm.trans he) with hfails | ⟨-, hcopy, hcoord, rfl⟩
    · rw [hgeometry] at hfails
      cases hfails
    · exact .inr ⟨rfl, hcoord, hcopy⟩
  · exact .inl (finishWork_endsDone (.inr rfl) hfinish).errCode

/-- Settles O40: the checks of `RUN` in their order, each past the ones before it. -/
theorem runErrors : Obligations.RunErrors := by
  intro s hwork d
  refine ⟨fun hrank => exec_run_error hwork (planRun_rank hrank),
    fun hrank e he => exec_run_error hwork (planRun_sizeError hrank he), ?_⟩
  intro hrank oh ow hsize nIn nOut
  split_ifs with hpos hmode hdims hrange hoverlap
  · exact exec_run_error hwork (planRun_outSize hrank hsize hpos)
  · exact exec_run_error hwork (planRun_badMode hrank hsize hpos (Mode.ofWord_reserved hmode))
  · obtain ⟨m, hm, -⟩ := Mode.exists_ofWord_sel (Nat.not_lt.1 hmode)
    exact exec_run_error hwork (planRun_badDim hrank hsize hpos hm hdims)
  · obtain ⟨m, hm, -⟩ := Mode.exists_ofWord_sel (Nat.not_lt.1 hmode)
    refine exec_run_error hwork ((planRun_eq_checkJob hrank hsize hpos hm hdims).trans (checkJob_of_geometry ?_))
    exact checkGeometry_addrRange hrange
  · obtain ⟨m, hm, -⟩ := Mode.exists_ofWord_sel (Nat.not_lt.1 hmode)
    refine exec_run_error hwork ((planRun_eq_checkJob hrank hsize hpos hm hdims).trans (checkJob_of_geometry ?_))
    exact checkGeometry_overlap hrange hoverlap
  · intro t h
    obtain ⟨m, hm, -⟩ := Mode.exists_ofWord_sel (Nat.not_lt.1 hmode)
    have hgeometry : checkGeometry (runJob d m oh ow) = none := checkGeometry_eq_none_iff.2 ⟨hrange, hoverlap⟩
    exact (exec_run_of_geometry hwork (planRun_eq_checkJob hrank hsize hpos hm hdims) hgeometry h).imp_right And.left

end

end Sys2Proof.Machine
end

