-- ==== Sys2Proof/Proofs/Resample.lean ====
section
/-! PROOFS. What `RESIZE` and `RUN` write (R113, R117, R131, R132), and where they stop for want of a backed address (R41). -/

namespace Sys2Proof.Machine

/-! ### Unbacked addresses (R41) -/

/-- An element that needs an address in a hole of the platform is not backed. -/
theorem not_backed_of_needs {p : Params} {j : Job} {it : Item} {a : Nat} (ha : a ∈ it.reads p j ∨ a = it.addr j)
    (hole : ∃ h ∈ p.holes, h.1 ≤ a ∧ a < h.2) : it.backed p j = false := by
  have hunbacked := not_backed_of_hole hole
  rw [← Bool.not_eq_true, Item.backed, Bool.and_eq_true, List.all_eq_true]
  rintro ⟨hreads, haddr⟩
  rcases ha with ha | rfl
  · rw [hreads a ha] at hunbacked
    cases hunbacked
  · rw [haddr] at hunbacked
    cases hunbacked

theorem finishWork_unbacked {j : Job} {todo : List Item} {s : State} {it : Item} (hit : it ∈ todo)
    (h : it.backed s.params j = false) (join : Job → State → State) : finishWork j todo join s = .fault .unbacked := by
  refine if_neg fun hall => ?_
  rw [List.all_eq_true.1 hall it hit] at h
  cases h

/-- A command that forks stops where an element still to be written is not backed, before or after the fork. -/
theorem runPlan_stops {s : State} {plan : State → Plan} {j : Job} {it : Item}
    (h : (s.work = none ∧ plan s = .job j ∧ it ∈ j.order) ∨ ∃ w, s.work = some w ∧ w.job = j ∧ it ∈ w.todo)
    (hneeds : ∃ a, (a ∈ it.reads s.params j ∨ a = it.addr j) ∧ ∃ h ∈ s.params.holes, h.1 ≤ a ∧ a < h.2)
    (join : Job → State → State) : runPlan plan join s = .fault .unbacked := by
  obtain ⟨a, ha, hole⟩ := hneeds
  have hunbacked := not_backed_of_needs ha hole
  rcases h with ⟨hwork, hplan, hit⟩ | ⟨w, hwork, rfl, hit⟩
  · rw [runPlan_of_job hwork hplan]
    exact finishWork_unbacked (s := forkJob j s) hit hunbacked join
  · rw [runPlan_of_work hwork]
    exact finishWork_unbacked hit hunbacked join

/-- Settles O38: `RESIZE` is a command that forks. -/
theorem unbackedResizeStops : Obligations.UnbackedResizeStops := fun _ _ _ h hneeds => runPlan_stops h hneeds joinResize

/-- The size tensor is read, and one of its elements is not backed (R127). -/
theorem Regs.resolveSize_unbacked {d : Regs} {p : Params} {m : Memory} (hstatic : ¬ d.staticSize)
    (hcfg : d.hasSizeInput ≠ false) (hrange : ¬ 2 ^ 32 < u32 d.sizeAddr + 2)
    (h : (addrBacked p (u32 d.sizeAddr) && addrBacked p (u32 d.sizeAddr + 1)) = false) :
    d.resolveSize p m = .unbacked := by
  simp only [Regs.resolveSize, if_neg hstatic, if_neg hcfg, if_neg hrange, h, Bool.false_eq_true, if_false]

/-- Settles O57: the size tensor is read before the checks are over; from there on `RUN` is a command that forks. -/
theorem unbackedRunStops : Obligations.UnbackedRunStops := by
  intro s
  refine ⟨fun hwork hrank hstatic hcfg hrange hneeds => ?_, fun j it h hneeds => runPlan_stops h hneeds joinRun⟩
  obtain ⟨a, ha, hole⟩ := hneeds
  have hunbacked := not_backed_of_hole hole
  have hsize : resolveSize s = .unbacked := by
    refine Regs.resolveSize_unbacked hstatic (by simp [Regs.hasSizeInput, hcfg]) (Nat.not_lt.2 hrange) ?_
    rcases ha with rfl | rfl <;> simp [hunbacked]
  exact runPlan_of_unbacked hwork (planRun_sizeUnbacked hrank hsize) joinRun

/-! ### What is written (R113, R117) -/

/-- A command whose checks pass and whose elements are all backed writes them in the sequential order and joins. -/
theorem runPlan_of_backed {s : State} {plan : State → Plan} {j : Job} (hwork : s.work = none) (h : plan s = .job j)
    (hbacked : ∀ it ∈ j.order, it.backed s.params j = true) (join : Job → State → State) :
    runPlan plan join s =
      .next (join j { forkJob j s with mem := writeItems s.params j s.tick j.order s.mem }) := by
  rw [runPlan_of_job hwork h, finishWork_next]
  exact ⟨List.all_eq_true.2 hbacked, rfl⟩

section
variable {p : Params} {j : Job} {tick : Nat} {m : Memory}

/-- After all elements of a driver job have been written, each is its `Pixel` of memory as it was. -/
theorem readElem_writeItems_pixel (hj : JobOk j) (hm : m.wf) (hcopy : j.copy = false) {b c y x : Nat} (hb : b < j.B)
    (hc : c < j.C) (hy : y < j.oh) (hx : x < j.ow) :
    (writeItems p j tick j.order m).readElem (elemAddr j.outBase j.C j.oh j.ow b c y x) =
      elementBits j tick b y x c
        (pixelAt m.readElem j.inBase j.C j.ih j.iw b c (rowSample p j y) (colSample p j x)) :=
  (writeItems_spec hj j.order m (order_nodup j) (fun _ h => h) hm).2.1 (.pixel b y x c)
    ((mem_order_pixel hcopy).2 ⟨b, y, x, c, hb, hy, hx, hc, rfl⟩)

/-- After all elements of an identity copy have been written, each is the input element of its number. -/
theorem readElem_writeItems_copied (hj : JobOk j) (hm : m.wf) (hcopy : j.copy = true) {k : Nat} (hk : k < j.nOut) :
    (writeItems p j tick j.order m).readElem (j.outBase + k) = m.readElem (j.inBase + k) :=
  (writeItems_spec hj j.order m (order_nodup j) (fun _ h => h) hm).2.1 (.copied k)
    ((mem_order_copied hcopy).2 ⟨k, hk, rfl⟩)

theorem readByte_writeItems_outside (hj : JobOk j) (hm : m.wf) {a : Nat}
    (ha : a < 4 * j.outBase ∨ 4 * (j.outBase + j.nOut) ≤ a) :
    (writeItems p j tick j.order m).readByte a = m.readByte a :=
  (writeItems_spec hj j.order m (order_nodup j) (fun _ h => h) hm).2.2 a ha

end

/-- The fork of a driver makes exactly the mode's table valid (R84, R116). -/
theorem completed_forkJob_valid (s : State) {j : Job} (hcopy : j.copy = false) (k : Table) :
    (forkJob j s).status.completed.valid k = (s.status.valid k || decide (k = sel j.mode)) := by
  simp [hcopy]

/-- Settles O37: past its checks `RESIZE` writes the elements of its job and joins without writing a register. -/
theorem resizeWritesTheOutput : Obligations.ResizeWritesTheOutput := by
  intro s m d j hm hwork hh hw hmode hdims hgeometry hcoords hbacked
  have hplan : planResize s = .job j :=
    (planResize_eq_checkJob (not_or.2 ⟨Int.not_lt.2 hh, Int.not_lt.2 hw⟩) hmode hdims).trans
      (checkJob_passes hgeometry (.inr hcoords))
  have hj : JobOk j := jobOk_of_planResize hplan
  have hoh : ((s32 d.outH).toNat : Int) = s32 d.outH := Int.toNat_of_nonneg (by omega)
  have how : ((s32 d.outW).toNat : Int) = s32 d.outW := Int.toNat_of_nonneg (by omega)
  refine ⟨_, runPlan_of_backed hwork hplan hbacked joinResize, fun b c y x hb hc hy hx => ?_,
    fun a ha => readByte_writeItems_outside hj hm ha, rfl, rfl, rfl, completed_forkJob_valid s rfl, rfl, rfl, rfl, rfl, rfl,
    rfl⟩
  rw [← hoh, ← how]
  exact readElem_writeItems_pixel hj hm rfl hb hc hy hx

theorem ofNat_toNat_eq_ofInt {n : Int} (h : 0 ≤ n) : BitVec.ofNat 32 n.toNat = BitVec.ofInt 32 n := by
  rw [← BitVec.ofInt_natCast, Int.toNat_of_nonneg h]

/-- Settles O42: past its checks a `RUN` to another size writes the elements of its driver job and reports size and
scales. -/
theorem runResizes : Obligations.RunResizes := by
  intro s m oh ow d j hs ws hm hwork hrank hsize hh hw hmode hdims hother hgeometry hcoords hbacked
  have hplan : planRun s = .job j :=
    (planRun_eq_checkJob hrank hsize (not_or.2 ⟨Int.not_lt.2 hh, Int.not_lt.2 hw⟩) hmode hdims).trans
      (checkJob_passes hgeometry (.inr hcoords))
  have hj : JobOk j := jobOk_of_planRun hplan
  have hcopy : j.copy = false := decide_eq_false hother
  have hoh : (oh.toNat : Int) = oh := Int.toNat_of_nonneg (by omega)
  have how : (ow.toNat : Int) = ow := Int.toNat_of_nonneg (by omega)
  refine ⟨_, runPlan_of_backed hwork hplan hbacked joinRun, fun b c y x hb hc hy hx => ?_,
    fun a ha => readByte_writeItems_outside hj hm ha, ?_, rfl, rfl, completed_forkJob_valid s hcopy, rfl, rfl, rfl, rfl, rfl,
    rfl⟩
  · have hpixel := readElem_writeItems_pixel (p := s.params) (tick := s.tick) hj hm hcopy hb hc hy hx
    simp only [rowSample, colSample, j, runJob, hoh, how] at hpixel
    exact hpixel
  · rw [joinRun_regs, ← ofNat_toNat_eq_ofInt (by omega : 0 ≤ oh), ← ofNat_toNat_eq_ofInt (by omega : 0 ≤ ow)]
    rfl

end Sys2Proof.Machine
end

