-- ==== Sys2Proof/Proofs/Rounding.lean ====
section
/-! PROOFS. Binary32 as numbers (R7): the value of a pattern, and that each operation is one rounding of the exact result.
The magnitude bits of a pattern are read as `k * 2^23 + n`: the number `n` in units of `2^(k - 149)`. -/

namespace Sys2Proof.Machine

/-! ### The value of the magnitude bits -/

/-- The number the magnitude bits `[30:0]` stand for. -/
def magVal (M : Nat) : ℚ :=
  if M / 2 ^ 23 = 0 then (M : ℚ) * 2 ^ (-149 : ℤ)
  else ((M % 2 ^ 23 + 2 ^ 23 : ℕ) : ℚ) * 2 ^ (((M / 2 ^ 23 : ℕ) : ℤ) - 150)

/-- The unit of the last place of the patterns whose magnitude bits are `k * 2^23 + n` (R7). -/
def ulp (k : Nat) : ℚ := 2 ^ ((k : ℤ) - 149)

theorem ulp_pos (k : Nat) : 0 < ulp k := zpow_pos two_pos _

theorem ulp_add (k d : Nat) : ulp (k + d) = 2 ^ d * ulp k := by
  rw [ulp, ulp, ← zpow_natCast, ← zpow_add₀ two_ne_zero]
  congr 1
  push_cast
  ring

theorem ulp_mono {k k' : Nat} (h : k ≤ k') : ulp k ≤ ulp k' :=
  zpow_le_zpow_right₀ one_le_two (by omega)

/-- Magnitude bits as a multiple of the unit of the last place: a carry out of the significand moves the exponent up. -/
theorem magVal_eq {k n : Nat} (hn : n ≤ 2 ^ 24) (hk : k = 0 ∨ 2 ^ 23 ≤ n) : magVal (k * 2 ^ 23 + n) = n * ulp k := by
  unfold magVal
  rcases lt_or_ge n (2 ^ 23) with hsub | hnormal
  · obtain rfl : k = 0 := by omega
    rw [if_pos (by omega), Nat.zero_mul, Nat.zero_add]
    rfl
  · rw [if_neg (by omega)]
    rcases lt_or_eq_of_le hn with hlt | rfl
    · have hdiv : (k * 2 ^ 23 + n) / 2 ^ 23 = k + 1 := by omega
      have hmod : (k * 2 ^ 23 + n) % 2 ^ 23 + 2 ^ 23 = n := by omega
      rw [hdiv, hmod, ulp]
      congr 2
      push_cast
      ring
    · have hdiv : (k * 2 ^ 23 + 2 ^ 24) / 2 ^ 23 = k + 2 := by omega
      have hmod : (k * 2 ^ 23 + 2 ^ 24) % 2 ^ 23 + 2 ^ 23 = 2 ^ 23 := by omega
      have hexp : ((k + 2 : ℕ) : ℤ) - 150 = 1 + ((k : ℤ) - 149) := by push_cast; ring
      rw [hdiv, hmod, ulp, hexp, zpow_add₀ two_ne_zero]
      norm_num
      ring

/-- Every magnitude has that form. -/
theorem exists_magnitude (M : Nat) :
    ∃ k n, M = k * 2 ^ 23 + n ∧ n < 2 ^ 24 ∧ (k = 0 ∨ 2 ^ 23 ≤ n) ∧ magVal M = n * ulp k := by
  rcases Nat.eq_zero_or_pos (M / 2 ^ 23) with hsub | hnormal
  · exact ⟨0, M, by omega, by omega, .inl rfl, by simpa using magVal_eq (k := 0) (n := M) (by omega) (.inl rfl)⟩
  · have hM : M = (M / 2 ^ 23 - 1) * 2 ^ 23 + (M % 2 ^ 23 + 2 ^ 23) := by omega
    refine ⟨M / 2 ^ 23 - 1, M % 2 ^ 23 + 2 ^ 23, hM, by omega, .inr (by omega), ?_⟩
    conv_lhs => rw [hM]
    exact magVal_eq (by omega) (.inr (by omega))

theorem magVal_nonneg (M : Nat) : 0 ≤ magVal M := by
  obtain ⟨k, n, -, -, -, h⟩ := exists_magnitude M
  rw [h]
  exact mul_nonneg (Nat.cast_nonneg n) (ulp_pos k).le

theorem magVal_zero : magVal 0 = 0 := by simp [magVal]

/-- Larger magnitude bits stand for larger numbers. -/
theorem magVal_strictMono : StrictMono magVal := by
  intro M M' h
  obtain ⟨k, n, rfl, hn, hk, hval⟩ := exists_magnitude M
  obtain ⟨k', n', rfl, hn', hk', hval'⟩ := exists_magnitude M'
  rw [hval, hval']
  rcases lt_trichotomy k k' with hlt | rfl | hgt
  · have hlarge : 2 ^ 23 ≤ n' := hk'.resolve_left (by omega)
    calc (n : ℚ) * ulp k < 2 ^ 24 * ulp k := by
          refine mul_lt_mul_of_pos_right ?_ (ulp_pos k)
          exact_mod_cast hn
      _ = 2 ^ 23 * ulp (k + 1) := by rw [ulp_add]; ring
      _ ≤ n' * ulp k' := by
          refine mul_le_mul ?_ (ulp_mono hlt) (ulp_pos _).le (Nat.cast_nonneg _)
          exact_mod_cast hlarge
  · refine mul_lt_mul_of_pos_right ?_ (ulp_pos k)
    exact_mod_cast (by omega : n < n')
  · omega

/-! ### The value of a pattern -/

/-- The magnitude bits `[30:0]`. -/
def mag (a : Word) : Nat := a.toNat % 2 ^ 31

/-- The factor of a sign. -/
def sgn (neg : Bool) : ℚ := if neg then -1 else 1

theorem abs_sgn (neg : Bool) : |sgn neg| = 1 := by cases neg <;> simp [sgn]

theorem sgn_mul_self (neg : Bool) : sgn neg * sgn neg = 1 := by cases neg <;> simp [sgn]

theorem sgn_xor (p q : Bool) : sgn (p != q) = sgn p * sgn q := by cases p <;> cases q <;> simp [sgn]

theorem abs_sgn_mul (neg : Bool) (x : ℚ) : |sgn neg * x| = |x| := by rw [abs_mul, abs_sgn, one_mul]

theorem expField_eq (a : Word) : expField a = mag a / 2 ^ 23 := by unfold expField mag; omega

theorem fracField_eq (a : Word) : fracField a = mag a % 2 ^ 23 := by unfold fracField mag; omega

theorem signBit_eq (a : Word) : signBit a = decide (2 ^ 31 ≤ a.toNat) := by
  have := a.isLt
  rw [signBit, BitVec.getLsbD, Nat.testBit_eq_decide_div_mod_eq]
  congr 1
  simp only [eq_iff_iff]
  omega

theorem val_mk (neg : Bool) (m : Nat) (e : ℤ) : (Exact.mk neg m e).val = sgn neg * (m * 2 ^ e) := by
  cases neg <;> simp [Exact.val, Exact.signedMan, sgn]

/-- The number of a pattern is that of its magnitude bits, with its sign. -/
theorem realOf_eq (a : Word) : realOf a = sgn (signBit a) * magVal (mag a) := by
  unfold realOf exactOf magVal
  rw [expField_eq, fracField_eq]
  split
  · rw [val_mk, Nat.mod_eq_of_lt (by omega)]
  · rw [val_mk]

theorem abs_realOf (a : Word) : |realOf a| = magVal (mag a) := by
  rw [realOf_eq, abs_sgn_mul, abs_of_nonneg (magVal_nonneg _)]

theorem mag_lt (a : Word) : mag a < 2 ^ 31 := Nat.mod_lt _ (by norm_num)

theorem isFinite_iff {a : Word} : isFinite a = true ↔ mag a < 0x7F800000 := by
  have := mag_lt a
  simp only [isFinite, expField_eq, bne_iff_ne]
  omega

section
variable {neg : Bool} {M : Nat}

theorem toNat_withSign (hM : M < 2 ^ 31) : (withSign neg M).toNat = (if neg then 2 ^ 31 else 0) + M := by
  rw [withSign, BitVec.toNat_ofNat]
  refine Nat.mod_eq_of_lt ?_
  split <;> omega

theorem mag_withSign (hM : M < 2 ^ 31) : mag (withSign neg M) = M := by
  rw [mag, toNat_withSign hM]
  split <;> omega

theorem signBit_withSign (hM : M < 2 ^ 31) : signBit (withSign neg M) = neg := by
  rw [signBit_eq, toNat_withSign hM]
  cases neg
  · simpa using hM
  · simp

theorem realOf_withSign (hM : M < 2 ^ 31) : realOf (withSign neg M) = sgn neg * magVal M := by
  rw [realOf_eq, signBit_withSign hM, mag_withSign hM]

end

/-- A pattern is its sign and its magnitude bits. -/
theorem withSign_signBit_mag (a : Word) : withSign (signBit a) (mag a) = a := by
  have := a.isLt
  apply BitVec.eq_of_toNat_eq
  rw [toNat_withSign (mag_lt a), signBit_eq]
  unfold mag
  simp only [decide_eq_true_eq]
  split <;> omega

/-! ### Rounding to the nearest integer, ties to even -/

/-- `n` is the integer nearest to `y`, and of two equally near the even one. -/
def NearestEven (n : Nat) (y : ℚ) : Prop := |(n : ℚ) - y| ≤ 1 / 2 ∧ (|(n : ℚ) - y| = 1 / 2 → n % 2 = 0)

theorem nearestEven_self (n : Nat) : NearestEven n n := by
  refine ⟨by simp, fun h => ?_⟩
  norm_num at h

/-- The shift rounds to nearest, ties to even. -/
theorem nearestEven_shiftRightEven (m s : Nat) : NearestEven (shiftRightEven m s) (m / 2 ^ s) := by
  have hpow : (0 : ℚ) < 2 ^ s := by positivity
  have hsplit : (m : ℚ) = 2 ^ s * (m / 2 ^ s : ℕ) + (m % 2 ^ s : ℕ) := by
    exact_mod_cast (Nat.div_add_mod m (2 ^ s)).symm
  have hlt : ((m % 2 ^ s : ℕ) : ℚ) < 2 ^ s := by exact_mod_cast Nat.mod_lt m (Nat.two_pow_pos s)
  have hquot : (m : ℚ) / 2 ^ s = (m / 2 ^ s : ℕ) + (m % 2 ^ s : ℕ) / 2 ^ s := by
    rw [hsplit, add_div, mul_div_cancel_left₀ _ hpow.ne']
  have hnonneg : (0 : ℚ) ≤ (m % 2 ^ s : ℕ) / 2 ^ s := by positivity
  rw [NearestEven, hquot]
  unfold shiftRightEven
  dsimp only
  split
  next hup =>
    have hhalf : (1 / 2 : ℚ) ≤ (m % 2 ^ s : ℕ) / 2 ^ s := by
      rw [div_le_div_iff₀ two_pos hpow]
      exact_mod_cast (by omega : 1 * 2 ^ s ≤ m % 2 ^ s * 2)
    have hone : ((m % 2 ^ s : ℕ) : ℚ) / 2 ^ s < 1 := (div_lt_one hpow).2 hlt
    push_cast
    rw [show ((m / 2 ^ s : ℕ) : ℚ) + 1 - ((m / 2 ^ s : ℕ) + (m % 2 ^ s : ℕ) / 2 ^ s) = 1 - (m % 2 ^ s : ℕ) / 2 ^ s by ring,
      abs_of_pos (by linarith)]
    refine ⟨by linarith, fun htie => ?_⟩
    have heq : ((m % 2 ^ s : ℕ) : ℚ) * 2 = 2 ^ s := by
      have : ((m % 2 ^ s : ℕ) : ℚ) / 2 ^ s = 1 / 2 := by linarith
      rw [div_eq_div_iff hpow.ne' two_ne_zero] at this
      linarith
    have heq' : m % 2 ^ s * 2 = 2 ^ s := by exact_mod_cast heq
    omega
  next hdown =>
    have hhalf : ((m % 2 ^ s : ℕ) : ℚ) / 2 ^ s ≤ 1 / 2 := by
      rw [div_le_div_iff₀ hpow two_pos]
      exact_mod_cast (by omega : m % 2 ^ s * 2 ≤ 1 * 2 ^ s)
    rw [show ((m / 2 ^ s : ℕ) : ℚ) - ((m / 2 ^ s : ℕ) + (m % 2 ^ s : ℕ) / 2 ^ s) = -((m % 2 ^ s : ℕ) / 2 ^ s) by ring,
      abs_neg, abs_of_nonneg hnonneg]
    refine ⟨hhalf, fun htie => ?_⟩
    have heq : ((m % 2 ^ s : ℕ) : ℚ) * 2 = 2 ^ s := by
      rw [div_eq_div_iff hpow.ne' two_ne_zero] at htie
      linarith
    have heq' : m % 2 ^ s * 2 = 2 ^ s := by exact_mod_cast heq
    omega

/-- No integer is nearer, and an odd one is nearer than every other. -/
theorem NearestEven.abs_le {n : Nat} {y : ℚ} (h : NearestEven n y) (i : ℤ) :
    |(n : ℚ) - y| ≤ |(i : ℚ) - y| ∧ (|(n : ℚ) - y| = |(i : ℚ) - y| → (i : ℚ) ≠ n → n % 2 = 0) := by
  obtain ⟨hhalf, heven⟩ := h
  by_cases heq : i = n
  · subst heq
    exact ⟨le_rfl, fun _ hne => absurd rfl hne⟩
  · have hone : (1 : ℚ) ≤ |(i : ℚ) - n| := by
      have : (1 : ℤ) ≤ |i - n| := Int.one_le_abs (sub_ne_zero.2 heq)
      exact_mod_cast this
    have htriangle : |(i : ℚ) - n| ≤ |(i : ℚ) - y| + |(n : ℚ) - y| := by
      rw [abs_sub_comm (n : ℚ) y]
      exact abs_sub_le _ _ _
    exact ⟨by linarith, fun htie _ => heven (by linarith)⟩

end Sys2Proof.Machine
end

