-- ==== Sys2Proof/Proofs/RoundsTo.lean ====
section
/-! PROOFS. The one rounding of R7 (`RoundsTo`): `roundF` makes it, and `fadd`, `fsub`, `fmul` and `fdiv` are each one. -/

namespace Sys2Proof.Machine

/-! ### Rounding inside a binade -/

/-- The numbers that are rounded in units of `ulp k`: 24 significant bits, or fewer at the bottom (gradual underflow). -/
structure InBinade (X : ℚ) (k : Nat) : Prop where
  pos : 0 < X
  low : k = 0 ∨ 2 ^ 23 * ulp k ≤ X
  high : X < 2 ^ 24 * ulp k

section
variable {X : ℚ} {k n : Nat}

/-- Distances in units of the last place. -/
theorem abs_mul_ulp_sub (z X : ℚ) (k : Nat) : |z * ulp k - X| = ulp k * |z - X / ulp k| := by
  have hu := ulp_pos k
  conv_rhs => rw [← abs_of_pos hu, ← abs_mul, abs_of_pos hu]
  congr 1
  field_simp

theorem InBinade.le_of_nearestEven (h : InBinade X k) (hn : NearestEven n (X / ulp k)) : n ≤ 2 ^ 24 := by
  have hhigh : X / ulp k < 2 ^ 24 := (div_lt_iff₀ (ulp_pos k)).2 h.high
  have hle := (abs_le.1 hn.1).2
  have : (n : ℚ) < 2 ^ 24 + 1 := by linarith
  exact Nat.lt_succ_iff.1 (by exact_mod_cast this)

theorem InBinade.ge_of_nearestEven (h : InBinade X k) (hn : NearestEven n (X / ulp k)) : k = 0 ∨ 2 ^ 23 ≤ n := by
  refine h.low.imp_right fun hlow => ?_
  have hlow' : 2 ^ 23 ≤ X / ulp k := (le_div_iff₀ (ulp_pos k)).2 hlow
  have hge := (abs_le.1 hn.1).1
  have : (2 ^ 23 : ℚ) < n + 1 := by linarith
  exact Nat.lt_succ_iff.1 (by exact_mod_cast this)

/-- The nearest multiple of the unit of the last place is as near as any binary32 number: those with a finer unit all lie
below the binade. -/
theorem InBinade.nearest (h : InBinade X k) (hn : NearestEven n (X / ulp k)) (M : Nat) :
    |n * ulp k - X| ≤ |magVal M - X| ∧
      (|n * ulp k - X| = |magVal M - X| → magVal M ≠ n * ulp k → n % 2 = 0) := by
  have hu := ulp_pos k
  have hmultiple : ∀ i : ℤ, |n * ulp k - X| ≤ |i * ulp k - X| ∧
      (|n * ulp k - X| = |i * ulp k - X| → (i : ℚ) ≠ n → n % 2 = 0) := by
    intro i
    rw [abs_mul_ulp_sub, abs_mul_ulp_sub, mul_le_mul_iff_right₀ hu, mul_right_inj' hu.ne']
    exact hn.abs_le i
  obtain ⟨k', n', -, hn', -, hval⟩ := exists_magnitude M
  rcases le_or_gt k k' with hle | hlt
  · have hcoarse : magVal M = ((n' * 2 ^ (k' - k) : ℕ) : ℤ) * ulp k := by
      rw [hval, show k' = k + (k' - k) by omega, ulp_add, Nat.add_sub_cancel_left]
      push_cast
      ring
    rw [hcoarse]
    obtain ⟨hnear, htie⟩ := hmultiple (n' * 2 ^ (k' - k) : ℕ)
    exact ⟨hnear, fun heq hne => htie heq fun hn => hne (by rw [hn])⟩
  · have hlow : 2 ^ 23 * ulp k ≤ X := h.low.resolve_left (by omega)
    have hfine : magVal M < 2 ^ 23 * ulp k := by
      rw [hval]
      calc (n' : ℚ) * ulp k' < 2 ^ 24 * ulp k' :=
            mul_lt_mul_of_pos_right (by exact_mod_cast hn') (ulp_pos k')
        _ = 2 ^ 23 * ulp (k' + 1) := by rw [ulp_add]; ring
        _ ≤ 2 ^ 23 * ulp k := by
            have := ulp_mono hlt
            gcongr
    have hbottom := (hmultiple ((2 ^ 23 : ℕ) : ℤ)).1
    rw [show (((2 ^ 23 : ℕ) : ℤ) : ℚ) = 2 ^ 23 by norm_num] at hbottom
    rw [abs_of_nonpos (by linarith : 2 ^ 23 * ulp k - X ≤ 0)] at hbottom
    rw [abs_of_neg (by linarith : magVal M - X < 0)]
    exact ⟨by linarith, fun heq => absurd heq (by linarith)⟩

/-- The overflow bound of R7: half a unit of the last place above the largest number. -/
def overflow : ℚ := (2 ^ 25 - 1) * 2 ^ 103

theorem ulp_of_eq {e : Nat} (h : k = e + 149) : ulp k = 2 ^ e := by
  rw [ulp, ← zpow_natCast, show (k : ℤ) - 149 = e by omega]

/-- The magnitude bits stay below those of infinity exactly below the overflow bound. -/
theorem InBinade.lt_infinity_iff (h : InBinade X k) (hn : NearestEven n (X / ulp k)) :
    k * 2 ^ 23 + n < 0x7F800000 ↔ X < overflow := by
  have hle := h.le_of_nearestEven hn
  have hge := h.ge_of_nearestEven hn
  have hu := ulp_pos k
  unfold overflow
  rcases lt_trichotomy k 253 with hk | rfl | hk
  · refine iff_of_true (by omega) ?_
    have hsmall : ulp k ≤ 2 ^ 103 := (ulp_mono (by omega : k ≤ 252)).trans_eq (ulp_of_eq rfl)
    have := h.high
    norm_num at hsmall ⊢
    linarith
  · have hulp : ulp 253 = 2 ^ 104 := ulp_of_eq rfl
    have hX : X = X / ulp 253 * 2 ^ 104 := by rw [← hulp, div_mul_cancel₀ _ hu.ne']
    have hsplit : X < (2 ^ 25 - 1) * 2 ^ 103 ↔ X / ulp 253 < 2 ^ 24 - 1 / 2 := by
      rw [show ((2 : ℚ) ^ 25 - 1) * 2 ^ 103 = (2 ^ 24 - 1 / 2) * 2 ^ 104 by norm_num]
      conv_lhs => rw [hX]
      exact mul_lt_mul_iff_left₀ (by positivity)
    rw [hsplit]
    obtain ⟨hlow, hhigh⟩ := abs_le.1 hn.1
    constructor
    · intro hlt
      have hn24 : (n : ℚ) ≤ 2 ^ 24 - 1 := by
        have : n + 1 ≤ 2 ^ 24 := by omega
        have : (n : ℚ) + 1 ≤ 2 ^ 24 := by exact_mod_cast this
        linarith
      refine lt_of_le_of_ne (by linarith) fun htie => ?_
      have heq : (n : ℚ) = 2 ^ 24 - 1 := by linarith
      have hodd := hn.2 (by rw [heq, htie, abs_of_nonpos] <;> norm_num)
      have heq' : n = 2 ^ 24 - 1 := by
        have : (n : ℚ) + 1 = 2 ^ 24 := by linarith
        have : n + 1 = 2 ^ 24 := by exact_mod_cast this
        omega
      omega
    · intro hlt
      have : (n : ℚ) < 2 ^ 24 := by linarith
      have : n < 2 ^ 24 := by exact_mod_cast this
      omega
  · refine iff_of_false (by omega) (not_lt.2 ?_)
    have hlarge : (2 : ℚ) ^ 105 ≤ ulp k := (ulp_of_eq rfl).symm.le.trans (ulp_mono (by omega : 254 ≤ k))
    have := h.low.resolve_left (by omega)
    norm_num at hlarge ⊢
    linarith

/-- Of two numbers of one magnitude, the positive one is nearer to a positive number. -/
theorem eq_or_abs_sub_lt {t v X : ℚ} (hX : 0 < X) (h : |t| = v) : t = v ∨ |v - X| < |t - X| := by
  rcases le_or_gt 0 t with ht | ht
  · exact .inl (by rw [← h, abs_of_nonneg ht])
  · right
    rw [← h, abs_of_neg ht, abs_of_neg (by linarith : t - X < 0), abs_lt]
    constructor <;> linarith

theorem abs_sub_sgn_mul (neg : Bool) (y X : ℚ) : |y - sgn neg * X| = |sgn neg * y - X| := by
  rw [← abs_sgn_mul neg (y - sgn neg * X), mul_sub, ← mul_assoc, sgn_mul_self, one_mul]

/-- A number rounded inside its binade is the one rounding of R7. -/
theorem InBinade.roundsTo (h : InBinade X k) (hn : NearestEven n (X / ulp k)) (neg : Bool) :
    RoundsTo (withSign neg (min (k * 2 ^ 23 + n) 0x7F800000)) (sgn neg * X) := by
  have hM : min (k * 2 ^ 23 + n) 0x7F800000 < 2 ^ 31 := by omega
  have hfinite : isFinite (withSign neg (min (k * 2 ^ 23 + n) 0x7F800000)) = true ↔ k * 2 ^ 23 + n < 0x7F800000 := by
    rw [isFinite_iff, mag_withSign hM]
    omega
  refine ⟨?_, fun hinf => ?_, fun w hr hw => ?_⟩
  · rw [hfinite, h.lt_infinity_iff hn, abs_sgn_mul, abs_of_pos h.pos]
    rfl
  · rw [← Bool.not_eq_true, hfinite] at hinf
    rw [min_eq_right (by omega)]
    have := h.pos
    cases neg
    · exact ⟨fun _ => rfl, fun hneg => absurd hneg (by simp [sgn]; linarith)⟩
    · exact ⟨fun hpos => absurd hpos (by simp [sgn]; linarith), fun _ => rfl⟩
  · rw [hfinite] at hr
    rw [min_eq_left hr.le] at hM ⊢
    have hval : realOf (withSign neg (k * 2 ^ 23 + n)) = sgn neg * (n * ulp k) := by
      rw [realOf_withSign hM, magVal_eq (h.le_of_nearestEven hn) (h.ge_of_nearestEven hn)]
    have hpos : sgn neg * (sgn neg * (n * ulp k)) = n * ulp k := by rw [← mul_assoc, sgn_mul_self, one_mul]
    rw [hval, abs_sub_sgn_mul, abs_sub_sgn_mul, hpos]
    obtain ⟨hnear, htie⟩ := h.nearest hn (mag w)
    rcases eq_or_abs_sub_lt h.pos (t := sgn neg * realOf w) (v := magVal (mag w))
      (by rw [abs_sgn_mul, abs_realOf]) with heq | hfar
    · rw [heq]
      refine ⟨hnear, fun hdist hne => ?_⟩
      have heven := htie hdist fun hsame => hne (by
        rw [← hsame, ← heq, ← mul_assoc, sgn_mul_self, one_mul])
      rw [toNat_withSign hM]
      split <;> omega
    · exact ⟨(hnear.trans hfar.le), fun hdist => absurd hdist (hnear.trans_lt hfar).ne⟩

end

/-! ### `roundF` -/

theorem roundsTo_zero (neg : Bool) : RoundsTo (withSign neg 0) 0 := by
  have hval : realOf (withSign neg 0) = 0 := by rw [realOf_withSign (by norm_num), magVal_zero, mul_zero]
  have hfin : isFinite (withSign neg 0) = true := by cases neg <;> decide
  refine ⟨iff_of_true hfin ?_, fun h => ?_, fun w _ _ => ?_⟩
  · norm_num
  · rw [hfin] at h
    cases h
  · rw [hval, sub_zero, abs_zero]
    exact ⟨abs_nonneg _, fun heq hne => absurd (abs_eq_zero.1 (by simpa using heq.symm)) hne⟩

/-- `y` rounds as the integer `m` does: it is `m`, or lies within 1 of an odd `m` of 26 bits or more, whose lowest bit is
then a sticky bit below the last place. -/
def StandsFor (m : Nat) (y : ℚ) : Prop := y = m ∨ (m % 2 = 1 ∧ |y - m| < 1 ∧ 2 ^ 26 ≤ m)

/-- The leading bit of `m` is that of `y`. -/
theorem StandsFor.log2_bounds {m : Nat} {y : ℚ} (hm : m ≠ 0) (h : StandsFor m y) :
    (2 : ℚ) ^ m.log2 ≤ y ∧ y < 2 ^ (m.log2 + 1) := by
  have hlow : 2 ^ m.log2 ≤ m := Nat.log2_self_le hm
  have hhigh : m < 2 ^ (m.log2 + 1) := Nat.lt_log2_self
  rcases h with rfl | ⟨hodd, hnear, hlarge⟩
  · exact ⟨by exact_mod_cast hlow, by exact_mod_cast hhigh⟩
  · have hlog : m.log2 ≠ 0 := fun h0 => by
      rw [h0] at hhigh
      omega
    obtain ⟨l, hl⟩ : ∃ l, m.log2 = l + 1 := ⟨m.log2 - 1, by omega⟩
    rw [hl] at hlow hhigh ⊢
    have hlow' : 2 ^ (l + 1) + 1 ≤ m := by rw [pow_succ] at hlow ⊢; omega
    have hhigh' : m + 1 ≤ 2 ^ (l + 1 + 1) := by omega
    obtain ⟨h1, h2⟩ := abs_lt.1 hnear
    have hlow'' : (2 : ℚ) ^ (l + 1) + 1 ≤ m := by exact_mod_cast hlow'
    have hhigh'' : (m : ℚ) + 1 ≤ 2 ^ (l + 1 + 1) := by exact_mod_cast hhigh'
    exact ⟨by linarith, by linarith⟩

/-- The sticky bit is enough: where `m` is odd and shifted by two places or more, what is within 1 of it rounds as it
does, and is no tie. -/
theorem nearestEven_of_near {m s : Nat} {y : ℚ} (hodd : m % 2 = 1) (hs : 2 ≤ s) (hnear : |y - m| < 1) :
    NearestEven (shiftRightEven m s) (y / 2 ^ s) := by
  obtain ⟨t, rfl⟩ := Nat.exists_eq_add_of_le' hs
  generalize hsig : shiftRightEven m (t + 2) = n
  have hpow : (0 : ℚ) < 2 ^ (t + 2) := by positivity
  have hround := (hsig ▸ nearestEven_shiftRightEven m (t + 2)).1
  have hscale : ∀ z : ℚ, |(n : ℚ) - z / 2 ^ (t + 2)| = |n * 2 ^ (t + 2) - z| / 2 ^ (t + 2) := by
    intro z
    rw [eq_div_iff hpow.ne', ← abs_of_pos hpow, ← abs_mul, abs_of_pos hpow]
    congr 1
    field_simp
  rw [hscale, div_le_iff₀ hpow] at hround
  -- an odd distance that is at most an even bound is at most one less
  have hint : |((n * 2 ^ (t + 2) : ℕ) : ℤ) - m| ≤ 2 ^ (t + 1) := by
    have : |((n * 2 ^ (t + 2) : ℕ) : ℚ) - m| ≤ 2 ^ (t + 1) := by
      push_cast
      refine hround.trans_eq ?_
      rw [pow_succ 2 (t + 1)]
      ring
    exact_mod_cast this
  have hstrict : |((n * 2 ^ (t + 2) : ℕ) : ℤ) - m| + 1 ≤ 2 ^ (t + 1) := by
    have heven : n * 2 ^ (t + 2) = 2 * (n * 2 ^ (t + 1)) := by rw [pow_succ]; ring
    have heven' : (2 : ℤ) ^ (t + 1) = 2 * 2 ^ t := by rw [pow_succ]; ring
    rw [heven, heven', Int.abs_eq_natAbs] at hint ⊢
    omega
  have hdist : |(n : ℚ) * 2 ^ (t + 2) - y| < 2 ^ (t + 1) := by
    have hstrict' : |(n : ℚ) * 2 ^ (t + 2) - m| + 1 ≤ 2 ^ (t + 1) := by exact_mod_cast hstrict
    have htriangle := abs_sub_le ((n : ℚ) * 2 ^ (t + 2)) m y
    rw [abs_sub_comm (m : ℚ) y] at htriangle
    linarith
  have hlt : |(n : ℚ) - y / 2 ^ (t + 2)| < 1 / 2 := by
    rw [hscale, div_lt_iff₀ hpow]
    refine hdist.trans_eq ?_
    rw [pow_succ 2 (t + 1)]
    ring
  exact ⟨hlt.le, fun htie => absurd htie hlt.ne⟩

/-- The quantum of a rounding is the unit of its binade. -/
theorem ulp_quantum (m : Nat) (e : ℤ) : ulp (quantum m e + 149).toNat = 2 ^ quantum m e := by
  have hq : ((quantum m e + 149).toNat : ℤ) = quantum m e + 149 := by
    refine Int.toNat_of_nonneg ?_
    unfold quantum
    omega
  rw [ulp, hq]
  congr 1
  ring

/-- A number lies in the binade that the leading bit of its mantissa selects. -/
theorem StandsFor.inBinade {m : Nat} {y : ℚ} (h : StandsFor m y) (hm : m ≠ 0) (e : ℤ) :
    InBinade (y * 2 ^ e) (quantum m e + 149).toNat := by
  obtain ⟨hlow, hhigh⟩ := h.log2_bounds hm
  have hpow : (0 : ℚ) < 2 ^ e := zpow_pos two_pos _
  refine ⟨mul_pos (lt_of_lt_of_le (by positivity) hlow) hpow, ?_, ?_⟩
  · rcases le_or_gt ((m.log2 : ℤ) + e - 23) (-149) with hbottom | habove
    · left
      unfold quantum
      omega
    · right
      have hquantum : quantum m e = (m.log2 : ℤ) + e - 23 := max_eq_left habove.le
      rw [ulp_quantum, hquantum]
      calc (2 : ℚ) ^ 23 * 2 ^ ((m.log2 : ℤ) + e - 23) = 2 ^ m.log2 * 2 ^ e := by
            rw [← zpow_natCast, ← zpow_natCast, ← zpow_add₀ two_ne_zero, ← zpow_add₀ two_ne_zero]
            congr 1
            push_cast
            ring
        _ ≤ y * 2 ^ e := by gcongr
  · rw [ulp_quantum]
    have hquantum : (m.log2 : ℤ) + 1 + e ≤ 24 + quantum m e := by
      unfold quantum
      omega
    calc y * 2 ^ e < 2 ^ (m.log2 + 1) * 2 ^ e := mul_lt_mul_of_pos_right hhigh hpow
      _ = 2 ^ ((m.log2 : ℤ) + 1 + e) := by
          rw [zpow_add₀ two_ne_zero _ e, ← zpow_natCast]
          push_cast
          rfl
      _ ≤ 2 ^ (24 + quantum m e) := zpow_le_zpow_right₀ one_le_two hquantum
      _ = 2 ^ 24 * 2 ^ quantum m e := by rw [zpow_add₀ two_ne_zero]; rfl

theorem StandsFor.eq_zero {y : ℚ} (h : StandsFor 0 y) : y = 0 := by
  rcases h with rfl | ⟨hodd, -⟩
  · simp
  · omega

/-- `roundF` of a mantissa that stands for `y` is the one rounding of `y * 2^e`. -/
theorem roundsTo_roundF {m : Nat} {y : ℚ} (h : StandsFor m y) (neg : Bool) (e : ℤ) :
    RoundsTo (roundF neg m e) (sgn neg * (y * 2 ^ e)) := by
  rcases eq_or_ne m 0 with rfl | hm
  · rw [h.eq_zero, zero_mul, mul_zero]
    exact roundsTo_zero neg
  unfold roundF roundMag
  rw [if_neg hm]
  refine (h.inBinade hm e).roundsTo ?_ neg
  rw [ulp_quantum]
  split
  next hexact =>
    have hy : y = m := by
      refine h.resolve_right fun hsticky => ?_
      have hlog : 26 ≤ m.log2 := (Nat.le_log2 hm).2 hsticky.2.2
      unfold quantum at hexact
      omega
    have hdiv : y * 2 ^ e / 2 ^ quantum m e = ((m * 2 ^ (e - quantum m e).toNat : ℕ) : ℚ) := by
      rw [hy, mul_div_assoc, ← zpow_sub₀ two_ne_zero]
      push_cast
      rw [← zpow_natCast, Int.toNat_of_nonneg (by omega)]
    rw [hdiv]
    exact nearestEven_self _
  next hshift =>
    have hdiv : y * 2 ^ e / 2 ^ quantum m e = y / 2 ^ (quantum m e - e).toNat := by
      rw [mul_div_assoc, ← zpow_sub₀ two_ne_zero, div_eq_mul_inv, ← zpow_natCast, ← zpow_neg,
        Int.toNat_of_nonneg (by omega)]
      congr 2
      ring
    rw [hdiv]
    rcases h with rfl | ⟨hodd, hnear, hlarge⟩
    · exact nearestEven_shiftRightEven _ _
    · refine nearestEven_of_near hodd ?_ hnear
      have hlog : 26 ≤ m.log2 := (Nat.le_log2 hm).2 hlarge
      unfold quantum
      omega

end Sys2Proof.Machine
end

