-- ==== Sys2Proof/Proofs/Arithmetic.lean ====
section
/-! PROOFS. The operations of R7 on finite operands are each one rounding, and what follows of that: which results are
exact, which bounds rounding keeps, and how far it moves a number. -/

namespace Sys2Proof.Machine

/-! ### The operations are roundings (R7) -/

theorem isNaN_of_isFinite {a : Word} (h : isFinite a = true) : isNaN a = false := by
  simp only [isFinite, bne_iff_ne] at h
  simp [isNaN, h]

theorem isInf_of_isFinite {a : Word} (h : isFinite a = true) : isInf a = false := by
  simp only [isFinite, bne_iff_ne] at h
  simp [isInf, h]

theorem mag_fneg (a : Word) : mag (fneg a) = mag a := by
  rw [mag, fneg, BitVec.toNat_xor, Nat.xor_mod_two_pow]
  simp [mag]

theorem signBit_fneg (a : Word) : signBit (fneg a) = !signBit a := by
  rw [signBit, fneg, BitVec.getLsbD_xor, signBit, show (0x80000000 : BitVec 32).getLsbD 31 = true from rfl, Bool.xor_true]

theorem realOf_fneg (a : Word) : realOf (fneg a) = -realOf a := by
  rw [realOf_eq, realOf_eq, mag_fneg, signBit_fneg]
  cases signBit a <;> simp [sgn]

theorem isFinite_fneg (a : Word) : isFinite (fneg a) = isFinite a := by
  simp only [isFinite, expField_eq, mag_fneg]

theorem toNat_fabs (a : Word) : (fabs a).toNat = mag a := by
  rw [fabs, BitVec.toNat_and, mag]
  exact Nat.and_two_pow_sub_one_eq_mod _ 31

theorem realOf_eq_exactOf (a : Word) :
    realOf a = sgn (signBit a) * ((exactOf a).man * 2 ^ (exactOf a).exp) := by
  have hneg : (exactOf a).neg = signBit a := by
    unfold exactOf
    split <;> rfl
  rw [realOf, ← hneg]
  exact val_mk _ _ _

theorem man_lt (a : Word) : (exactOf a).man < 2 ^ 24 := by
  have : fracField a < 2 ^ 23 := Nat.mod_lt _ (by norm_num)
  unfold exactOf
  split
  · simp only
    omega
  · simp only
    omega

theorem standsFor_self (m : Nat) : StandsFor m m := .inl rfl

/-- A signed sum rounds by its magnitude and its sign. -/
theorem roundsTo_roundF_int (n : ℤ) (e : ℤ) : RoundsTo (roundF (decide (n < 0)) n.natAbs e) (n * 2 ^ e) := by
  have h := roundsTo_roundF (standsFor_self n.natAbs) (decide (n < 0)) e
  have hsign : sgn (decide (n < 0)) * ((n.natAbs : ℚ) * 2 ^ e) = n * 2 ^ e := by
    rw [← mul_assoc]
    congr 1
    rcases lt_or_ge n 0 with hneg | hpos
    · rw [decide_eq_true hneg, Nat.cast_natAbs, abs_of_neg hneg]
      simp [sgn]
    · rw [decide_eq_false (not_lt.2 hpos), Nat.cast_natAbs, abs_of_nonneg hpos]
      simp [sgn]
  rwa [hsign] at h

theorem roundsTo_i2f (n : ℤ) : RoundsTo (i2f n) n := by
  have h := roundsTo_roundF_int n 0
  rwa [zpow_zero, mul_one] at h

/-- A signed mantissa in a finer unit. -/
theorem signedMan_mul (x : Exact) {e : ℤ} (h : e ≤ x.exp) :
    (x.signedMan : ℚ) * 2 ^ x.exp = ((x.signedMan * 2 ^ (x.exp - e).toNat : ℤ) : ℚ) * 2 ^ e := by
  push_cast
  rw [mul_assoc, ← zpow_natCast, Int.toNat_of_nonneg (by omega), ← zpow_add₀ two_ne_zero]
  congr 2
  ring

section
variable {a b : Word}

theorem roundsTo_fadd (ha : isFinite a = true) (hb : isFinite b = true) : RoundsTo (fadd a b) (realOf a + realOf b) := by
  have hsum : realOf a + realOf b =
      (((exactOf a).signedMan * 2 ^ ((exactOf a).exp - min (exactOf a).exp (exactOf b).exp).toNat +
        (exactOf b).signedMan * 2 ^ ((exactOf b).exp - min (exactOf a).exp (exactOf b).exp).toNat : ℤ) : ℚ) *
        2 ^ min (exactOf a).exp (exactOf b).exp := by
    rw [Int.cast_add, add_mul, ← signedMan_mul _ (min_le_left _ _), ← signedMan_mul _ (min_le_right _ _)]
    rfl
  rw [hsum]
  simp only [fadd, isNaN_of_isFinite ha, isNaN_of_isFinite hb, isInf_of_isFinite ha, isInf_of_isFinite hb, Bool.or_self,
    Bool.false_eq_true, if_false]
  split
  next hzero =>
    rw [hzero, Int.cast_zero, zero_mul]
    exact roundsTo_zero _
  next => exact roundsTo_roundF_int _ _

theorem roundsTo_fsub (ha : isFinite a = true) (hb : isFinite b = true) : RoundsTo (fsub a b) (realOf a - realOf b) := by
  rw [sub_eq_add_neg, ← realOf_fneg]
  exact roundsTo_fadd ha (by rw [isFinite_fneg, hb])

theorem roundsTo_fmul (ha : isFinite a = true) (hb : isFinite b = true) : RoundsTo (fmul a b) (realOf a * realOf b) := by
  have hprod : realOf a * realOf b = sgn (signBit a != signBit b) *
      ((((exactOf a).man * (exactOf b).man : ℕ) : ℚ) * 2 ^ ((exactOf a).exp + (exactOf b).exp)) := by
    rw [realOf_eq_exactOf a, realOf_eq_exactOf b, sgn_xor, zpow_add₀ two_ne_zero]
    push_cast
    ring
  rw [hprod]
  simp only [fmul, isNaN_of_isFinite ha, isNaN_of_isFinite hb, isInf_of_isFinite ha, isInf_of_isFinite hb, Bool.or_self,
    Bool.false_eq_true, if_false]
  exact roundsTo_roundF (standsFor_self _) _ _

/-- The truncated quotient with its sticky bit stands for the quotient. -/
theorem standsFor_quotient {n d : Nat} (hd : 0 < d) (hlarge : n ≠ 0 → d * 2 ^ 26 ≤ n) :
    StandsFor (2 * (n / d) + if n % d = 0 then 0 else 1) (2 * n / d) := by
  have hdq : (0 : ℚ) < d := by exact_mod_cast hd
  have hsplit : (n : ℚ) = d * (n / d : ℕ) + (n % d : ℕ) := by exact_mod_cast (Nat.div_add_mod n d).symm
  split
  next hexact =>
    left
    rw [hexact, Nat.cast_zero, add_zero] at hsplit
    rw [hsplit]
    push_cast
    field_simp
    simp
  next hrest =>
    right
    have hn : n ≠ 0 := fun h => hrest (by rw [h, Nat.zero_mod])
    have hquot : 2 ^ 26 ≤ n / d := (Nat.le_div_iff_mul_le hd).2 (by rw [mul_comm]; exact hlarge hn)
    have hpos : (0 : ℚ) < (n % d : ℕ) := by exact_mod_cast Nat.pos_of_ne_zero hrest
    have hlt : ((n % d : ℕ) : ℚ) < d := by exact_mod_cast Nat.mod_lt n hd
    have hval : 2 * (n : ℚ) / d = 2 * (n / d : ℕ) + 2 * ((n % d : ℕ) / d) := by
      conv_lhs => rw [hsplit]
      field_simp
    have hfrac : ((n % d : ℕ) : ℚ) / d < 1 := (div_lt_one hdq).2 hlt
    have hfrac' : 0 < ((n % d : ℕ) : ℚ) / d := div_pos hpos hdq
    refine ⟨by omega, ?_, by omega⟩
    rw [hval]
    push_cast
    rw [abs_lt]
    constructor <;> linarith

theorem roundsTo_fdiv (ha : isFinite a = true) (hb : isFinite b = true) (hzero : realOf b ≠ 0) :
    RoundsTo (fdiv a b) (realOf a / realOf b) := by
  have hman : (exactOf b).man ≠ 0 := by
    intro h
    rw [realOf_eq_exactOf, h] at hzero
    simp at hzero
  have hstands := standsFor_quotient (n := (exactOf a).man * 2 ^ 50) (Nat.pos_of_ne_zero hman) fun hn => by
    have := man_lt b
    have hpos : 1 ≤ (exactOf a).man := Nat.pos_of_ne_zero fun h => hn (by rw [h, Nat.zero_mul])
    omega
  have hquot : realOf a / realOf b = sgn (signBit a != signBit b) *
      (2 * (((exactOf a).man * 2 ^ 50 : ℕ) : ℚ) / (exactOf b).man * 2 ^ ((exactOf a).exp - (exactOf b).exp - 51)) := by
    have hmanq : ((exactOf b).man : ℚ) ≠ 0 := by exact_mod_cast hman
    have hsgn : sgn (signBit b) ≠ 0 := fun h => by
      have := sgn_mul_self (signBit b)
      rw [h] at this
      norm_num at this
    have hpow : (2 : ℚ) ^ (exactOf b).exp ≠ 0 := (zpow_pos two_pos _).ne'
    rw [realOf_eq_exactOf a, realOf_eq_exactOf b, sgn_xor, zpow_sub₀ two_ne_zero, zpow_sub₀ two_ne_zero]
    push_cast
    have hinv : sgn (signBit b) = 1 / sgn (signBit b) := by
      rw [eq_div_iff hsgn, sgn_mul_self]
    conv_rhs => rw [hinv]
    field_simp
    ring
  rw [hquot]
  simp only [fdiv, isNaN_of_isFinite ha, isNaN_of_isFinite hb, isInf_of_isFinite ha, isInf_of_isFinite hb, Bool.or_self,
    Bool.false_eq_true, if_false, if_neg hman]
  exact roundsTo_roundF hstands _ _

end

/-- Settles O52: `roundF` makes the one rounding, and each operation ends in it. -/
theorem roundingIsToNearestEven : Obligations.RoundingIsToNearestEven := by
  refine ⟨fun neg m e => ?_, fun a b ha hb => ⟨roundsTo_fadd ha hb, roundsTo_fsub ha hb, roundsTo_fmul ha hb,
    roundsTo_fdiv ha hb⟩⟩
  rw [val_mk]
  exact roundsTo_roundF (standsFor_self m) neg e

/-! ### The binary32 numbers -/

/-- Some finite pattern has the value `x`. -/
def Representable (x : ℚ) : Prop := ∃ w, isFinite w = true ∧ realOf w = x

theorem Representable.of_isFinite {w : Word} (h : isFinite w = true) : Representable (realOf w) := ⟨w, h, rfl⟩

/-- Every finite pattern is below the overflow bound. -/
theorem abs_realOf_lt_overflow {w : Word} (h : isFinite w = true) : |realOf w| < overflow := by
  rw [isFinite_iff] at h
  have hlargest : magVal 0x7F7FFFFF = ((2 ^ 24 - 1 : ℕ) : ℚ) * ulp 253 :=
    magVal_eq (k := 253) (n := 2 ^ 24 - 1) (by norm_num) (.inr (by norm_num))
  have hle : magVal (mag w) ≤ magVal 0x7F7FFFFF := magVal_strictMono.monotone (by omega)
  rw [abs_realOf]
  refine hle.trans_lt ?_
  rw [hlargest, ulp_of_eq (e := 104) rfl, overflow]
  norm_num

theorem Representable.abs_lt_overflow {x : ℚ} (h : Representable x) : |x| < overflow := by
  obtain ⟨w, hw, rfl⟩ := h
  exact abs_realOf_lt_overflow hw

/-- A multiple of a power of two with a mantissa of at most 24 bits is a binary32 number, where it neither overflows nor
needs a smaller unit than `2^-149`. -/
theorem representable_nat {n : Nat} {j : ℤ} (hn : n < 2 ^ 24) (hj : -149 ≤ j) (hx : (n : ℚ) * 2 ^ j < overflow) (neg : Bool) :
    Representable (sgn neg * (n * 2 ^ j)) := by
  rcases Nat.eq_zero_or_pos n with rfl | hpos
  · exact ⟨0, by decide, by simp [realOf, exactOf, Exact.val, Exact.signedMan, expField, fracField]⟩
  have hlog : n.log2 < 24 := (Nat.log2_lt hpos.ne').2 hn
  -- shift the mantissa left until it has 24 bits, or its unit is the smallest
  obtain ⟨d, hd⟩ : ∃ d, d = min (23 - n.log2) (j + 149).toNat := ⟨_, rfl⟩
  obtain ⟨k, hk⟩ : ∃ k, k = (j + 149).toNat - d := ⟨_, rfl⟩
  have hval : (n : ℚ) * 2 ^ j = ((n * 2 ^ d : ℕ) : ℚ) * ulp k := by
    have hexp : j = (d : ℤ) + ((k : ℤ) - 149) := by omega
    rw [ulp, hexp, zpow_add₀ two_ne_zero, zpow_natCast]
    push_cast
    ring
  have hsize : n * 2 ^ d < 2 ^ 24 := by
    calc n * 2 ^ d < 2 ^ (n.log2 + 1) * 2 ^ d := Nat.mul_lt_mul_of_pos_right Nat.lt_log2_self (Nat.two_pow_pos d)
      _ = 2 ^ (n.log2 + 1 + d) := (pow_add ..).symm
      _ ≤ 2 ^ 24 := Nat.pow_le_pow_right two_pos (by omega)
  have hnormal : k = 0 ∨ 2 ^ 23 ≤ n * 2 ^ d := by
    rcases Nat.eq_zero_or_pos k with hzero | hposk
    · exact .inl hzero
    · right
      calc 2 ^ 23 = 2 ^ n.log2 * 2 ^ d := by rw [← pow_add]; congr 1; omega
        _ ≤ n * 2 ^ d := Nat.mul_le_mul_right _ (Nat.log2_self_le hpos.ne')
  have hbinade : InBinade ((n : ℚ) * 2 ^ j) k := by
    have hu := ulp_pos k
    rw [hval]
    refine ⟨by positivity, hnormal.imp_right fun h => ?_, ?_⟩
    · exact mul_le_mul_of_nonneg_right (by exact_mod_cast h) hu.le
    · exact mul_lt_mul_of_pos_right (by exact_mod_cast hsize) hu
  have hfinite : k * 2 ^ 23 + n * 2 ^ d < 0x7F800000 := by
    refine (hbinade.lt_infinity_iff ?_).2 hx
    rw [hval, mul_div_cancel_right₀ _ (ulp_pos k).ne']
    exact nearestEven_self _
  refine ⟨withSign neg (k * 2 ^ 23 + n * 2 ^ d), ?_, ?_⟩
  · rw [isFinite_iff, mag_withSign (by omega)]
    exact hfinite
  · rw [realOf_withSign (by omega), magVal_eq hsize.le hnormal, hval]

theorem representable_int {i : ℤ} {j : ℤ} (hi : |i| ≤ 2 ^ 24) (hj : -149 ≤ j) (hx : |(i : ℚ) * 2 ^ j| < overflow) :
    Representable (i * 2 ^ j) := by
  have hsign : (i : ℚ) = sgn (decide (i < 0)) * (i.natAbs : ℚ) := by
    rcases lt_or_ge i 0 with hneg | hpos
    · rw [decide_eq_true hneg, Nat.cast_natAbs, abs_of_neg hneg]
      simp [sgn]
    · rw [decide_eq_false (not_lt.2 hpos), Nat.cast_natAbs, abs_of_nonneg hpos]
      simp [sgn]
  have hpow : (0 : ℚ) < 2 ^ j := zpow_pos two_pos _
  rw [hsign, mul_assoc, abs_sgn_mul, abs_of_nonneg (by positivity)] at hx
  rw [hsign, mul_assoc]
  rw [Int.abs_eq_natAbs] at hi
  rcases lt_or_eq_of_le (show i.natAbs ≤ 2 ^ 24 by omega) with hlt | heq
  · exact representable_nat hlt hj hx _
  · have hcarry : ((i.natAbs : ℕ) : ℚ) * 2 ^ j = ((2 ^ 23 : ℕ) : ℚ) * 2 ^ (j + 1) := by
      rw [heq, zpow_add₀ two_ne_zero]
      push_cast
      ring
    rw [hcarry] at hx ⊢
    exact representable_nat (by norm_num) (by omega) hx _

/-- The integers up to `2^24` are binary32 numbers. -/
theorem representable_intCast {i : ℤ} (hi : |i| ≤ 2 ^ 24) : Representable i := by
  have h : |(i : ℚ) * 2 ^ (0 : ℤ)| < overflow := by
    have : |(i : ℚ)| ≤ 2 ^ 24 := by exact_mod_cast hi
    rw [zpow_zero, mul_one, overflow]
    refine this.trans_lt ?_
    norm_num
  have := representable_int hi (by norm_num) h
  rwa [zpow_zero, mul_one] at this

/-- So are the powers of two from `2^-149` to `2^127`. -/
theorem representable_two_pow {j : ℤ} (hlow : -149 ≤ j) (hhigh : j ≤ 127) : Representable (2 ^ j) := by
  have hle : (2 : ℚ) ^ j ≤ 2 ^ (127 : ℤ) := zpow_le_zpow_right₀ one_le_two hhigh
  have h : |((1 : ℤ) : ℚ) * 2 ^ j| < overflow := by
    rw [Int.cast_one, one_mul, abs_of_pos (zpow_pos two_pos _), overflow]
    refine hle.trans_lt ?_
    norm_num
  have := representable_int (i := 1) (by norm_num) hlow h
  rwa [Int.cast_one, one_mul] at this

theorem Representable.neg {x : ℚ} (h : Representable x) : Representable (-x) := by
  obtain ⟨w, hw, rfl⟩ := h
  exact ⟨fneg w, by rw [isFinite_fneg, hw], realOf_fneg w⟩

/-- Two patterns of one value that is not 0 are the same. -/
theorem eq_of_realOf_eq {a b : Word} (h : realOf a = realOf b) (hne : realOf b ≠ 0) : a = b := by
  have hmag : mag a = mag b := magVal_strictMono.injective (by rw [← abs_realOf, ← abs_realOf, h])
  rw [realOf_eq, realOf_eq, hmag] at h
  rw [realOf_eq] at hne
  have hsgn : sgn (signBit a) = sgn (signBit b) := mul_right_cancel₀ (right_ne_zero_of_mul hne) h
  have hsign : signBit a = signBit b := by
    revert hsgn
    cases signBit a <;> cases signBit b <;> norm_num [sgn]
  rw [← withSign_signBit_mag a, ← withSign_signBit_mag b, hsign, hmag]

/-- The patterns of the number 0 are the two zeros. -/
theorem mag_eq_zero_of_realOf {a : Word} (h : realOf a = 0) : mag a = 0 := by
  refine magVal_strictMono.injective ?_
  rw [← abs_realOf, h, magVal_zero, abs_zero]

/-! ### What rounding keeps -/

namespace RoundsTo

variable {r : Word} {x y : ℚ}

theorem isFinite_of_lt (h : RoundsTo r x) (hx : |x| < overflow) : isFinite r = true := h.1.2 hx

/-- A binary32 number rounds to itself. -/
theorem exact (h : RoundsTo r x) (hx : Representable x) : isFinite r = true ∧ realOf r = x := by
  have hfin := h.isFinite_of_lt hx.abs_lt_overflow
  obtain ⟨w, hw, rfl⟩ := hx
  have hnear := (h.2.2 w hfin hw).1
  rw [sub_self, abs_zero] at hnear
  exact ⟨hfin, sub_eq_zero.1 (abs_nonpos_iff.1 hnear)⟩

/-- Rounding passes no binary32 number. -/
theorem le_of_le (h : RoundsTo r x) (hfin : isFinite r = true) (hy : Representable y) (hx : x ≤ y) : realOf r ≤ y := by
  obtain ⟨w, hw, rfl⟩ := hy
  by_contra hgt
  have hnear := (h.2.2 w hfin hw).1
  rw [abs_of_pos (by linarith), abs_of_nonneg (by linarith)] at hnear
  linarith

theorem ge_of_ge (h : RoundsTo r x) (hfin : isFinite r = true) (hy : Representable y) (hx : y ≤ x) : y ≤ realOf r := by
  obtain ⟨w, hw, rfl⟩ := hy
  by_contra hlt
  have hnear := (h.2.2 w hfin hw).1
  rw [abs_of_neg (by linarith), abs_of_nonpos (by linarith)] at hnear
  linarith

/-- What is bounded by a binary32 number rounds to something finite with the same bound. -/
theorem bounded (h : RoundsTo r x) (hy : Representable y) (hx : |x| ≤ y) : isFinite r = true ∧ |realOf r| ≤ y := by
  have hfin := h.isFinite_of_lt (hx.trans_lt ((le_abs_self y).trans_lt hy.abs_lt_overflow))
  obtain ⟨hlow, hhigh⟩ := abs_le.1 hx
  exact ⟨hfin, abs_le.2 ⟨h.ge_of_ge hfin hy.neg hlow, h.le_of_le hfin hy hhigh⟩⟩

/-- Rounding moves a number below `2^j` by at most `2^(j-25)`. -/
theorem error_le (h : RoundsTo r x) {j : ℤ} (hlow : -125 ≤ j) (hhigh : j ≤ 127) (hx : |x| ≤ 2 ^ j) :
    |realOf r - x| ≤ 2 ^ (j - 25) := by
  have hfin := (h.bounded (representable_two_pow (by omega) hhigh) hx).1
  have hpow : (0 : ℚ) < 2 ^ (j - 24) := zpow_pos two_pos _
  have hscale : (2 : ℚ) ^ j = 2 ^ 24 * 2 ^ (j - 24) := by
    rw [← zpow_natCast, ← zpow_add₀ two_ne_zero]
    congr 1
    push_cast
    ring
  have hhalf : (2 : ℚ) ^ (j - 25) = 1 / 2 * 2 ^ (j - 24) := by
    rw [show j - 25 = -1 + (j - 24) by ring, zpow_add₀ two_ne_zero]
    norm_num
  obtain ⟨i, hi⟩ : ∃ i, i = round (x / 2 ^ (j - 24)) := ⟨_, rfl⟩
  have hround : |x / 2 ^ (j - 24) - i| ≤ 1 / 2 := hi ▸ abs_sub_round _
  have hdist : |(i : ℚ) * 2 ^ (j - 24) - x| ≤ 2 ^ (j - 25) := by
    have hsplit : (i : ℚ) * 2 ^ (j - 24) - x = -(x / 2 ^ (j - 24) - i) * 2 ^ (j - 24) := by
      field_simp
      ring
    rw [hsplit, abs_mul, abs_neg, abs_of_pos hpow, hhalf]
    exact mul_le_mul_of_nonneg_right hround hpow.le
  have hsize : |i| ≤ 2 ^ 24 := by
    have hquot : |x / 2 ^ (j - 24)| ≤ 2 ^ 24 := by
      rw [abs_div, abs_of_pos hpow, div_le_iff₀ hpow, ← hscale]
      exact hx
    have htriangle : |(i : ℚ)| ≤ |x / 2 ^ (j - 24)| + 1 / 2 := by
      have h1 := abs_sub_abs_le_abs_sub (i : ℚ) (x / 2 ^ (j - 24))
      rw [abs_sub_comm] at h1
      linarith
    have : |(i : ℚ)| < 2 ^ 24 + 1 := by linarith
    exact Int.lt_add_one_iff.1 (by exact_mod_cast this)
  have hrep : Representable ((i : ℚ) * 2 ^ (j - 24)) := by
    refine representable_int hsize (by omega) ?_
    have hle : |(i : ℚ) * 2 ^ (j - 24)| ≤ 2 ^ j := by
      rw [abs_mul, abs_of_pos hpow, hscale]
      exact mul_le_mul_of_nonneg_right (by exact_mod_cast hsize) hpow.le
    have htop : (2 : ℚ) ^ j ≤ 2 ^ (127 : ℤ) := zpow_le_zpow_right₀ one_le_two hhigh
    refine (hle.trans htop).trans_lt ?_
    rw [overflow]
    norm_num
  obtain ⟨w, hw, hval⟩ := hrep
  exact ((h.2.2 w hfin hw).1.trans_eq (by rw [hval])).trans hdist

end RoundsTo

/-! ### Conversions and NaNs (R5, R7) -/

/-- Settles O53: the rounding of a number is that number; only the sign of a zero is left, which `roundF` keeps. -/
theorem roundingKeepsNumbers : Obligations.RoundingKeepsNumbers := by
  intro w hw
  have hneg : (exactOf w).neg = signBit w := by
    unfold exactOf
    split <;> rfl
  by_cases hzero : realOf w = 0
  · have hmag := mag_eq_zero_of_realOf hzero
    have hman : (exactOf w).man = 0 := by
      simp [exactOf, expField_eq, fracField_eq, hmag]
    rw [roundF, roundMag, if_pos hman, hneg, ← hmag, withSign_signBit_mag]
  · have hround : RoundsTo (roundF (exactOf w).neg (exactOf w).man (exactOf w).exp) (realOf w) := by
      rw [realOf_eq_exactOf, ← hneg]
      exact roundsTo_roundF (standsFor_self _) _ _
    exact eq_of_realOf_eq (hround.exact (.of_isFinite hw)).2 hzero

theorem i2f_exact {n : ℤ} (h : |n| ≤ 2 ^ 24) : isFinite (i2f n) = true ∧ realOf (i2f n) = n :=
  (roundsTo_i2f n).exact (representable_intCast h)

/-- Settles O54: the integers up to `2^24` are binary32 numbers. -/
theorem smallIntegersConvertExactly : Obligations.SmallIntegersConvertExactly := fun _ hlow hhigh =>
  i2f_exact (abs_le.2 ⟨hlow, hhigh⟩)

theorem isNaN_fneg (a : Word) : isNaN (fneg a) = isNaN a := by
  simp only [isNaN, expField_eq, fracField_eq, mag_fneg]

theorem isNaN_quietNaN : isNaN quietNaN = true := by decide

theorem fadd_nan {a b : Word} (h : isNaN a = true ∨ isNaN b = true) : isNaN (fadd a b) = true := by
  have hor : (isNaN a || isNaN b) = true := by simpa using h
  simp only [fadd, hor, if_true, isNaN_quietNaN]

theorem fmul_nan {a b : Word} (h : isNaN a = true ∨ isNaN b = true) : isNaN (fmul a b) = true := by
  have hor : (isNaN a || isNaN b) = true := by simpa using h
  simp only [fmul, hor, if_true, isNaN_quietNaN]

theorem fdiv_nan {a b : Word} (h : isNaN a = true ∨ isNaN b = true) : isNaN (fdiv a b) = true := by
  have hor : (isNaN a || isNaN b) = true := by simpa using h
  simp only [fdiv, hor, if_true, isNaN_quietNaN]

theorem fsub_nan {a b : Word} (h : isNaN a = true ∨ isNaN b = true) : isNaN (fsub a b) = true :=
  fadd_nan (by rwa [isNaN_fneg])

/-- Settles O55: each operation tests its operands first; the written pattern is `FreeNaN.lean`'s. -/
theorem nanResultsAreNans : Obligations.NanResultsAreNans :=
  ⟨fun _ _ h => ⟨fadd_nan (.inr h), fadd_nan (.inl h), fsub_nan (.inr h), fsub_nan (.inl h), fmul_nan (.inr h),
    fmul_nan (.inl h), fdiv_nan (.inr h), fdiv_nan (.inl h)⟩,
  fun tick site _ => ⟨fun h => resolveNaN_of_isNaN h tick site, fun h => resolveNaN_of_not_isNaN h tick site⟩⟩

end Sys2Proof.Machine
end

