-- ==== Sys2Proof/Proofs/TableOffset.lean ====
section
/-! PROOFS. The base and the table offset of a coordinate (R93): floor, fraction and rounding to an integer, each as a
number; and the scales of R129, which are quotients of lengths. -/

namespace Sys2Proof.Machine

/-! ### Patterns with known values -/

theorem realOf_zero : realOf 0 = 0 := by
  rw [realOf_eq, show mag 0 = 0 from rfl, magVal_zero, mul_zero]

theorem realOf_one : realOf 0x3F800000 = 1 := by
  rw [realOf_eq, show signBit 0x3F800000 = false from rfl, show mag 0x3F800000 = 126 * 2 ^ 23 + 2 ^ 23 from rfl,
    magVal_eq (by norm_num) (.inr le_rfl), ulp, sgn]
  norm_num

theorem realOf_half : realOf 0x3F000000 = 1 / 2 := by
  rw [realOf_eq, show signBit 0x3F000000 = false from rfl, show mag 0x3F000000 = 125 * 2 ^ 23 + 2 ^ 23 from rfl,
    magVal_eq (by norm_num) (.inr le_rfl), ulp, sgn]
  norm_num

theorem representable_zero : Representable 0 := ⟨0, by decide, realOf_zero⟩

theorem representable_one : Representable 1 := ⟨0x3F800000, by decide, realOf_one⟩

theorem representable_pow {n : Nat} (h : n ≤ 127) : Representable (2 ^ n) := by
  have := representable_two_pow (j := n) (by omega) (by omega)
  rwa [zpow_natCast] at this

/-! ### Floor and rounding to an integer (R93) -/

/-- A signed mantissa over a power of two. -/
theorem realOf_eq_div {a : Word} (h : ¬ 0 ≤ (exactOf a).exp) :
    realOf a = ((exactOf a).signedMan : ℚ) / ((2 ^ (-(exactOf a).exp).toNat : ℕ) : ℚ) := by
  rw [realOf, Exact.val, div_eq_mul_inv]
  push_cast
  rw [← zpow_natCast, ← zpow_neg, Int.toNat_of_nonneg (by omega), neg_neg]

/-- A pattern with a non-negative exponent is an integer. -/
theorem realOf_eq_int {a : Word} (h : 0 ≤ (exactOf a).exp) :
    realOf a = (((exactOf a).signedMan * 2 ^ (exactOf a).exp.toNat : ℤ) : ℚ) := by
  rw [realOf, Exact.val]
  push_cast
  rw [← zpow_natCast, Int.toNat_of_nonneg h]

theorem floorF_eq (a : Word) : floorF a = ⌊realOf a⌋ := by
  unfold floorF
  dsimp only
  split
  next h => rw [realOf_eq_int h, Int.floor_intCast]
  next h =>
    rw [realOf_eq_div h, Rat.floor_intCast_div_natCast]
    push_cast
    rfl

/-- The base of a finite coordinate is a binary32 number: an integer already, or one of at most 24 bits. -/
theorem representable_floor {a : Word} (h : isFinite a = true) : Representable ⌊realOf a⌋ := by
  by_cases hexp : 0 ≤ (exactOf a).exp
  · have := Representable.of_isFinite h
    rw [realOf_eq_int hexp] at this ⊢
    rwa [Int.floor_intCast]
  · refine representable_intCast ?_
    rw [realOf_eq_div hexp, Rat.floor_intCast_div_natCast]
    have hman : |(exactOf a).signedMan| < 2 ^ 24 := by
      have hlt : ((exactOf a).man : ℤ) < 2 ^ 24 := by exact_mod_cast man_lt a
      unfold Exact.signedMan
      split
      · rwa [abs_neg, Nat.abs_cast]
      · rwa [Nat.abs_cast]
    have hdiv := Int.abs_ediv_le_abs (exactOf a).signedMan ((2 ^ (-(exactOf a).exp).toNat : ℕ) : ℤ)
    omega

/-- `i` is the integer nearest to `y`, a half going as the tie rule says (R93). -/
def NearestInt (tie : TieRule) (i : ℤ) (y : ℚ) : Prop :=
  |(i : ℚ) - y| ≤ 1 / 2 ∧
    (|(i : ℚ) - y| = 1 / 2 → (tie = .even → i % 2 = 0) ∧ (tie = .away → |y| < |(i : ℚ)|))

theorem nearestInt_self (tie : TieRule) (i : ℤ) : NearestInt tie i i := by
  refine ⟨by simp, fun h => ?_⟩
  rw [sub_self, abs_zero] at h
  norm_num at h

/-- An integer strictly nearer than a half is the nearest, whatever the tie rule. -/
theorem nearestInt_of_lt (tie : TieRule) {i : ℤ} {y : ℚ} (h : |(i : ℚ) - y| < 1 / 2) : NearestInt tie i y :=
  ⟨h.le, fun heq => absurd heq h.ne⟩

/-- The two candidates for a half. -/
theorem nearestInt_half (tie : TieRule) (f : ℤ) : NearestInt tie
    (match tie with
      | .even => if f % 2 = 0 then f else f + 1
      | .away => if 0 ≤ f then f + 1 else f) (f + 1 / 2) := by
  have hdown : |(f : ℚ) - (f + 1 / 2)| = 1 / 2 := by
    rw [show (f : ℚ) - (f + 1 / 2) = -(1 / 2) by ring, abs_neg, abs_of_pos (by norm_num)]
  have hup : |((f + 1 : ℤ) : ℚ) - (f + 1 / 2)| = 1 / 2 := by
    push_cast
    rw [show (f : ℚ) + 1 - (f + 1 / 2) = 1 / 2 by ring, abs_of_pos (by norm_num)]
  cases tie with
  | even =>
    dsimp only
    split
    next h => exact ⟨hdown.le, fun _ => ⟨fun _ => h, nofun⟩⟩
    next h => exact ⟨hup.le, fun _ => ⟨fun _ => by omega, nofun⟩⟩
  | away =>
    dsimp only
    split
    next h =>
      refine ⟨hup.le, fun _ => ⟨nofun, fun _ => ?_⟩⟩
      have hf : (0 : ℚ) ≤ f := by exact_mod_cast h
      push_cast
      rw [abs_of_pos (by linarith), abs_of_pos (by linarith)]
      linarith
    next h =>
      refine ⟨hdown.le, fun _ => ⟨nofun, fun _ => ?_⟩⟩
      have hf : (f : ℚ) ≤ -1 := by exact_mod_cast (by omega : f ≤ -1)
      rw [abs_of_neg (by linarith), abs_of_neg (by linarith)]
      linarith

/-! A quotient of integers is its floor and the fraction that the remainder is of the divisor. -/

section
variable {d : ℕ} (hd : 0 < d)
include hd

theorem intCast_div_eq_floor_add (n : ℤ) : (n : ℚ) / d = (n / (d : ℤ) : ℤ) + ((n % (d : ℤ) : ℤ) : ℚ) / d := by
  have hdq : (0 : ℚ) < d := by exact_mod_cast hd
  have hsplit : (n : ℚ) = d * (n / (d : ℤ) : ℤ) + (n % (d : ℤ) : ℤ) := by exact_mod_cast (Int.mul_ediv_add_emod n d).symm
  conv_lhs => rw [hsplit]
  field_simp

theorem emod_div_bounds (n : ℤ) : (0 : ℚ) ≤ ((n % (d : ℤ) : ℤ) : ℚ) / d ∧ ((n % (d : ℤ) : ℤ) : ℚ) / d < 1 := by
  have hdq : (0 : ℚ) < d := by exact_mod_cast hd
  refine ⟨div_nonneg (by exact_mod_cast Int.emod_nonneg n (by omega)) hdq.le, ?_⟩
  rw [div_lt_one hdq]
  exact_mod_cast Int.emod_lt_of_pos n (by omega : (0 : ℤ) < d)

theorem div_lt_half_iff (r : ℤ) : (r : ℚ) / d < 1 / 2 ↔ 2 * r < d := by
  have hdq : (0 : ℚ) < d := by exact_mod_cast hd
  rw [div_lt_div_iff₀ hdq two_pos, one_mul, mul_comm]
  exact_mod_cast Iff.rfl

theorem half_lt_div_iff (r : ℤ) : 1 / 2 < (r : ℚ) / d ↔ (d : ℤ) < 2 * r := by
  have hdq : (0 : ℚ) < d := by exact_mod_cast hd
  rw [div_lt_div_iff₀ two_pos hdq, one_mul, mul_comm]
  exact_mod_cast Iff.rfl

end

/-- The model's rounding compares twice the remainder with the divisor. -/
theorem nearestInt_roundInt (tie : TieRule) (a : Word) : NearestInt tie (roundInt tie a) (realOf a) := by
  unfold roundInt
  dsimp only
  split
  next h =>
    rw [realOf_eq_int h]
    exact nearestInt_self _ _
  next h =>
    rw [realOf_eq_div h]
    generalize (exactOf a).signedMan = n
    have hd : 0 < 2 ^ (-(exactOf a).exp).toNat := Nat.two_pow_pos _
    have hcast : (2 : ℤ) ^ (-(exactOf a).exp).toNat = ((2 ^ (-(exactOf a).exp).toNat : ℕ) : ℤ) := by push_cast; rfl
    rw [hcast]
    generalize 2 ^ (-(exactOf a).exp).toNat = d at hd
    obtain ⟨hnonneg, hone⟩ := emod_div_bounds hd n
    rw [intCast_div_eq_floor_add hd]
    split
    next hlow =>
      refine nearestInt_of_lt _ ?_
      rw [sub_add_cancel_left, abs_neg, abs_of_nonneg hnonneg]
      exact (div_lt_half_iff hd _).2 hlow
    next hlow =>
      have hge := not_lt.1 (mt (div_lt_half_iff hd _).1 hlow)
      split
      next hhigh =>
        have hgt := (half_lt_div_iff hd _).2 hhigh
        refine nearestInt_of_lt _ ?_
        push_cast
        rw [add_sub_add_left_eq_sub, abs_of_pos (by linarith)]
        linarith
      next hhigh =>
        have hle := not_lt.1 (mt (half_lt_div_iff hd _).1 hhigh)
        rw [le_antisymm hle hge]
        exact nearestInt_half tie _

/-! ### The table offset (R93, R98 a) -/

/-- The fraction of a finite coordinate. -/
def fracOf (inn : Word) : Word := fsub inn (i2f (floorF inn))

/-- The fraction of a finite coordinate is the rounding of its distance to the base. -/
theorem roundsTo_fracOf {inn : Word} (h : isFinite inn = true) : RoundsTo (fracOf inn) (Int.fract (realOf inn)) := by
  have hbase := (roundsTo_i2f (floorF inn)).exact (floorF_eq inn ▸ representable_floor h)
  have hround := roundsTo_fsub h hbase.1
  rw [hbase.2, floorF_eq] at hround
  rw [fracOf, floorF_eq]
  exact hround

theorem fracOf_bounds {inn : Word} (h : isFinite inn = true) :
    isFinite (fracOf inn) = true ∧ 0 ≤ realOf (fracOf inn) ∧ realOf (fracOf inn) ≤ 1 := by
  have hround := roundsTo_fracOf h
  have hnonneg := Int.fract_nonneg (realOf inn)
  have hone := (Int.fract_lt_one (realOf inn)).le
  have hfin := (hround.bounded representable_one (abs_le.2 ⟨by linarith, hone⟩)).1
  exact ⟨hfin, hround.ge_of_ge hfin representable_zero hnonneg, hround.le_of_le hfin representable_one hone⟩

theorem i2f_K (p : Params) : isFinite (i2f p.K) = true ∧ realOf (i2f p.K) = p.K := by
  have hK : |(p.K : ℤ)| ≤ 2 ^ 24 := by
    rw [Nat.abs_cast]
    exact_mod_cast p.K_max
  have h := i2f_exact hK
  rwa [Int.cast_natCast] at h

/-- `frac * K`, rounded, lies in `[0, K]`. -/
theorem scaledFrac_bounds (p : Params) {inn : Word} (h : isFinite inn = true) :
    isFinite (fmul (fracOf inn) (i2f p.K)) = true ∧ 0 ≤ realOf (fmul (fracOf inn) (i2f p.K)) ∧
      realOf (fmul (fracOf inn) (i2f p.K)) ≤ p.K := by
  obtain ⟨hfin, hnonneg, hone⟩ := fracOf_bounds h
  obtain ⟨hKfin, hK⟩ := i2f_K p
  have hround := roundsTo_fmul hfin hKfin
  rw [hK] at hround
  have hKpos : (0 : ℚ) ≤ p.K := Nat.cast_nonneg _
  have hlow : 0 ≤ realOf (fracOf inn) * p.K := mul_nonneg hnonneg hKpos
  have hhigh : realOf (fracOf inn) * p.K ≤ p.K := mul_le_of_le_one_left hKpos hone
  have hrep : Representable (p.K : ℚ) := hK ▸ Representable.of_isFinite hKfin
  have hffin := (hround.bounded hrep (abs_le.2 ⟨by linarith, hhigh⟩)).1
  exact ⟨hffin, hround.ge_of_ge hffin representable_zero hlow, hround.le_of_le hffin hrep hhigh⟩

theorem tabOffset_nearest (p : Params) (inn : Word) :
    NearestInt p.tie (tabOffset p inn) (realOf (fmul (fracOf inn) (i2f p.K))) := nearestInt_roundInt p.tie _

/-- The offset stays inside the table: a number in `[0, K]` has its nearest integer there (R98 a). -/
theorem tabOffset_bounds (p : Params) {inn : Word} (h : isFinite inn = true) :
    0 ≤ tabOffset p inn ∧ tabOffset p inn ≤ p.K := by
  obtain ⟨-, hnonneg, hK⟩ := scaledFrac_bounds p h
  obtain ⟨hlow, hhigh⟩ := abs_le.1 (tabOffset_nearest p inn).1
  have h1 : (-1 : ℚ) < tabOffset p inn := by linarith
  have h2 : (tabOffset p inn : ℚ) < p.K + 1 := by linarith
  have h1' : (-1 : ℤ) < tabOffset p inn := by exact_mod_cast h1
  have h2' : tabOffset p inn < p.K + 1 := by exact_mod_cast h2
  omega

/-- Settles O28: the base is the floor, and the offset the nearest integer to a number in `[0, K]`. -/
theorem tableOffsetInRange : Obligations.TableOffsetInRange := by
  intro p inn h o f
  refine ⟨?_, tabOffset_bounds p h, (scaledFrac_bounds p h).1, tabOffset_nearest p inn⟩
  rw [floorF_eq]
  exact ⟨Int.floor_le _, Int.lt_floor_add_one _⟩

/-! ### The scales of R129 -/

/-- A conversion keeps the bounds 1 and `2^32`. -/
theorem i2f_bounds {n : ℤ} (h1 : 1 ≤ n) (h2 : n ≤ 2 ^ 32) :
    isFinite (i2f n) = true ∧ 1 ≤ realOf (i2f n) ∧ realOf (i2f n) ≤ 2 ^ 32 := by
  have hone : (1 : ℚ) ≤ n := by exact_mod_cast h1
  have htop : (n : ℚ) ≤ 2 ^ 32 := by exact_mod_cast h2
  have hround := roundsTo_i2f n
  have hfin := (hround.bounded (representable_pow (n := 32) (by norm_num)) (abs_le.2 ⟨by linarith, htop⟩)).1
  exact ⟨hfin, hround.ge_of_ge hfin representable_one hone, hround.le_of_le hfin (representable_pow (by norm_num)) htop⟩

/-- A finite number other than 0 divided by itself is exactly 1. -/
theorem fdiv_self {a : Word} (h : isFinite a = true) (hne : realOf a ≠ 0) : fdiv a a = 0x3F800000 := by
  have hround := roundsTo_fdiv h h hne
  rw [div_self hne] at hround
  refine eq_of_realOf_eq ?_ ?_
  · rw [(hround.exact representable_one).2, realOf_one]
  · rw [realOf_one]
    norm_num

theorem fdiv_i2f_self {n : ℤ} (h1 : 1 ≤ n) (h2 : n ≤ 2 ^ 32) : fdiv (i2f n) (i2f n) = 0x3F800000 := by
  obtain ⟨hfin, hone, -⟩ := i2f_bounds h1 h2
  exact fdiv_self hfin (by linarith)

/-- Settles O43: both branches of R129 divide a converted length by itself. -/
theorem equalSizesScaleByOne : Obligations.EqualSizesScaleByOne := by
  intro n align h1 h2
  unfold scale
  split
  next h => exact fdiv_i2f_self (by omega) (by omega)
  next => exact fdiv_i2f_self h1 h2.le

/-- The quotient of two lengths is finite, and at most `2^32`. -/
theorem fdiv_i2f_bounds {n d : ℤ} (hn1 : 1 ≤ n) (hn2 : n ≤ 2 ^ 32) (hd1 : 1 ≤ d) (hd2 : d ≤ 2 ^ 32) :
    isFinite (fdiv (i2f n) (i2f d)) = true ∧ |realOf (fdiv (i2f n) (i2f d))| ≤ 2 ^ 32 := by
  obtain ⟨hnfin, hnone, hntop⟩ := i2f_bounds hn1 hn2
  obtain ⟨hdfin, hdone, -⟩ := i2f_bounds hd1 hd2
  refine (roundsTo_fdiv hnfin hdfin (by linarith)).bounded (representable_pow (by norm_num)) ?_
  rw [abs_of_nonneg (by positivity)]
  exact (div_le_self (by linarith) hdone).trans hntop

theorem scale_bounds {n d : ℤ} (hn1 : 1 ≤ n) (hn2 : n ≤ 2 ^ 32) (hd1 : 1 ≤ d) (hd2 : d ≤ 2 ^ 32) (align : Bool) :
    isFinite (scale n d align) = true ∧ |realOf (scale n d align)| ≤ 2 ^ 32 := by
  unfold scale
  split
  next h => exact fdiv_i2f_bounds (by omega) (by omega) (by omega) (by omega)
  next => exact fdiv_i2f_bounds hn1 hn2 hd1 hd2

theorem i2f_abs_le {c : ℤ} (h : |c| ≤ 2 ^ 32) : isFinite (i2f c) = true ∧ |realOf (i2f c)| ≤ 2 ^ 32 :=
  (roundsTo_i2f c).bounded (representable_pow (by norm_num)) (by exact_mod_cast h)

theorem abs_half_le_one : |realOf 0x3F000000| ≤ 1 := by rw [realOf_half]; norm_num [abs_of_pos]

/-- A product of finite numbers below `2^m` and `2^n`. -/
theorem fmul_bounded {a b : Word} {m n : Nat} (ha : isFinite a = true ∧ |realOf a| ≤ 2 ^ m)
    (hb : isFinite b = true ∧ |realOf b| ≤ 2 ^ n) (h : m + n ≤ 127) :
    isFinite (fmul a b) = true ∧ |realOf (fmul a b)| ≤ 2 ^ (m + n) := by
  refine (roundsTo_fmul ha.1 hb.1).bounded (representable_pow h) ?_
  rw [abs_mul, pow_add]
  exact mul_le_mul ha.2 hb.2 (abs_nonneg _) (by positivity)

/-- A sum of finite numbers below `2^n`. -/
theorem fadd_bounded {a b : Word} {n : Nat} (ha : isFinite a = true ∧ |realOf a| ≤ 2 ^ n)
    (hb : isFinite b = true ∧ |realOf b| ≤ 2 ^ n) (h : n + 1 ≤ 127) :
    isFinite (fadd a b) = true ∧ |realOf (fadd a b)| ≤ 2 ^ (n + 1) := by
  refine (roundsTo_fadd ha.1 hb.1).bounded (representable_pow h) ?_
  have := abs_add_le (realOf a) (realOf b)
  rw [pow_succ]
  linarith [ha.2, hb.2]

theorem fneg_bounded {a : Word} {y : ℚ} (h : isFinite a = true ∧ |realOf a| ≤ y) :
    isFinite (fneg a) = true ∧ |realOf (fneg a)| ≤ y := by
  rwa [isFinite_fneg, realOf_fneg, abs_neg]

/-- With a scale of at most `2^32` every coordinate of an axis is finite, in any mode. -/
theorem mapCoord_finite {sc : Word} (hsc : isFinite sc = true ∧ |realOf sc| ≤ 2 ^ 32) {c : ℤ} (hc : |c| ≤ 2 ^ 32)
    (m : Mode) (outSize : ℤ) : isFinite (mapCoord m sc c outSize) = true := by
  have hhalf : ∀ n : Nat, isFinite 0x3F000000 = true ∧ |realOf 0x3F000000| ≤ 2 ^ n := fun n =>
    ⟨by decide, abs_half_le_one.trans (one_le_pow₀ one_le_two)⟩
  have hshifted : isFinite (halfPixelCoord sc c) = true := by
    have hsum := fadd_bounded (i2f_abs_le hc) (hhalf 32) (by norm_num)
    have hprod := fmul_bounded hsum hsc (by norm_num)
    exact (fadd_bounded hprod (fneg_bounded (hhalf 65)) (by norm_num)).1
  cases m with
  | none => exact (fmul_bounded (i2f_abs_le hc) hsc (by norm_num)).1
  | halfPixel => exact hshifted
  | pytorchHalfPixel =>
    change isFinite (if 1 < outSize then halfPixelCoord sc c else 0) = true
    split
    · exact hshifted
    · decide

end Sys2Proof.Machine
end

