-- ==== Sys2Proof/Proofs/TableEntries.lean ====
section
/-! PROOFS. The entries of the coefficient tables (R81, R86): exact at 0, 1/2 and 1, and everywhere close to the values of
the cubic convolution kernel, with one error bound for each operation of the generator. -/

namespace Sys2Proof.Machine

/-! ### The exact entries (R86) -/

theorem i2f_K_ne_zero (p : Params) : realOf (i2f p.K) ≠ 0 := by
  have := p.K_min
  rw [(i2f_K p).2]
  exact_mod_cast (by omega : p.K ≠ 0)

/-- The argument of entry `i` is the rounding of `i / K` (R81). -/
theorem roundsTo_tabArg (p : Params) {i : Nat} (hi : i ≤ p.K) : RoundsTo (tabArg p.K i) (i / p.K) := by
  have hlt := p.K_max
  have hsmall : |(i : ℤ)| ≤ 2 ^ 24 := by
    rw [Nat.abs_cast]
    exact_mod_cast (by omega : i ≤ 2 ^ 24)
  obtain ⟨hfin, hval⟩ := i2f_exact hsmall
  obtain ⟨hKfin, hK⟩ := i2f_K p
  have hround := roundsTo_fdiv hfin hKfin (i2f_K_ne_zero p)
  rwa [hval, hK, Int.cast_natCast] at hround

theorem signBit_of_pos {a : Word} (h : 0 < realOf a) : signBit a = false := by
  rw [realOf_eq] at h
  have := magVal_nonneg (mag a)
  cases hs : signBit a with
  | false => rfl
  | true =>
    rw [hs, sgn] at h
    simp at h
    linarith

/-- Positive zero over a positive number is positive zero. -/
theorem fdiv_zero {b : Word} (hb : isFinite b = true) (hpos : 0 < realOf b) : fdiv 0 b = 0 := by
  have hman : (exactOf b).man ≠ 0 := by
    intro h
    rw [realOf_eq_exactOf, h] at hpos
    simp at hpos
  have hzero : (exactOf 0).man = 0 := rfl
  simp only [fdiv, isNaN_of_isFinite hb, isInf_of_isFinite hb, show isNaN 0 = false from rfl,
    show isInf 0 = false from rfl, Bool.or_self, Bool.false_eq_true, if_false, if_neg hman, hzero, Nat.zero_mul,
    Nat.zero_mod, Nat.zero_div, signBit_of_pos hpos, show signBit 0 = false from rfl]
  rfl

theorem tabArg_zero (p : Params) : tabArg p.K 0 = 0 := by
  refine fdiv_zero (i2f_K p).1 ?_
  have := p.K_min
  rw [(i2f_K p).2]
  exact_mod_cast (by omega : 0 < p.K)

theorem tabArg_half (p : Params) : tabArg p.K (p.K / 2) = 0x3F000000 := by
  have hround := roundsTo_tabArg p (Nat.div_le_self p.K 2)
  have heven := p.K_even
  have hmin := p.K_min
  have hval : ((p.K / 2 : ℕ) : ℚ) / p.K = realOf 0x3F000000 := by
    have hK : (p.K : ℚ) = 2 * (p.K / 2 : ℕ) := by exact_mod_cast (by omega : p.K = 2 * (p.K / 2))
    have hne : ((p.K / 2 : ℕ) : ℚ) ≠ 0 := by exact_mod_cast (by omega : p.K / 2 ≠ 0)
    rw [realOf_half]
    conv_lhs => rw [hK]
    field_simp
  rw [hval] at hround
  refine eq_of_realOf_eq (hround.exact (.of_isFinite (by decide))).2 ?_
  rw [realOf_half]
  norm_num

theorem tabArg_one (p : Params) : tabArg p.K p.K = 0x3F800000 :=
  fdiv_self (i2f_K p).1 (i2f_K_ne_zero p)

/-- An even entry is branch 1 at half its place. -/
theorem tabEntry_even (K : Nat) (t : Table) (i : Nat) : tabEntry K t (2 * i) = branch1 t.shape (tabArg K i) := by
  rw [tabEntry, if_pos (by omega), Nat.mul_div_cancel_left i two_pos]

/-- An odd entry is branch 2 at half its place. -/
theorem tabEntry_odd (K : Nat) (t : Table) (i : Nat) : tabEntry K t (2 * i + 1) = branch2 t.shape (tabArg K i) := by
  rw [tabEntry, if_neg (by omega), show (2 * i + 1) / 2 = i by omega]

theorem tabEntry_zero (p : Params) (t : Table) : tabEntry p.K t 0 = 0x3F800000 := by
  rw [show 0 = 2 * 0 from rfl, tabEntry_even, tabArg_zero]
  cases t <;> decide +kernel

theorem tabEntry_one (p : Params) (t : Table) : tabEntry p.K t 1 = 0 := by
  rw [show 1 = 2 * 0 + 1 from rfl, tabEntry_odd, tabArg_zero]
  cases t <;> decide +kernel

theorem tabEntry_two_K (p : Params) (t : Table) : tabEntry p.K t (2 * p.K) = 0 := by
  rw [tabEntry_even, tabArg_one]
  cases t <;> decide +kernel

theorem tabEntry_two_K_add_one (p : Params) (t : Table) : tabEntry p.K t (2 * p.K + 1) = 0 := by
  rw [tabEntry_odd, tabArg_one]
  cases t <;> decide +kernel

/-- The entries at one half, which stand at `K` and `K + 1` since `K` is even. -/
theorem tabEntry_K (p : Params) (t : Table) : tabEntry p.K t p.K = branch1 t.shape 0x3F000000 ∧
    tabEntry p.K t (p.K + 1) = branch2 t.shape 0x3F000000 := by
  have hK : p.K = 2 * (p.K / 2) := by
    have := p.K_even
    omega
  rw [← tabArg_half p, ← tabEntry_even, ← tabEntry_odd, ← hK]
  exact ⟨rfl, rfl⟩

/-- Settles O24: the arguments at 0, K/2 and K are exactly 0, 1/2 and 1, whatever `K` is. -/
theorem tableEntriesForEveryK : Obligations.TableEntriesForEveryK := by
  intro p
  refine ⟨⟨tabEntry_zero p _, tabEntry_one p _, ?_, ?_, tabEntry_two_K p _, tabEntry_two_K_add_one p _⟩,
    ⟨tabEntry_zero p _, tabEntry_one p _, ?_, ?_, tabEntry_two_K p _, tabEntry_two_K_add_one p _⟩⟩
  · rw [(tabEntry_K p _).1]
    decide +kernel
  · rw [(tabEntry_K p _).2]
    decide +kernel
  · rw [(tabEntry_K p _).1]
    decide +kernel
  · rw [(tabEntry_K p _).2]
    decide +kernel

/-! ### Approximation -/

/-- The pattern `a` is finite, and its number within `ε` of `v`. -/
def Approx (a : Word) (v ε : ℚ) : Prop := isFinite a = true ∧ |realOf a - v| ≤ ε

/-- The error of one operation whose result is at most 8: half a unit in the last place of the numbers below 8. -/
def opErr : ℚ := 1 / 2 ^ 22

theorem RoundsTo.approx {r : Word} {x : ℚ} (h : RoundsTo r x) (hx : |x| ≤ 8) : Approx r x opErr := by
  have hx' : |x| ≤ 2 ^ (3 : ℤ) := hx.trans_eq (by norm_num)
  refine ⟨(h.bounded (representable_two_pow (by norm_num) (by norm_num)) hx').1, ?_⟩
  exact (h.error_le (by norm_num) (by norm_num) hx').trans_eq (by norm_num [opErr])

theorem Approx.mono {a : Word} {v ε ε' : ℚ} (h : Approx a v ε) (hε : ε ≤ ε') : Approx a v ε' := ⟨h.1, h.2.trans hε⟩

theorem Approx.abs_le {a : Word} {v ε : ℚ} (h : Approx a v ε) : |realOf a| ≤ |v| + ε := by
  have h1 := abs_sub_abs_le_abs_sub (realOf a) v
  linarith [h.2]

section
variable {a b : Word} {u v α β : ℚ}

/-- The errors of the operands of a sum add up, and the rounding adds one more. -/
theorem Approx.fadd (ha : Approx a u α) (hb : Approx b v β) (hsize : |u + v| + (α + β) ≤ 8) :
    Approx (fadd a b) (u + v) (α + β + opErr) := by
  have herr : |realOf a + realOf b - (u + v)| ≤ α + β := by
    rw [show realOf a + realOf b - (u + v) = realOf a - u + (realOf b - v) by ring]
    exact (abs_add_le _ _).trans (add_le_add ha.2 hb.2)
  have hval : |realOf a + realOf b| ≤ 8 := by
    have := abs_sub_abs_le_abs_sub (realOf a + realOf b) (u + v)
    linarith
  obtain ⟨hfin, hround⟩ := (roundsTo_fadd ha.1 hb.1).approx hval
  refine ⟨hfin, ?_⟩
  have := abs_sub_le (realOf (Machine.fadd a b)) (realOf a + realOf b) (u + v)
  linarith

theorem Approx.fneg (hb : Approx b v β) : Approx (fneg b) (-v) β := by
  refine ⟨by rw [isFinite_fneg, hb.1], ?_⟩
  rw [realOf_fneg, show -realOf b - -v = -(realOf b - v) by ring, abs_neg]
  exact hb.2

theorem Approx.fsub (ha : Approx a u α) (hb : Approx b v β) (hsize : |u - v| + (α + β) ≤ 8) :
    Approx (fsub a b) (u - v) (α + β + opErr) := by
  rw [sub_eq_add_neg] at hsize ⊢
  exact ha.fadd hb.fneg hsize

/-- The errors of the operands of a product, each times a bound of the other operand, and one rounding. -/
theorem Approx.fmul {U V : ℚ} (ha : Approx a u α) (hb : Approx b v β) (hU : |u| + α ≤ U) (hV : |v| ≤ V)
    (hsize : U * (V + β) ≤ 8) : Approx (fmul a b) (u * v) (U * β + V * α + opErr) := by
  have hα : 0 ≤ α := (abs_nonneg _).trans ha.2
  have hβ : 0 ≤ β := (abs_nonneg _).trans hb.2
  have hra : |realOf a| ≤ U := ha.abs_le.trans hU
  have hrb : |realOf b| ≤ V + β := hb.abs_le.trans (by linarith)
  have hU0 : 0 ≤ U := (abs_nonneg _).trans hra
  have hV0 : 0 ≤ V := (abs_nonneg _).trans hV
  have herr : |realOf a * realOf b - u * v| ≤ U * β + V * α := by
    rw [show realOf a * realOf b - u * v = realOf a * (realOf b - v) + v * (realOf a - u) by ring]
    refine (abs_add_le _ _).trans (add_le_add ?_ ?_)
    · rw [abs_mul]
      exact mul_le_mul hra hb.2 (abs_nonneg _) hU0
    · rw [abs_mul]
      exact mul_le_mul hV ha.2 (abs_nonneg _) hV0
  have hval : |realOf a * realOf b| ≤ 8 := by
    rw [abs_mul]
    exact (mul_le_mul hra hrb (abs_nonneg _) hU0).trans hsize
  obtain ⟨hfin, hround⟩ := (roundsTo_fmul ha.1 hb.1).approx hval
  refine ⟨hfin, ?_⟩
  have := abs_sub_le (realOf (Machine.fmul a b)) (realOf a * realOf b) (u * v)
  linarith

end

/-! ### The kernel and the entries -/

/-- The cubic convolution kernel for distances up to 1, as a polynomial in the distance (R81). -/
def kernel1 (α t : ℚ) : ℚ := (((α + 2) * t - (α + 3)) * t) * t + 1

/-- The kernel for distances from 1 to 2, in the distance less 1. -/
def kernel2 (α t : ℚ) : ℚ := ((α * (t + 1) - 5 * α) * (t + 1) + 8 * α) * (t + 1) - 4 * α

/-- The four taps of one fraction sum to 1. -/
theorem kernel_sum (α t : ℚ) : kernel2 α t + kernel1 α t + kernel1 α (1 - t) + kernel2 α (1 - t) = 1 := by
  unfold kernel1 kernel2
  ring

theorem kernel1_bounds {α t : ℚ} (hα : -3 / 4 ≤ α ∧ α ≤ -1 / 2) (ht : 0 ≤ t ∧ t ≤ 1) : |kernel1 α t| ≤ 3 / 2 := by
  obtain ⟨hα1, hα2⟩ := hα
  obtain ⟨ht0, ht1⟩ := ht
  have hfactor : kernel1 α t = 1 - t * t * ((α + 3) - (α + 2) * t) := by unfold kernel1; ring
  have hsq : t * t ≤ 1 := mul_le_one₀ ht1 ht0 ht1
  have hsq0 : 0 ≤ t * t := mul_nonneg ht0 ht0
  have hterm : (α + 2) * t ≤ (α + 2) * 1 := mul_le_mul_of_nonneg_left ht1 (by linarith)
  have hterm0 : 0 ≤ (α + 2) * t := mul_nonneg (by linarith) ht0
  have hprod : t * t * ((α + 3) - (α + 2) * t) ≤ 1 * (5 / 2) := mul_le_mul hsq (by linarith) (by linarith) one_pos.le
  have hprod0 : 0 ≤ t * t * ((α + 3) - (α + 2) * t) := mul_nonneg hsq0 (by linarith)
  rw [hfactor, abs_le]
  constructor <;> linarith

theorem kernel2_bounds {α t : ℚ} (hα : -3 / 4 ≤ α ∧ α ≤ -1 / 2) (ht : 0 ≤ t ∧ t ≤ 1) : |kernel2 α t| ≤ 3 / 4 := by
  obtain ⟨hα1, hα2⟩ := hα
  obtain ⟨ht0, ht1⟩ := ht
  have hfactor : kernel2 α t = α * (t * ((1 - t) * (1 - t))) := by unfold kernel2; ring
  have hsq : (1 - t) * (1 - t) ≤ 1 := mul_le_one₀ (by linarith) (by linarith) (by linarith)
  have hsq0 : 0 ≤ (1 - t) * (1 - t) := mul_self_nonneg _
  have hone : t * ((1 - t) * (1 - t)) ≤ 1 := mul_le_one₀ ht1 hsq0 hsq
  have hα : |α| ≤ 3 / 4 := abs_le.2 ⟨by linarith, by linarith⟩
  rw [hfactor, abs_mul, abs_of_nonneg (mul_nonneg ht0 hsq0)]
  calc |α| * (t * ((1 - t) * (1 - t))) ≤ 3 / 4 * 1 := mul_le_mul hα hone (mul_nonneg ht0 hsq0) (by norm_num)
    _ = 3 / 4 := by norm_num

/-- A pattern stands for its own number without error. -/
theorem approx_self {a : Word} {v : ℚ} (hfin : isFinite a = true) (h : realOf a = v) : Approx a v 0 :=
  ⟨hfin, by rw [h, sub_self, abs_zero]⟩

theorem approx_const {a : Word} {v : ℚ} {k n : Nat} (hsign : signBit a = false) (hmag : mag a = k * 2 ^ 23 + n)
    (hn : n ≤ 2 ^ 24) (hk : k = 0 ∨ 2 ^ 23 ≤ n) (hfin : isFinite a = true) (h : n * ulp k = v) : Approx a v 0 :=
  approx_self hfin (by rw [realOf_eq, hsign, hmag, magVal_eq hn hk, h]; simp [sgn])

theorem approx_one : Approx 0x3F800000 1 0 := approx_self (by decide) realOf_one

theorem approx_two : Approx 0x40000000 2 0 :=
  approx_const (k := 127) (n := 2 ^ 23) rfl rfl (by norm_num) (.inr le_rfl) (by decide) (by norm_num [ulp])

theorem approx_three : Approx 0x40400000 3 0 :=
  approx_const (k := 127) (n := 3 * 2 ^ 22) rfl rfl (by norm_num) (.inr (by norm_num)) (by decide) (by norm_num [ulp])

theorem approx_four : Approx 0x40800000 4 0 :=
  approx_const (k := 128) (n := 2 ^ 23) rfl rfl (by norm_num) (.inr le_rfl) (by decide) (by norm_num [ulp])

theorem approx_five : Approx 0x40A00000 5 0 :=
  approx_const (k := 128) (n := 5 * 2 ^ 21) rfl rfl (by norm_num) (.inr (by norm_num)) (by decide) (by norm_num [ulp])

theorem approx_eight : Approx 0x41000000 8 0 :=
  approx_const (k := 129) (n := 2 ^ 23) rfl rfl (by norm_num) (.inr le_rfl) (by decide) (by norm_num [ulp])

section
variable {A x : Word} {α t : ℚ}

/-- The error of branch 1: fifteen roundings. -/
theorem branch1_approx (hA : Approx A α 0) (hα : -3 / 4 ≤ α ∧ α ≤ -1 / 2) (hx : Approx x t opErr)
    (ht : 0 ≤ t ∧ t ≤ 1) : Approx (branch1 A x) (kernel1 α t) (15 * opErr) := by
  obtain ⟨hα1, hα2⟩ := hα
  obtain ⟨ht0, ht1⟩ := ht
  have hδ : opErr = 1 / 2 ^ 22 := rfl
  have hδ' : 0 < opErr ∧ opErr < 1 / 100 := by rw [hδ]; norm_num
  obtain ⟨hδ0, hδ1⟩ := hδ'
  have ht' : |t| ≤ 1 := abs_le.2 ⟨by linarith, ht1⟩
  have hmul : (α + 2) * t ≤ α + 2 := mul_le_of_le_one_right (by linarith) ht1
  have hmul0 : 0 ≤ (α + 2) * t := mul_nonneg (by linarith) ht0
  have hp : |(α + 2) * t - (α + 3)| ≤ 5 / 2 := abs_le.2 ⟨by linarith, by linarith⟩
  have hpt : |((α + 2) * t - (α + 3)) * t| ≤ 5 / 2 := by
    rw [abs_mul]
    calc _ ≤ 5 / 2 * 1 := mul_le_mul hp ht' (abs_nonneg _) (by norm_num)
      _ = 5 / 2 := by norm_num
  have hptt : |((α + 2) * t - (α + 3)) * t * t| ≤ 5 / 2 := by
    rw [abs_mul]
    calc _ ≤ 5 / 2 * 1 := mul_le_mul hpt ht' (abs_nonneg _) (by norm_num)
      _ = 5 / 2 := by norm_num
  have h2 := hA.fadd approx_two (by rw [abs_of_nonneg (by linarith)]; linarith)
  have h3 := hA.fadd approx_three (by rw [abs_of_nonneg (by linarith)]; linarith)
  have h2x := h2.fmul (U := 2) (V := 1) hx (by rw [abs_of_nonneg (by linarith)]; linarith) ht' (by linarith)
  have hdiff := h2x.fsub h3 (by linarith)
  have hdx := hdiff.fmul (U := 3) (V := 1) hx (by linarith) ht' (by linarith)
  have hdxx := hdx.fmul (U := 3) (V := 1) hx (by linarith) ht' (by linarith)
  have hlast := hdxx.fadd approx_one (by
    have := abs_add_le (((α + 2) * t - (α + 3)) * t * t) 1
    rw [abs_one] at this
    linarith)
  exact hlast.mono (by linarith)

/-- The error of branch 2: fifty roundings. -/
theorem branch2_approx (hA : Approx A α 0) (hα : -3 / 4 ≤ α ∧ α ≤ -1 / 2) (hx : Approx x t opErr)
    (ht : 0 ≤ t ∧ t ≤ 1) : Approx (branch2 A x) (kernel2 α t) (50 * opErr) := by
  have hfinal := kernel2_bounds hα ht
  obtain ⟨hα1, hα2⟩ := hα
  obtain ⟨ht0, ht1⟩ := ht
  have hδ : opErr = 1 / 2 ^ 22 := rfl
  have hδ' : 0 < opErr ∧ opErr < 1 / 1000 := by rw [hδ]; norm_num
  obtain ⟨hδ0, hδ1⟩ := hδ'
  have hα' : |α| ≤ 3 / 4 := abs_le.2 ⟨by linarith, by linarith⟩
  have hz : |t + 1| ≤ 2 := abs_le.2 ⟨by linarith, by linarith⟩
  have hscaled : ∀ y : ℚ, |y| ≤ 4 → |α * y| ≤ 3 := by
    intro y hy
    rw [abs_mul]
    calc |α| * |y| ≤ 3 / 4 * 4 := mul_le_mul hα' hy (abs_nonneg _) (by norm_num)
      _ = 3 := by norm_num
  have htt : t * t ≤ t := mul_le_of_le_one_right ht0 ht1
  have htt0 : 0 ≤ t * t := mul_self_nonneg t
  have hq : |α * (t + 1) - 5 * α| ≤ 3 := by
    rw [show α * (t + 1) - 5 * α = α * (t - 4) by ring]
    exact hscaled _ (abs_le.2 ⟨by linarith, by linarith⟩)
  have hr : |(α * (t + 1) - 5 * α) * (t + 1) + 8 * α| ≤ 3 := by
    rw [show (α * (t + 1) - 5 * α) * (t + 1) + 8 * α = α * (t * t - 3 * t + 4) by ring]
    exact hscaled _ (abs_le.2 ⟨by linarith, by linarith⟩)
  have h1 := hx.fadd approx_one (by linarith)
  have hAz := hA.fmul (U := 1) (V := 2) h1 (by linarith) hz (by linarith)
  have h5 := approx_five.fmul (U := 5) (V := 3 / 4) hA (by norm_num) hα' (by norm_num)
  have h8 := approx_eight.fmul (U := 8) (V := 3 / 4) hA (by norm_num) hα' (by norm_num)
  have h4 := approx_four.fmul (U := 4) (V := 3 / 4) hA (by norm_num) hα' (by norm_num)
  have hdiff := hAz.fsub h5 (by linarith)
  have hdz := hdiff.fmul (U := 7 / 2) (V := 2) h1 (by linarith) hz (by linarith)
  have hsum := hdz.fadd h8 (by linarith)
  have hsz := hsum.fmul (U := 7 / 2) (V := 2) h1 (by linarith) hz (by linarith)
  have hlast := hsz.fsub h4 (by
    unfold kernel2 at hfinal
    linarith)
  exact hlast.mono (by linarith)

end

/-- The error of every entry. -/
def entryErr : ℚ := 1 / 2 ^ 16

/-- The shape parameters are `-3/4` and `-1/2` (R5, R23). -/
theorem shape_approx (t : Table) : ∃ α : ℚ, Approx t.shape α 0 ∧ -3 / 4 ≤ α ∧ α ≤ -1 / 2 := by
  have hneg : ∀ {a b : Word} {v : ℚ}, Approx a v 0 → fneg a = b → Approx b (-v) 0 := by
    rintro a b v h rfl
    exact h.fneg
  cases t with
  | tab0 =>
    have h : Approx 0x3F400000 (3 / 4) 0 :=
      approx_const (k := 125) (n := 3 * 2 ^ 22) rfl rfl (by norm_num) (.inr (by norm_num)) (by decide) (by norm_num [ulp])
    exact ⟨_, hneg h rfl, by norm_num, by norm_num⟩
  | tab1 =>
    have h : Approx 0x3F000000 (1 / 2) 0 := approx_self (by decide) realOf_half
    exact ⟨_, hneg h rfl, by norm_num, by norm_num⟩

theorem tabArg_approx (p : Params) {i : Nat} (hi : i ≤ p.K) :
    Approx (tabArg p.K i) (i / p.K) opErr ∧ 0 ≤ (i : ℚ) / p.K ∧ (i : ℚ) / p.K ≤ 1 := by
  have hK : (0 : ℚ) < p.K := by
    have := p.K_min
    exact_mod_cast (by omega : 0 < p.K)
  have hone : (i : ℚ) / p.K ≤ 1 := (div_le_one hK).2 (by exact_mod_cast hi)
  have hnonneg : 0 ≤ (i : ℚ) / p.K := by positivity
  exact ⟨(roundsTo_tabArg p hi).approx (by rw [abs_of_nonneg hnonneg]; linarith), hnonneg, hone⟩

/-- The two entries at `i / K` are close to the kernel there. -/
theorem tabEntry_approx (p : Params) {t : Table} {α : ℚ} (hA : Approx t.shape α 0) (hα : -3 / 4 ≤ α ∧ α ≤ -1 / 2) {i : Nat}
    (hi : i ≤ p.K) : Approx (tabEntry p.K t (2 * i)) (kernel1 α (i / p.K)) entryErr ∧
      Approx (tabEntry p.K t (2 * i + 1)) (kernel2 α (i / p.K)) entryErr := by
  obtain ⟨harg, hrange⟩ := tabArg_approx p hi
  rw [tabEntry_even, tabEntry_odd]
  exact ⟨(branch1_approx hA hα harg hrange).mono (by norm_num [opErr, entryErr]),
    (branch2_approx hA hα harg hrange).mono (by norm_num [opErr, entryErr])⟩

end Sys2Proof.Machine
end

