-- ==== Sys2Proof/Proofs/Weights.lean ====
section
/-! PROOFS. The indices and weights of a coordinate (R94 to R98): the indices are in range, the weights are finite, sum to 1
where no tap is clamped, and select the tap where the scale is 1. -/

namespace Sys2Proof.Machine

/-! ### The indices (R94, R98 b, c) -/

theorem locate_idx (p : Params) (sc : Word) (m : Mode) (coord outSize limit : Int) :
    (locate p sc m coord outSize limit).idx =
      (tapPos (floorF (mapCoord m sc coord outSize))).map fun v => clamp v limit :=
  sampleAt_idx _ _ _ _

/-- Settles O27: clamping is monotone and lands in `[0, limit - 1]`. -/
theorem locateIndicesInRange : Obligations.LocateIndicesInRange := by
  intro p sc m coord outSize limit hlimit
  rw [locate_idx]
  refine ⟨?_, rfl⟩
  simp only [Quad.map, tapPos, clamp]
  omega

/-! ### The nominal weights (R95) -/

/-- The nominal weights are close to the kernel at a fraction `t` and at `1 - t`. -/
theorem rawWeights_approx (p : Params) (k : Table) {inn : Word} (h : isFinite inn = true) :
    ∃ α t : ℚ, (-3 / 4 ≤ α ∧ α ≤ -1 / 2) ∧ (0 ≤ t ∧ t ≤ 1) ∧
      Approx (rawWeights p.K k (tabOffset p inn)).q0 (kernel2 α t) entryErr ∧
      Approx (rawWeights p.K k (tabOffset p inn)).q1 (kernel1 α t) entryErr ∧
      Approx (rawWeights p.K k (tabOffset p inn)).q2 (kernel1 α (1 - t)) entryErr ∧
      Approx (rawWeights p.K k (tabOffset p inn)).q3 (kernel2 α (1 - t)) entryErr := by
  obtain ⟨hlow, hhigh⟩ := tabOffset_bounds p h
  obtain ⟨n, hn⟩ := Int.eq_ofNat_of_zero_le hlow
  rw [hn] at hhigh ⊢
  have hnK : n ≤ p.K := by exact_mod_cast hhigh
  have hplaces : (2 * (n : ℤ) + 1).toNat = 2 * n + 1 ∧ (2 * (n : ℤ)).toNat = 2 * n ∧
      (2 * ((p.K : ℤ) - n)).toNat = 2 * (p.K - n) ∧ (2 * ((p.K : ℤ) - n) + 1).toNat = 2 * (p.K - n) + 1 := by omega
  obtain ⟨h0, h1, h2, h3⟩ := hplaces
  have hK : (p.K : ℚ) ≠ 0 := by
    have := p.K_min
    exact_mod_cast (by omega : p.K ≠ 0)
  have hmirror : ((p.K - n : ℕ) : ℚ) / p.K = 1 - n / p.K := by
    rw [Nat.cast_sub hnK, sub_div, div_self hK]
  obtain ⟨α, hA, hα⟩ := shape_approx k
  obtain ⟨hw1, hw0⟩ := tabEntry_approx p hA hα hnK
  obtain ⟨hw2, hw3⟩ := tabEntry_approx p hA hα (Nat.sub_le p.K n)
  rw [hmirror] at hw2 hw3
  refine ⟨α, n / p.K, hα, (tabArg_approx p hnK).2, ?_⟩
  simp only [rawWeights, h0, h1, h2, h3]
  exact ⟨hw0, hw1, hw2, hw3⟩

/-- Finite, and at most 2 in magnitude. -/
def Small (w : Word) : Prop := isFinite w = true ∧ |realOf w| ≤ 2

theorem small_zero : Small 0 := ⟨by decide, by rw [realOf_zero]; norm_num⟩

theorem small_of_approx {w : Word} {v : ℚ} (h : Approx w v entryErr) (hv : |v| ≤ 3 / 2) : Small w := by
  refine ⟨h.1, h.abs_le.trans ?_⟩
  have : entryErr ≤ 1 / 2 := by norm_num [entryErr]
  linarith

theorem rawWeights_small (p : Params) (k : Table) {inn : Word} (h : isFinite inn = true) :
    ∀ w ∈ (rawWeights p.K k (tabOffset p inn)).toList, Small w := by
  obtain ⟨α, t, hα, ht, h0, h1, h2, h3⟩ := rawWeights_approx p k h
  have ht' : 0 ≤ 1 - t ∧ 1 - t ≤ 1 := ⟨by linarith [ht.2], by linarith [ht.1]⟩
  have hloose : (3 / 4 : ℚ) ≤ 3 / 2 := by norm_num
  simp only [Quad.toList, List.forall_mem_cons]
  exact ⟨small_of_approx h0 ((kernel2_bounds hα ht).trans hloose), small_of_approx h1 (kernel1_bounds hα ht),
    small_of_approx h2 (kernel1_bounds hα ht'), small_of_approx h3 ((kernel2_bounds hα ht').trans hloose), nofun⟩

/-! ### The weights of HALF_PIXEL (R97) -/

/-- The weights of `HALF_PIXEL` before the renormalisation: a clamped tap gets `+0.0`. -/
def keptWeights (base limit : Int) (raw : Quad Word) : Quad Word :=
  ⟨if clamp (base - 1) limit = base - 1 then raw.q0 else 0, if clamp base limit = base then raw.q1 else 0,
    if clamp (base + 1) limit = base + 1 then raw.q2 else 0, if clamp (base + 2) limit = base + 2 then raw.q3 else 0⟩

theorem unclampedOnly_eq (pos idx : Quad Int) (raw : Quad Word) : unclampedOnly pos idx raw =
    ⟨if idx.q0 = pos.q0 then raw.q0 else 0, if idx.q1 = pos.q1 then raw.q1 else 0,
      if idx.q2 = pos.q2 then raw.q2 else 0, if idx.q3 = pos.q3 then raw.q3 else 0⟩ := by
  simp [unclampedOnly, Quad.zipWith]

theorem unclampedOnly_eq_keptWeights (base limit : Int) (raw : Quad Word) :
    unclampedOnly (tapPos base) ((tapPos base).map fun v => clamp v limit) raw = keptWeights base limit raw :=
  unclampedOnly_eq _ _ _

theorem sampleAt_halfPixel_wgt (p : Params) (inn : Word) (limit : Int) : (sampleAt p .halfPixel inn limit).wgt =
    renormalise (keptWeights (floorF inn) limit (rawWeights p.K .tab1 (tabOffset p inn))) :=
  congrArg renormalise (unclampedOnly_eq_keptWeights _ _ _)

theorem small_ite {c : Prop} [Decidable c] {w : Word} (h : Small w) : Small (if c then w else 0) := by
  split
  · exact h
  · exact small_zero

theorem keptWeights_small {base limit : Int} {raw : Quad Word} (h : ∀ w ∈ raw.toList, Small w) :
    ∀ w ∈ (keptWeights base limit raw).toList, Small w := by
  simp only [keptWeights, Quad.toList, List.forall_mem_cons] at h ⊢
  obtain ⟨h0, h1, h2, h3, -⟩ := h
  exact ⟨small_ite h0, small_ite h1, small_ite h2, small_ite h3, nofun⟩

theorem weightSum_finite {w : Quad Word} (h : ∀ v ∈ w.toList, Small v) : isFinite (weightSum w) = true := by
  simp only [Quad.toList, List.forall_mem_cons] at h
  obtain ⟨h0, h1, h2, h3, -⟩ := h
  have hloose : ∀ {v : Word} (n : Nat), Small v → isFinite v = true ∧ |realOf v| ≤ 2 ^ (n + 1) := fun n hv =>
    ⟨hv.1, hv.2.trans (by rw [pow_succ]; linarith [one_le_pow₀ (M₀ := ℚ) one_le_two (n := n)])⟩
  have h01 := fadd_bounded (hloose 0 h0) (hloose 0 h1) (by norm_num)
  have h012 := fadd_bounded h01 (hloose 1 h2) (by norm_num)
  exact (fadd_bounded h012 (hloose 2 h3) (by norm_num)).1

theorem abs_realOf_thresh : |realOf Config.THRESH| = 1000 / 2 ^ 126 := by
  rw [abs_realOf, show mag Config.THRESH = 9 * 2 ^ 23 + (2 ^ 23 + 0x7A0000) from rfl,
    magVal_eq (by norm_num) (.inr (by norm_num)), ulp]
  norm_num

/-- Magnitudes compare as their bits (R97). -/
theorem absAbove_thresh_iff {s : Word} (h : isFinite s = true) :
    absAbove s Config.THRESH = true ↔ 1000 / 2 ^ 126 < |realOf s| := by
  rw [← abs_realOf_thresh, abs_realOf, abs_realOf, magVal_strictMono.lt_iff_lt, absAbove, toNat_fabs, isNaN_of_isFinite h]
  simp only [Bool.not_false, Bool.true_and, decide_eq_true_eq]
  rfl

theorem renormalise_of_above {w : Quad Word} (h : absAbove (weightSum w) Config.THRESH = true) :
    renormalise w = w.map fun v => fmul v (fdiv 0x3F800000 (weightSum w)) := if_pos h

theorem renormalise_of_not_above {w : Quad Word} (h : ¬ absAbove (weightSum w) Config.THRESH = true) :
    renormalise w = w := if_neg h

/-- The reciprocal of a sum above the threshold is finite, and so is every weight times it. -/
theorem renormalise_finite {w : Quad Word} (h : ∀ v ∈ w.toList, Small v) :
    ∀ v ∈ (renormalise w).toList, isFinite v = true := by
  by_cases habove : absAbove (weightSum w) Config.THRESH = true
  · rw [renormalise_of_above habove]
    have hsum := weightSum_finite h
    rw [absAbove_thresh_iff hsum] at habove
    have hne : realOf (weightSum w) ≠ 0 := by
      intro hzero
      rw [hzero, abs_zero] at habove
      norm_num at habove
    have hinv : isFinite (fdiv 0x3F800000 (weightSum w)) = true ∧ |realOf (fdiv 0x3F800000 (weightSum w))| ≤ 2 ^ 117 := by
      refine (roundsTo_fdiv (by decide) hsum hne).bounded (representable_pow (by norm_num)) ?_
      rw [realOf_one, abs_div, abs_one, div_le_iff₀ (abs_pos.2 hne)]
      calc (1 : ℚ) ≤ 2 ^ 117 * (1000 / 2 ^ 126) := by norm_num
        _ ≤ 2 ^ 117 * |realOf (weightSum w)| := mul_le_mul_of_nonneg_left habove.le (by positivity)
    have hscaled : ∀ v : Word, Small v → isFinite (fmul v (fdiv 0x3F800000 (weightSum w))) = true := fun v hv =>
      (fmul_bounded (m := 1) ⟨hv.1, hv.2.trans_eq (pow_one 2).symm⟩ hinv (by norm_num)).1
    simp only [Quad.map, Quad.toList, List.forall_mem_cons] at h ⊢
    obtain ⟨h0, h1, h2, h3, -⟩ := h
    exact ⟨hscaled _ h0, hscaled _ h1, hscaled _ h2, hscaled _ h3, nofun⟩
  · rw [renormalise_of_not_above habove]
    exact fun v hv => (h v hv).1

/-- Settles O29: the nominal weights are small, so their sum and its reciprocal are finite. -/
theorem weightsAreFinite : Obligations.WeightsAreFinite := by
  intro p m inn limit h
  have hraw := rawWeights_small p (sel m) h
  cases m with
  | none => exact fun w hw => (hraw w hw).1
  | pytorchHalfPixel => exact fun w hw => (hraw w hw).1
  | halfPixel =>
    rw [sampleAt_halfPixel_wgt]
    exact renormalise_finite (keptWeights_small hraw)

/-! ### Every tap clamped, and no tap clamped (R97, R98 e) -/

/-- Settles O32: the sum of four zeros is not above the threshold. -/
theorem allTapsClampedGivesZeroWeights : Obligations.AllTapsClampedGivesZeroWeights := by
  intro p inn limit h
  simp only [Quad.toList, tapPos, List.forall_mem_cons] at h
  obtain ⟨h0, h1, h2, h3, -⟩ := h
  rw [sampleAt_halfPixel_wgt, keptWeights, if_neg h0, if_neg h1, if_neg h2, if_neg h3]
  exact renormalise_of_not_above (by decide +kernel)

/-- The rounded sum of four weights, three roundings away from their sum. -/
theorem weightSum_approx {w : Quad Word} (hw : ∀ v ∈ w.toList, isFinite v = true ∧ |realOf v| ≤ 7 / 4) :
    Approx (weightSum w) (realOf w.q0 + realOf w.q1 + realOf w.q2 + realOf w.q3) (3 * opErr) := by
  simp only [Quad.toList, List.forall_mem_cons] at hw
  obtain ⟨⟨f0, b0⟩, ⟨f1, b1⟩, ⟨f2, b2⟩, ⟨f3, b3⟩, -⟩ := hw
  have hδ : opErr = 1 / 2 ^ 22 := rfl
  rw [abs_le] at b0 b1 b2 b3
  have h01 := (approx_self f0 rfl).fadd (approx_self f1 rfl) (by
    rw [← le_sub_iff_add_le, abs_le]; constructor <;> linarith)
  have h012 := h01.fadd (approx_self f2 rfl) (by
    rw [hδ, ← le_sub_iff_add_le, abs_le]; constructor <;> linarith)
  have h0123 := h012.fadd (approx_self f3 rfl) (by
    rw [hδ, ← le_sub_iff_add_le, abs_le]; constructor <;> linarith)
  exact h0123.mono (by linarith)

/-- A sum `S` times the approximate reciprocal of a number `s` close to it: `S*r - 1 = S*(r - 1/s) - (s - S)/s`. -/
theorem mul_reciprocal_near {S s r : ℚ} (hS : |S| ≤ 7) (hs : 1 / 2 ≤ s) (hsum : |s - S| ≤ 3 * opErr)
    (hr : |r - 1 / s| ≤ opErr) : |S * r - 1| ≤ 7 * opErr + 2 * (3 * opErr) := by
  have hquot : 0 < 1 / s ∧ 1 / s ≤ 2 := ⟨by positivity, by rw [div_le_iff₀ (by linarith)]; linarith⟩
  have hs0 : s ≠ 0 := by linarith
  have hsplit : S * r - 1 = S * (r - 1 / s) - 1 / s * (s - S) := by
    field_simp
    ring
  rw [hsplit]
  refine (abs_sub _ _).trans (add_le_add ?_ ?_)
  · rw [abs_mul]
    exact mul_le_mul hS hr (abs_nonneg _) (by norm_num)
  · rw [abs_mul, abs_of_pos hquot.1]
    exact mul_le_mul hquot.2 hsum (abs_nonneg _) (by norm_num)

theorem reciprocal_le {s r : ℚ} (hs : 1 / 2 ≤ s) (hr : |r - 1 / s| ≤ opErr) : |r| ≤ 3 := by
  have hquot : 0 < 1 / s ∧ 1 / s ≤ 2 := ⟨by positivity, by rw [div_le_iff₀ (by linarith)]; linarith⟩
  have hδ : opErr = 1 / 2 ^ 22 := rfl
  have := abs_le.1 hr
  rw [hδ] at this
  exact abs_le.2 ⟨by linarith, by linarith⟩

/-- Weights times the rounded reciprocal of a number close to their sum: each product is one more rounding. -/
theorem scaled_sum_near {w : Quad Word} {inv : Word} {s : ℚ}
    (hw : ∀ v ∈ w.toList, isFinite v = true ∧ |realOf v| ≤ 7 / 4) (hs : 1 / 2 ≤ s)
    (hsum : |s - (realOf w.q0 + realOf w.q1 + realOf w.q2 + realOf w.q3)| ≤ 3 * opErr) (hinv : Approx inv (1 / s) opErr) :
    |(((w.map fun v => fmul v inv).toList).map realOf).sum - 1| ≤ 1 / 100000 := by
  simp only [Quad.toList, List.forall_mem_cons] at hw
  obtain ⟨h0, h1, h2, h3, -⟩ := hw
  obtain ⟨hinvfin, hinverr⟩ := hinv
  have hprod : ∀ {v : Word}, isFinite v = true ∧ |realOf v| ≤ 7 / 4 →
      |realOf (fmul v inv) - realOf v * realOf inv| ≤ opErr := by
    intro v hv
    refine ((roundsTo_fmul hv.1 hinvfin).approx ?_).2
    rw [abs_mul]
    calc |realOf v| * |realOf inv| ≤ 7 / 4 * 3 := mul_le_mul hv.2 (reciprocal_le hs hinverr) (abs_nonneg _) (by norm_num)
      _ ≤ 8 := by norm_num
  have hS : |realOf w.q0 + realOf w.q1 + realOf w.q2 + realOf w.q3| ≤ 7 := by
    have b0 := abs_le.1 h0.2
    have b1 := abs_le.1 h1.2
    have b2 := abs_le.1 h2.2
    have b3 := abs_le.1 h3.2
    rw [abs_le]
    constructor <;> linarith
  have hclose := abs_le.1 (mul_reciprocal_near hS hs hsum hinverr)
  have e0 := abs_le.1 (hprod h0)
  have e1 := abs_le.1 (hprod h1)
  have e2 := abs_le.1 (hprod h2)
  have e3 := abs_le.1 (hprod h3)
  have hδ : opErr = 1 / 2 ^ 22 := rfl
  simp only [Quad.map, Quad.toList, List.map_cons, List.map_nil, List.sum_cons, List.sum_nil]
  rw [hδ] at e0 e1 e2 e3 hclose
  rw [abs_le]
  constructor <;> linarith

/-- Weights close to numbers that sum to 1 sum to 1 within `10^-5` once rescaled by the reciprocal of their sum. -/
theorem renormalise_sum {w : Quad Word} {v : Quad ℚ} (h0 : Approx w.q0 v.q0 entryErr) (h1 : Approx w.q1 v.q1 entryErr)
    (h2 : Approx w.q2 v.q2 entryErr) (h3 : Approx w.q3 v.q3 entryErr) (hv : ∀ x ∈ v.toList, |x| ≤ 3 / 2)
    (hsum : v.q0 + v.q1 + v.q2 + v.q3 = 1) :
    |(((renormalise w).toList).map realOf).sum - 1| ≤ 1 / 100000 := by
  have hε : entryErr = 1 / 2 ^ 16 := rfl
  have hδ : opErr = 1 / 2 ^ 22 := rfl
  have hw : ∀ a ∈ w.toList, isFinite a = true ∧ |realOf a| ≤ 7 / 4 := by
    have hsmall : ∀ {a : Word} {y : ℚ}, Approx a y entryErr → |y| ≤ 3 / 2 → isFinite a = true ∧ |realOf a| ≤ 7 / 4 := by
      intro a y ha hy
      refine ⟨ha.1, ha.abs_le.trans ?_⟩
      rw [hε]
      linarith
    simp only [Quad.toList, List.forall_mem_cons] at hv ⊢
    obtain ⟨hv0, hv1, hv2, hv3, -⟩ := hv
    exact ⟨hsmall h0 hv0, hsmall h1 hv1, hsmall h2 hv2, hsmall h3 hv3, nofun⟩
  obtain ⟨hfin, hnear⟩ := weightSum_approx hw
  have hlarge : 1 / 2 ≤ realOf (weightSum w) := by
    have e0 := abs_le.1 h0.2
    have e1 := abs_le.1 h1.2
    have e2 := abs_le.1 h2.2
    have e3 := abs_le.1 h3.2
    have e := abs_le.1 hnear
    rw [hε] at e0 e1 e2 e3
    rw [hδ] at e
    linarith
  have habove : absAbove (weightSum w) Config.THRESH = true := by
    rw [absAbove_thresh_iff hfin, abs_of_pos (by linarith)]
    refine lt_of_lt_of_le ?_ hlarge
    norm_num
  rw [renormalise_of_above habove]
  refine scaled_sum_near hw hlarge hnear ?_
  have hinv := roundsTo_fdiv (a := 0x3F800000) (by decide) hfin (by linarith)
  rw [realOf_one] at hinv
  refine hinv.approx ?_
  rw [abs_of_pos (by positivity), div_le_iff₀ (by linarith)]
  linarith

/-- Settles O30: with no tap clamped the weights before the renormalisation are the nominal ones. -/
theorem unclampedWeightsSumToOne : Obligations.UnclampedWeightsSumToOne := by
  intro p inn limit _ h hclamp
  obtain ⟨α, t, hα, ht, h0, h1, h2, h3⟩ := rawWeights_approx p .tab1 h
  have ht' : 0 ≤ 1 - t ∧ 1 - t ≤ 1 := ⟨by linarith [ht.2], by linarith [ht.1]⟩
  have hloose : (3 / 4 : ℚ) ≤ 3 / 2 := by norm_num
  simp only [Quad.toList, tapPos, List.forall_mem_cons] at hclamp
  obtain ⟨c0, c1, c2, c3, -⟩ := hclamp
  rw [sampleAt_halfPixel_wgt, keptWeights, if_pos c0, if_pos c1, if_pos c2, if_pos c3]
  refine renormalise_sum (v := ⟨kernel2 α t, kernel1 α t, kernel1 α (1 - t), kernel2 α (1 - t)⟩) h0 h1 h2 h3 ?_
    (kernel_sum α t)
  simp only [Quad.toList, List.forall_mem_cons]
  exact ⟨(kernel2_bounds hα ht).trans hloose, kernel1_bounds hα ht, kernel1_bounds hα ht',
    (kernel2_bounds hα ht').trans hloose, nofun⟩

/-! ### Scale 1.0 (corner case of R114) -/

/-- An integer below `2^23` is a coordinate of itself at scale 1.0, in any mode. -/
theorem mapCoord_one {coord outSize : Int} (h0 : 0 ≤ coord) (h23 : coord < 2 ^ 23) (hout : coord < outSize) (m : Mode) :
    isFinite (mapCoord m 0x3F800000 coord outSize) = true ∧
      realOf (mapCoord m 0x3F800000 coord outSize) = coord := by
  have hone : isFinite 0x3F800000 = true := by decide
  have hhalf : isFinite 0x3F000000 = true := by decide
  obtain ⟨hfin, hval⟩ := i2f_exact (n := coord) (by rw [abs_of_nonneg h0]; omega)
  have hshifted : isFinite (halfPixelCoord 0x3F800000 coord) = true ∧
      realOf (halfPixelCoord 0x3F800000 coord) = coord := by
    have hrep : Representable ((coord : ℚ) + 1 / 2) := by
      have hbound : |2 * coord + 1| ≤ 2 ^ 24 := by
        rw [abs_of_nonneg (by omega)]
        omega
      have heq : ((2 * coord + 1 : ℤ) : ℚ) * 2 ^ (-1 : ℤ) = coord + 1 / 2 := by
        push_cast
        rw [zpow_neg_one]
        ring
      have hlt : |((2 * coord + 1 : ℤ) : ℚ) * 2 ^ (-1 : ℤ)| < overflow := by
        have hq : |((2 * coord + 1 : ℤ) : ℚ)| ≤ 2 ^ 24 := by exact_mod_cast hbound
        rw [abs_mul, zpow_neg_one, overflow, abs_of_pos (by norm_num : (0 : ℚ) < 2⁻¹)]
        refine lt_of_le_of_lt (mul_le_mul_of_nonneg_right hq (by norm_num)) ?_
        norm_num
      exact heq ▸ representable_int hbound (by norm_num) hlt
    have hsum := (roundsTo_fadd hfin hhalf).exact (by rw [hval, realOf_half]; exact hrep)
    rw [hval, realOf_half] at hsum
    have hprod := (roundsTo_fmul hsum.1 hone).exact (by rw [realOf_one, mul_one]; exact .of_isFinite hsum.1)
    rw [realOf_one, mul_one, hsum.2] at hprod
    have hdiff := roundsTo_fsub hprod.1 hhalf
    rw [hprod.2, realOf_half, add_sub_cancel_right] at hdiff
    exact hdiff.exact (hval ▸ .of_isFinite hfin)
  cases m with
  | none =>
    have hprod := roundsTo_fmul hfin hone
    rw [realOf_one, mul_one] at hprod
    rw [← hval]
    exact hprod.exact (.of_isFinite hfin)
  | halfPixel => exact hshifted
  | pytorchHalfPixel =>
    change isFinite (if 1 < outSize then halfPixelCoord _ _ else 0) = true ∧
      realOf (if 1 < outSize then halfPixelCoord _ _ else 0) = coord
    split
    · exact hshifted
    · obtain rfl : coord = 0 := by omega
      exact ⟨by decide, by rw [realOf_zero, Int.cast_zero]⟩

/-- An integer coordinate has table offset 0. -/
theorem tabOffset_of_int (p : Params) {inn : Word} {n : ℤ} (h : isFinite inn = true) (hn : realOf inn = n) :
    tabOffset p inn = 0 := by
  obtain ⟨hKfin, hK⟩ := i2f_K p
  have hfrac := roundsTo_fracOf h
  rw [hn, Int.fract_intCast] at hfrac
  have hfrac0 := hfrac.exact representable_zero
  have hscaled := roundsTo_fmul hfrac0.1 hKfin
  rw [hfrac0.2, zero_mul] at hscaled
  have hnear := (tabOffset_nearest p inn).1
  rw [(hscaled.exact representable_zero).2, sub_zero] at hnear
  have : |tabOffset p inn| < 1 := by
    have : |(tabOffset p inn : ℚ)| < 1 := hnear.trans_lt (by norm_num)
    exact_mod_cast this
  exact Int.abs_lt_one_iff.1 this

/-- At offset 0 the nominal weights select the second tap (R86, R95). -/
theorem rawWeights_zero (p : Params) (k : Table) : rawWeights p.K k 0 = ⟨0, 0x3F800000, 0, 0⟩ := by
  have h2 : (2 * ((p.K : ℤ) - 0)).toNat = 2 * p.K := by omega
  have h3 : (2 * ((p.K : ℤ) - 0) + 1).toNat = 2 * p.K + 1 := by omega
  rw [rawWeights, h2, h3, tabEntry_two_K, tabEntry_two_K_add_one]
  change (⟨tabEntry p.K k 1, tabEntry p.K k 0, 0, 0⟩ : Quad Word) = _
  rw [tabEntry_one, tabEntry_zero]

/-- Settles O31: the coordinate is an integer, so its offset is 0; in `HALF_PIXEL` its own tap is not clamped, and the sum
of the weights is exactly 1. -/
theorem unitScaleSelectsTheTap : Obligations.UnitScaleSelectsTheTap := by
  intro p m coord outSize limit h0 h23 hout hlimit
  obtain ⟨hfin, hval⟩ := mapCoord_one h0 h23 hout m
  have hfloor : floorF (mapCoord m 0x3F800000 coord outSize) = coord := by
    rw [floorF_eq, hval, Int.floor_intCast]
  have hself : clamp coord limit = coord := by
    unfold clamp
    omega
  have hraw : rawWeights p.K (sel m) (tabOffset p (mapCoord m 0x3F800000 coord outSize)) = ⟨0, 0x3F800000, 0, 0⟩ := by
    rw [tabOffset_of_int p hfin hval, rawWeights_zero]
  refine ⟨?_, ?_⟩
  · rw [locate_idx, hfloor]
    exact hself
  · unfold locate
    cases m with
    | none => exact hraw
    | pytorchHalfPixel => exact hraw
    | halfPixel =>
      have hkept : keptWeights coord limit ⟨0, 0x3F800000, 0, 0⟩ = ⟨0, 0x3F800000, 0, 0⟩ := by
        rw [keptWeights, ite_self, if_pos hself, ite_self, ite_self]
      rw [sampleAt_halfPixel_wgt, hfloor, show Table.tab1 = sel .halfPixel from rfl, hraw, hkept]
      decide +kernel

end Sys2Proof.Machine
end

