-- ==== Sys2Proof/Proofs/Locate.lean ====
section
/-! PROOFS. `LOCATE` where no check fails (R94 to R99), and the dot product with the weights of an exact tap (R109). -/

namespace Sys2Proof.Machine

/-! ### LOCATE (R99) -/

/-- Past its checks `LOCATE` writes the clamped indices and the weights of its coordinate. -/
theorem exec_locate_completes {s : State} {m : Mode} (hmode : Mode.ofWord s.operands.mode = some m)
    (hlimit : 1 ≤ s32 s.operands.lLimit)
    (hcoord : isFinite (mapCoord m s.operands.lScale (s32 s.operands.lCoord) (s32 s.operands.lOutSize)) = true) :
    exec .locate s =
      let limit := s32 s.operands.lLimit
      let base := floorF (mapCoord m s.operands.lScale (s32 s.operands.lCoord) (s32 s.operands.lOutSize))
      let wgt := (locate s.params s.operands.lScale m (s32 s.operands.lCoord) (s32 s.operands.lOutSize) limit).wgt
      .next (completed { ensureTable (sel m) s with
        regs := { s.regs with
          idx0 := BitVec.ofInt 32 (clamp (base - 1) limit), idx1 := BitVec.ofInt 32 (clamp base limit)
          idx2 := BitVec.ofInt 32 (clamp (base + 1) limit), idx3 := BitVec.ofInt 32 (clamp (base + 2) limit)
          wgt0 := resolveNaN s.tick 0 wgt.q0, wgt1 := resolveNaN s.tick 1 wgt.q1
          wgt2 := resolveNaN s.tick 2 wgt.q2, wgt3 := resolveNaN s.tick 3 wgt.q3 } }) := by
  simp only [exec, execLocate, hmode, if_neg (Int.not_lt.2 hlimit), hcoord, if_true, locate_idx, Quad.map, tapPos]

theorem s32_lt (w : Word) : s32 w < 2 ^ 31 := by
  have h : w.toInt < 2 ^ 31 := by simpa using BitVec.toInt_lt (x := w)
  exact h

/-- A clamped index fits a register (R94, R98 b). -/
theorem u32_ofInt_clamp (v : Int) {limit : Word} (h : 1 ≤ s32 limit) :
    (u32 (BitVec.ofInt 32 (clamp v (s32 limit))) : Int) = clamp v (s32 limit) := by
  have hlt := s32_lt limit
  have hrange : 0 ≤ clamp v (s32 limit) ∧ clamp v (s32 limit) < 2 ^ 32 := by
    unfold clamp
    omega
  rw [u32, BitVec.toNat_ofInt, Int.toNat_of_nonneg (Int.emod_nonneg _ (by norm_num))]
  exact Int.emod_eq_of_lt hrange.1 hrange.2

/-- The nominal weights are the entries of the generated table that R95 names. -/
theorem rawWeights_entries (p : Params) (m : Mode) {inn : Word} (h : isFinite inn = true) :
    let o := tabOffset p inn
    let table := tgen p.K (if m = .halfPixel then 0xBF000000 else 0xBF400000)
    let raw := rawWeights p.K (sel m) o
    table[(2 * o + 1).toNat]? = some raw.q0 ∧ table[(2 * o).toNat]? = some raw.q1 ∧
      table[(2 * ((p.K : Int) - o)).toNat]? = some raw.q2 ∧ table[(2 * ((p.K : Int) - o) + 1).toNat]? = some raw.q3 := by
  intro o table raw
  obtain ⟨hlow, hhigh⟩ := tabOffset_bounds p h
  have htable : table = tgen p.K (sel m).shape := by
    rw [sel_eq, apply_ite Table.shape]
    rfl
  rw [htable]
  exact ⟨tgen_getElem?_tabEntry _ (by omega), tgen_getElem?_tabEntry _ (by omega), tgen_getElem?_tabEntry _ (by omega),
    tgen_getElem?_tabEntry _ (by omega)⟩

/-- R97: the weights of `HALF_PIXEL` are the kept entries, rescaled where their sum is above the threshold. -/
theorem halfPixel_weights (p : Params) {inn : Word} (limit : Int) (h : isFinite inn = true) :
    let w := keptWeights (floorF inn) limit (rawWeights p.K .tab1 (tabOffset p inn))
    isFinite (weightSum w) = true ∧
      (1000 / 2 ^ 126 < |realOf (weightSum w)| →
        (sampleAt p .halfPixel inn limit).wgt = w.map fun v => fmul v (fdiv 0x3F800000 (weightSum w))) ∧
      (|realOf (weightSum w)| ≤ 1000 / 2 ^ 126 → (sampleAt p .halfPixel inn limit).wgt = w) := by
  intro w
  have hsum : isFinite (weightSum w) = true := weightSum_finite (keptWeights_small (rawWeights_small p .tab1 h))
  rw [sampleAt_halfPixel_wgt p inn limit]
  exact ⟨hsum, fun habove => renormalise_of_above ((absAbove_thresh_iff hsum).2 habove),
    fun hbelow => renormalise_of_not_above fun h => absurd ((absAbove_thresh_iff hsum).1 h) (not_lt.2 hbelow)⟩

/-- Settles O26: the weights by mode, with the threshold of R97 as a comparison of numbers; then the one outcome of
`LOCATE` past its checks. -/
theorem locateGivesIndicesAndWeights : Obligations.LocateGivesIndicesAndWeights := by
  intro s m d limit inn base K o table wgt hmode hlimit hfin
  refine ⟨⟨rawWeights K (sel m) o, ?_⟩, _, exec_locate_completes hmode hlimit hfin, ?_⟩
  · obtain ⟨h0, h1, h2, h3⟩ := rawWeights_entries s.params m hfin
    refine ⟨h0, h1, h2, h3, fun hm => ?_, ?_⟩
    · cases m with
      | none => rfl
      | pytorchHalfPixel => rfl
      | halfPixel => exact absurd rfl hm
    · rintro rfl
      exact halfPixel_weights s.params limit hfin
  · exact ⟨u32_ofInt_clamp (base - 1) hlimit, u32_ofInt_clamp base hlimit, u32_ofInt_clamp (base + 1) hlimit,
      u32_ofInt_clamp (base + 2) hlimit, rfl, rfl, rfl, fun k => by simp, fun _ => rfl, rfl, rfl, rfl, rfl, rfl, rfl⟩

/-! ### The weights of an exact tap (R109 a) -/

/-- The two zeros. -/
theorem eq_zero_of_mag {a : Word} (h : mag a = 0) : a = 0 ∨ a = 0x80000000 := by
  rw [← withSign_signBit_mag a, h]
  cases signBit a
  · exact .inl rfl
  · exact .inr rfl

/-- A finite number times zero is one of the two zeros. -/
theorem fmul_zero_eq {a : Word} (h : isFinite a = true) : fmul a 0 = 0 ∨ fmul a 0 = 0x80000000 := by
  have hround := roundsTo_fmul h (b := 0) (by decide)
  rw [realOf_zero, mul_zero] at hround
  exact eq_zero_of_mag (mag_eq_zero_of_realOf (hround.exact representable_zero).2)

/-- A finite number times 1 is itself, bit for bit. -/
theorem fmul_one_eq {a : Word} (h : isFinite a = true) : fmul a 0x3F800000 = a := by
  by_cases hzero : realOf a = 0
  · rcases eq_zero_of_mag (mag_eq_zero_of_realOf hzero) with rfl | rfl <;> decide
  · have hround := roundsTo_fmul h (b := 0x3F800000) (by decide)
    rw [realOf_one, mul_one] at hround
    exact eq_of_realOf_eq (hround.exact (.of_isFinite h)).2 hzero

/-- Adding a zero on either side keeps a number other than 0. -/
theorem fadd_of_realOf_zero {a b v : Word} (ha : isFinite a = true) (hb : isFinite b = true) (hv : isFinite v = true)
    (hsum : realOf a + realOf b = realOf v) (hne : realOf v ≠ 0) : fadd a b = v := by
  have hround := roundsTo_fadd ha hb
  rw [hsum] at hround
  exact eq_of_realOf_eq (hround.exact (.of_isFinite hv)).2 hne

/-- Settles O35: three of the products are zeros and the fourth is `v1`; a `v1` other than 0 survives the sums, and for a
zero the sum is a zero. -/
theorem unitWeightsSelectTheTap : Obligations.UnitWeightsSelectTheTap := by
  intro v h0 h1 h2 h3
  have hzeros : ∀ {z : Word}, z = 0 ∨ z = 0x80000000 → isFinite z = true ∧ realOf z = 0 := by
    rintro z (rfl | rfl)
    · exact ⟨by decide, realOf_zero⟩
    · exact ⟨by decide, (realOf_fneg 0).trans (by rw [realOf_zero, neg_zero])⟩
  have z0 := fmul_zero_eq h0
  have z2 := fmul_zero_eq h2
  have z3 := fmul_zero_eq h3
  simp only [interp1D]
  rw [fmul_one_eq h1]
  by_cases hne : realOf v.q1 = 0
  · have z1 := eq_zero_of_mag (mag_eq_zero_of_realOf hne)
    generalize fmul v.q0 0 = p0 at z0
    generalize fmul v.q2 0 = p2 at z2
    generalize fmul v.q3 0 = p3 at z3
    generalize v.q1 = p1 at z1
    rcases z1 with rfl | rfl
    · left
      rcases z0 with rfl | rfl <;> rcases z2 with rfl | rfl <;> rcases z3 with rfl | rfl <;> decide
    · rcases z0 with rfl | rfl <;> rcases z2 with rfl | rfl <;> rcases z3 with rfl | rfl <;> decide
  · left
    obtain ⟨f0, r0⟩ := hzeros z0
    obtain ⟨f2, r2⟩ := hzeros z2
    obtain ⟨f3, r3⟩ := hzeros z3
    rw [fadd_of_realOf_zero f0 h1 h1 (by rw [r0, zero_add]) hne, fadd_of_realOf_zero h1 f2 h1 (by rw [r2, add_zero]) hne,
      fadd_of_realOf_zero h1 f3 h1 (by rw [r3, add_zero]) hne]

end Sys2Proof.Machine
end

