-- ==== Sys2Proof/Proofs/Run.lean ====
section
/-! PROOFS. `RUN` and the numbers of its scales (R129): its coordinates are finite, and equal sizes give the identity copy
with scales 1.0 (R130, R132). -/

namespace Sys2Proof.Machine

/-- The errors of size resolution (R127). -/
theorem Regs.resolveSize_error {d : Regs} {p : Params} {m : Memory} {e : ErrCode} (h : d.resolveSize p m = .error e) :
    e = .noSize ∨ e = .addrRange := by
  unfold Regs.resolveSize at h
  dsimp only at h
  split at h
  · cases h
  · split at h
    · cases h
      exact .inl rfl
    · split at h
      · cases h
        exact .inr rfl
      · split at h <;> cases h

/-- A resolved size is two signed words. -/
theorem Regs.resolveSize_size {d : Regs} {p : Params} {m : Memory} {oh ow : Int} (h : d.resolveSize p m = .size oh ow) :
    oh < 2 ^ 31 ∧ ow < 2 ^ 31 := by
  unfold Regs.resolveSize at h
  dsimp only at h
  split at h
  · cases h
    exact ⟨s32_lt _, s32_lt _⟩
  · split at h
    · cases h
    · split at h
      · cases h
      · split at h <;> cases h
        exact ⟨s32_lt _, s32_lt _⟩

theorem checkGeometry_error {j : Job} {e : ErrCode} (h : checkGeometry j = some e) : e = .addrRange ∨ e = .overlap := by
  unfold checkGeometry at h
  split_ifs at h <;> cases h
  · exact .inl rfl
  · exact .inr rfl

/-- Every coordinate of legal sizes is finite under the scales of R129. -/
theorem coordsFinite_runJob {d : Regs} (m : Mode) {oh ow : Int} (hdims : ¬ badDims d) (hh : 1 ≤ oh ∧ oh < 2 ^ 31)
    (hw : 1 ≤ ow ∧ ow < 2 ^ 31) : coordsFinite (runJob d m oh ow) = true := by
  obtain ⟨-, -, hih, hiw⟩ := dims_pos hdims
  have hlt : ∀ w : Word, u32 w < 2 ^ 32 := fun w => w.isLt
  have hih32 := hlt d.inDim2
  have hiw32 := hlt d.inDim3
  rw [coordsFinite_iff]
  simp only [runJob]
  refine ⟨fun y hy => ?_, fun x hx => ?_⟩
  · refine mapCoord_finite (scale_bounds (by omega) (by omega) (by omega) (by omega) _) ?_ m _
    rw [Nat.abs_cast]
    omega
  · refine mapCoord_finite (scale_bounds (by omega) (by omega) (by omega) (by omega) _) ?_ m _
    rw [Nat.abs_cast]
    omega

/-- No check of `RUN` raises `ERR_NONFINITE`. -/
theorem planRun_ne_nonFinite {s : State} {e : ErrCode} (h : planRun s = .error e) : e ≠ .nonFinite := by
  rintro rfl
  unfold planRun at h
  dsimp only at h
  split at h
  · cases h
  · split at h
    next e he =>
      cases h
      rcases Regs.resolveSize_error he with hcode | hcode <;> cases hcode
    next => cases h
    next oh ow hsize =>
      split at h
      · cases h
      next hpos =>
        split at h
        · cases h
        next m hm =>
          split at h
          · cases h
          next hdims =>
            obtain ⟨hh, hw⟩ := Regs.resolveSize_size hsize
            rcases checkJob_error h with hgeometry | ⟨-, -, hcoords, -⟩
            · rcases checkGeometry_error hgeometry with hcode | hcode <;> cases hcode
            · rw [coordsFinite_runJob m hdims ⟨by omega, hh⟩ ⟨by omega, hw⟩] at hcoords
              cases hcoords

theorem ErrCode.code_eq_nonFinite_iff (e : ErrCode) : e.code = ErrCode.nonFinite.code ↔ e = .nonFinite := by
  cases e <;> decide

/-- Settles O44: a `RUN` that has not forked raises the error of a check, or none. -/
theorem runIsNeverNonfinite : Obligations.RunIsNeverNonfinite := by
  intro s t hwork h
  rcases runPlan_next h with ⟨w, hw, -⟩ | ⟨-, e, he, rfl⟩ | ⟨-, j, -, hfinish⟩
  · rw [hwork] at hw
    cases hw
  · exact fun hcode => planRun_ne_nonFinite he ((ErrCode.code_eq_nonFinite_iff e).1 hcode)
  · rw [(finishWork_endsDone (.inr rfl) hfinish).errCode]
    decide

/-- Settles O41: past its checks a `RUN` to the size of its input is an identity copy, in any mode; both scales divide a
length by itself. -/
theorem runCopiesEqualSizes : Obligations.RunCopiesEqualSizes := by
  intro s m oh ow d j hm hwork hrank hsize hh hw hmode hdims heqh heqw hgeometry hbacked
  have hcopy : j.copy = true := decide_eq_true ⟨heqh, heqw⟩
  have hplan : planRun s = .job j :=
    (planRun_eq_checkJob hrank hsize (not_or.2 ⟨Int.not_lt.2 hh, Int.not_lt.2 hw⟩) hmode hdims).trans
      (checkJob_passes hgeometry (.inl hcopy))
  have hj : JobOk j := jobOk_of_planRun hplan
  obtain ⟨hoh, how⟩ := Regs.resolveSize_size hsize
  have hhs : j.hs = 0x3F800000 := by
    change scale (u32 d.inDim2) oh d.alignCorners = _
    rw [← heqh]
    exact equalSizesScaleByOne oh _ hh (by omega)
  have hws : j.ws = 0x3F800000 := by
    change scale (u32 d.inDim3) ow d.alignCorners = _
    rw [← heqw]
    exact equalSizesScaleByOne ow _ hw (by omega)
  have hsame : j.nIn = j.nOut := by
    obtain ⟨h1, h2⟩ := hj.copySize hcopy
    rw [Job.nIn, Job.nOut, h1, h2]
  refine ⟨_, runPlan_of_backed hwork hplan hbacked joinRun, fun k hk => readElem_writeItems_copied hj hm hcopy (hsame ▸ hk),
    fun a ha => readByte_writeItems_outside hj hm ha, ?_, ?_, rfl, rfl, rfl, rfl, rfl, rfl⟩
  · rw [joinRun_regs, hhs, hws, ← ofNat_toNat_eq_ofInt (by omega : 0 ≤ oh), ← ofNat_toNat_eq_ofInt (by omega : 0 ≤ ow)]
    rfl
  · rw [joinRun_status]
    simp only [forkJob_status, hcopy, if_true]
    rfl

end Sys2Proof.Machine
end
